-- ==== Sys2Proof/Word.lean ====
section
/-! DEFINITION. The plain value types of the block: bytes, 32-bit register words and byte strings (00_scope.md rules R10,
R11). A byte string of a fixed length carries its length, so that a block is 16 bytes by its type. -/

namespace Sys2Proof

/-- One byte (00_scope.md R11). -/
abbrev Byte := BitVec 8

/-- One 32-bit control-register word (10_state.md R22). -/
abbrev Word := BitVec 32

/-- A byte string; index 0 is the first byte (00_scope.md R11). -/
abbrev Bytes := List Byte

/-- A byte string of exactly `n` bytes. -/
abbrev BytesN (n : Nat) := { b : Bytes // b.length = n }

/-- A 16-byte block (00_scope.md R7, `BLOCK`). -/
abbrev Block := BytesN 16

/-- An 8-byte key-wrap semi-block (00_scope.md R7, `KW_SEMI_BLOCK`). -/
abbrev Semi := BytesN 8

/-- `zeros(n)` (00_scope.md R11). -/
abbrev zeros (n : Nat) : BytesN n := ⟨List.replicate n 0, List.length_replicate⟩

end Sys2Proof
end

