-- ==== Sys2Proof/Syntax.lean ====
section
/-! DEFINITION. The command set: one constructor for each row of spec/opcode_table.json (30_encoding.md rules R70 to R77). -/

namespace Sys2Proof

/-- The commands of 30_encoding.md R75 and R77. No legal command has an operand in its word (R74). The rows that stand for
a group of words carry what tells the words of the group apart. -/
inductive Instr where
  /-- ENCINIT.ECB, word 0x00000001. -/
  | encinitEcb
  /-- ENCINIT.CBC, word 0x00000011. -/
  | encinitCbc
  /-- DECINIT.ECB, word 0x00000002. -/
  | decinitEcb
  /-- DECINIT.CBC, word 0x00000012. -/
  | decinitCbc
  /-- ENCUPD, word 0x00000003. -/
  | encupd
  /-- DECUPD, word 0x00000004. -/
  | decupd
  /-- ENCFIN, word 0x00000005. -/
  | encfin
  /-- DECFIN, word 0x00000006. -/
  | decfin
  /-- WRAP.KW, word 0x00000027. -/
  | wrapKw
  /-- WRAP.KWP, word 0x00000037. -/
  | wrapKwp
  /-- UNWRAP.KW, word 0x00000028. -/
  | unwrapKw
  /-- UNWRAP.KWP, word 0x00000038. -/
  | unwrapKwp
  /-- CLEAR, word 0x00000009. -/
  | clear
  /-- ENCINIT.BADALG: OP 1 with an ALG that names no mode. -/
  | encinitBadalg (alg : BitVec 4)
  /-- DECINIT.BADALG: OP 2 with an ALG that names no mode. -/
  | decinitBadalg (alg : BitVec 4)
  /-- WRAP.BADALG: OP 7 with an ALG that names no key-wrap algorithm. -/
  | wrapBadalg (alg : BitVec 4)
  /-- UNWRAP.BADALG: OP 8 with an ALG that names no key-wrap algorithm. -/
  | unwrapBadalg (alg : BitVec 4)
  /-- ILLEGAL: every word that decodes to no command. -/
  | illegal (w : BitVec 32)
deriving DecidableEq, Repr

end Sys2Proof
end

