-- ==== Sys2Proof/WellFormed.lean ====
section
/-! DEFINITION. Which terms of `Instr` stand for words of their row: the checks of 30_encoding.md rule R76. -/

namespace Sys2Proof

/-- ALG names a cipher mode, ECB or CBC (30_encoding.md R73). -/
def isModeAlg (alg : BitVec 4) : Bool := alg == 0x0 || alg == 0x1

/-- ALG names a key-wrap algorithm, KW or KWP (30_encoding.md R73). -/
def isWrapAlg (alg : BitVec 4) : Bool := alg == 0x2 || alg == 0x3

/-- OP is reserved: 0x0 or 0xA to 0xF (30_encoding.md R72). -/
def isReservedOp (op : BitVec 4) : Bool := op == 0x0 || decide (0xA ≤ op.toNat)

/-- OP takes no selector, so that ALG must be 0 (30_encoding.md R73). -/
def isPlainOp (op : BitVec 4) : Bool := op == 0x3 || op == 0x4 || op == 0x5 || op == 0x6 || op == 0x9

/-- The illegal words exactly as 30_encoding.md R76 lists them. -/
def isIllegalWord (w : BitVec 32) : Bool :=
  w.extractLsb' 8 24 != 0
    || isReservedOp (w.extractLsb' 0 4)
    || (isPlainOp (w.extractLsb' 0 4) && w.extractLsb' 4 4 != 0)

/-- A term stands for a word of its row. -/
def Instr.wf : Instr → Bool
  | .encinitEcb => true
  | .encinitCbc => true
  | .decinitEcb => true
  | .decinitCbc => true
  | .encupd => true
  | .decupd => true
  | .encfin => true
  | .decfin => true
  | .wrapKw => true
  | .wrapKwp => true
  | .unwrapKw => true
  | .unwrapKwp => true
  | .clear => true
  | .encinitBadalg alg => !isModeAlg alg
  | .decinitBadalg alg => !isModeAlg alg
  | .wrapBadalg alg => !isWrapAlg alg
  | .unwrapBadalg alg => !isWrapAlg alg
  | .illegal w => isIllegalWord w

end Sys2Proof
end

