-- ==== Sys2Proof/Decode.lean ====
section
/-! DEFINITION. The decoder of 30_encoding.md rule R75, total on every command word, and the encoder of the same table. -/

namespace Sys2Proof

/-- OP, bits 3:0 of a command word (30_encoding.md R70). -/
def opField (w : Word) : BitVec 4 := w.extractLsb' 0 4

/-- ALG, bits 7:4 of a command word (30_encoding.md R70). -/
def algField (w : Word) : BitVec 4 := w.extractLsb' 4 4

/-- RSV, bits 31:8 of a command word (30_encoding.md R70). -/
def rsvField (w : Word) : BitVec 24 := w.extractLsb' 8 24

/-- A command with no selector: ALG must be 0 (30_encoding.md R75). -/
def decodePlain (w : Word) (i : Instr) : Instr := if algField w = 0x0 then i else .illegal w

/-- A command whose ALG selects one of two rows, or the row of the bad selectors. -/
def decodeSelected (alg first second : BitVec 4) (i j : Instr) (bad : BitVec 4 → Instr) : Instr :=
  if alg = first then i else if alg = second then j else bad alg

/-- `Decode(w)` of 30_encoding.md R75. Every word has an instruction: a word that is no command is ILLEGAL (R76), which is
how the block rejects it by name. -/
def decode (w : Word) : Instr :=
  if rsvField w ≠ 0 then .illegal w
  else
    match (opField w).toNat with
    | 0x1 => decodeSelected (algField w) 0x0 0x1 .encinitEcb .encinitCbc .encinitBadalg
    | 0x2 => decodeSelected (algField w) 0x0 0x1 .decinitEcb .decinitCbc .decinitBadalg
    | 0x3 => decodePlain w .encupd
    | 0x4 => decodePlain w .decupd
    | 0x5 => decodePlain w .encfin
    | 0x6 => decodePlain w .decfin
    | 0x7 => decodeSelected (algField w) 0x2 0x3 .wrapKw .wrapKwp .wrapBadalg
    | 0x8 => decodeSelected (algField w) 0x2 0x3 .unwrapKw .unwrapKwp .unwrapBadalg
    | 0x9 => decodePlain w .clear
    | _ => .illegal w

/-- Why a byte string is no command word. -/
inductive DecodeError where
  /-- It is not exactly four bytes: every command is one 32-bit word (30_encoding.md R71). -/
  | notOneWord (length : Nat)
deriving DecidableEq, Repr

/-- The word four bytes carry in the little-endian lanes of 20_memory.md R55. -/
def wordOfLanes (b0 b1 b2 b3 : Byte) : Word := b3 ++ b2 ++ b1 ++ b0

/-- The instruction of a command word given as the bytes that carry it, lane 0 first. Total; a byte string of another
length is rejected by name (30_encoding.md R71). -/
def decodeBytes : Bytes → Except DecodeError Instr
  | [b0, b1, b2, b3] => .ok (decode (wordOfLanes b0 b1 b2 b3))
  | bs => .error (.notOneWord bs.length)

/-- A command word from its fields (30_encoding.md R70), RSV = 0. -/
def commandWord (op alg : BitVec 4) : Word := 0x000000#24 ++ alg ++ op

/-- The word of an instruction (30_encoding.md R72, R73, R77). -/
def encode : Instr → Word
  | .encinitEcb => commandWord 0x1 0x0
  | .encinitCbc => commandWord 0x1 0x1
  | .decinitEcb => commandWord 0x2 0x0
  | .decinitCbc => commandWord 0x2 0x1
  | .encupd => commandWord 0x3 0x0
  | .decupd => commandWord 0x4 0x0
  | .encfin => commandWord 0x5 0x0
  | .decfin => commandWord 0x6 0x0
  | .wrapKw => commandWord 0x7 0x2
  | .wrapKwp => commandWord 0x7 0x3
  | .unwrapKw => commandWord 0x8 0x2
  | .unwrapKwp => commandWord 0x8 0x3
  | .clear => commandWord 0x9 0x0
  | .encinitBadalg alg => commandWord 0x1 alg
  | .decinitBadalg alg => commandWord 0x2 alg
  | .wrapBadalg alg => commandWord 0x7 alg
  | .unwrapBadalg alg => commandWord 0x8 alg
  | .illegal w => w

/-- The word of a table entry: its lowest `nbits` bits, every bit above them 0. -/
def tableWord (nbits w : Nat) : Word := BitVec.ofNat 32 (w % 2 ^ nbits)

/-- The bytes of a word as the bus carries them, lane 0 first (20_memory.md R55). -/
def lanesOfWord (w : Word) : Bytes :=
  [w.extractLsb' 0 8, w.extractLsb' 8 8, w.extractLsb' 16 8, w.extractLsb' 24 8]

/-- The instruction the decoder reads from an instruction of the opcode table whose bits are `w`. -/
def decodeTableWord (nbits w : Nat) : Option Instr :=
  (decodeBytes (lanesOfWord (tableWord nbits w))).toOption

end Sys2Proof
end

