-- ==== Sys2Proof/Config.lean ====
section
/-! DEFINITION. What an implementation fixes (00_scope.md rule R8) and the values the spec leaves open. The parameters are
plain data, a field of State that no step writes, so that a statement over all states is a statement over all
implementations; the free values are opaque constants. -/

namespace Sys2Proof

/-- The block primitive of 40_primitive_and_key.md R90: the reference instantiation, FIPS-197 AES, or the `n`-th
uninterpreted pair of functions of which only R91 is known (assumption log 2 and 3). -/
inductive Primitive where
  | fips197
  | uninterpreted (n : Nat)
deriving DecidableEq, Repr

/-- The parameters of 00_scope.md R8 that the source leaves open. -/
structure Params where
  /-- `BASE`: the host address of the window (20_memory.md R50). -/
  base : Nat
  /-- `IBUF_SIZE`: the capacity of the IN window in bytes. -/
  ibufSize : Nat
  /-- `AES_Enc` and `AES_Dec`. -/
  prim : Primitive
deriving DecidableEq, Repr

/-- `OBUF_SIZE = IBUF_SIZE + 16` (00_scope.md R8). -/
def Params.obufSize (p : Params) : Nat := p.ibufSize + 16

/-- The constraints 00_scope.md R8 sets on the parameters. -/
abbrev Params.ok (p : Params) : Prop :=
  p.base % 0x40000 = 0 ∧ p.ibufSize % 16 = 0 ∧ 32 ≤ p.ibufSize ∧ p.ibufSize ≤ 65520

/-- The values the model starts from: the reference IBUF_SIZE and the reference primitive (00_scope.md R8);
BASE = 0 is a DESIGN CHOICE, unsafe (assumption log 1). -/
def Params.reference : Params := { base := 0, ibufSize := 4096, prim := .fips197 }

/-- The uninterpreted primitives: for each key string a permutation of the 16-byte blocks. A permutation is a function with
its inverse, which is all that 40_primitive_and_key.md R91 says of `AES_Enc` and `AES_Dec` (assumption log 3). -/
opaque Config.primitive : Nat → Bytes → Equiv.Perm Block

/-- FREE VALUE: what a read of OUTLEN or OUT returns while BUSY = 1 (70_reset_and_hazards.md R262); one value for each
value of the model's counter `freeCount` (assumption log 7). -/
opaque Config.busyRead : Nat → Word

/-- FREE VALUE: how many reads of STATUS a `POLL` makes before the command it waits for completes, LATENCY as the host sees it
(46_control.md R201, 70_reset_and_hazards.md R263); one value for each value of the model's counter `freeCount` (assumption
log 5). -/
opaque Config.pollReads : Nat → Nat

end Sys2Proof
end

