-- ==== Sys2Proof/Machine/Bytes.lean ====
section
/-! DEFINITION. Byte-string operations of 00_scope.md rules R11 and R12: substrings, exclusive-or, big-endian conversions,
and the cutting of byte strings into blocks and key-wrap registers. -/

namespace Sys2Proof

/-- `b[0 ..< n]`, zero bytes taking the place of missing ones: a string of exactly `n` bytes. On strings of at least `n`
bytes, the only ones the commands use it on, it is the substring. -/
def fitBytes (n : Nat) (b : Bytes) : BytesN n :=
  ⟨(b ++ List.replicate n 0).take n, by simp⟩

/-- `X xor Y` on strings of equal length (00_scope.md R11). -/
def bxor {n : Nat} (x y : BytesN n) : BytesN n :=
  ⟨List.zipWith (· ^^^ ·) x.1 y.1, by simp [x.2, y.2]⟩

/-- The big-endian string of `n` bytes whose value is `v` mod 256^n. -/
def bigEndian : Nat → Nat → Bytes
  | 0, _ => []
  | n + 1, v => BitVec.ofNat 8 (v / 256 ^ n) :: bigEndian n v

theorem bigEndian_length (n v : Nat) : (bigEndian n v).length = n := by
  induction n with
  | zero => rfl
  | succ n ih => simp [bigEndian, ih]

/-- `BE64(v)` (00_scope.md R12). -/
def be64 (v : Nat) : Semi := ⟨bigEndian 8 v, bigEndian_length 8 v⟩

/-- `BE32(v)` (00_scope.md R12). -/
def be32 (v : Nat) : BytesN 4 := ⟨bigEndian 4 v, bigEndian_length 4 v⟩

/-- `BEval(S)`: the unsigned big-endian value of a string (00_scope.md R12). -/
def beVal (b : Bytes) : Nat := b.foldl (fun acc x => acc * 256 + x.toNat) 0

/-- `A || R` for two semi-blocks: the 16-byte block the key wrap hands to the primitive. -/
def joinSemis (a r : Semi) : Block := ⟨a.1 ++ r.1, by simp [a.2, r.2]⟩

/-- `high8(B)`: the first 8 bytes of a block (00_scope.md R12). -/
def high8 (b : Block) : Semi := ⟨b.1.take 8, by simp [b.2]⟩

/-- `low8(B)`: the last 8 bytes of a block (00_scope.md R12). -/
def low8 (b : Block) : Semi := ⟨b.1.drop 8, by simp [b.2]⟩

/-- `high32(A)` of a semi-block (00_scope.md R12). -/
def high32 (a : Semi) : Nat := beVal (a.1.take 4)

/-- `low32(A)` of a semi-block (00_scope.md R12). -/
def low32 (a : Semi) : Nat := beVal (a.1.drop 4)

/-- The first `n` pieces of `k` bytes of a string, in index order. -/
def pieces (k : Nat) : Nat → Bytes → List (BytesN k)
  | 0, _ => []
  | n + 1, b => fitBytes k b :: pieces k n (b.drop k)

/-- The concatenation of pieces. -/
def joinPieces {k : Nat} (l : List (BytesN k)) : Bytes := (l.map (·.1)).flatten

end Sys2Proof
end

