-- ==== Sys2Proof/Machine/Aes.lean ====
section
/-! DEFINITION. The block primitive `AES_Enc`, `AES_Dec` of 40_primitive_and_key.md rule R90. The reference instantiation
is the cipher and inverse cipher of FIPS-197, with input byte 0 the first byte of the FIPS-197 input array. Its text is
PRESUMED: the spec names FIPS-197 and does not print it (93_implementation_defined.md part 2, assumption log 2). -/

namespace Sys2Proof

/-- The S-box, one literal a row: the 16 bytes of row `x` stand in the literal from the most significant byte on. -/
def Aes.sboxRows : List Nat :=
  [0x637c777bf26b6fc53001672bfed7ab76, 0xca82c97dfa5947f0add4a2af9ca472c0,
   0xb7fd9326363ff7cc34a5e5f171d83115, 0x04c723c31896059a071280e2eb27b275,
   0x09832c1a1b6e5aa0523bd6b329e32f84, 0x53d100ed20fcb15b6acbbe394a4c58cf,
   0xd0efaafb434d338545f9027f503c9fa8, 0x51a3408f929d38f5bcb6da2110fff3d2,
   0xcd0c13ec5f974417c4a77e3d645d1973, 0x60814fdc222a908846eeb814de5e0bdb,
   0xe0323a0a4906245cc2d3ac629195e479, 0xe7c8376d8dd54ea96c56f4ea657aae08,
   0xba78252e1ca6b4c6e8dd741f4bbd8b8a, 0x703eb5664803f60e613557b986c11d9e,
   0xe1f8981169d98e949b1e87e9ce5528df, 0x8ca1890dbfe6426841992d0fb054bb16]

/-- The inverse S-box, in the same layout. -/
def Aes.invSboxRows : List Nat :=
  [0x52096ad53036a538bf40a39e81f3d7fb, 0x7ce339829b2fff87348e4344c4dee9cb,
   0x547b9432a6c2233dee4c950b42fac34e, 0x082ea16628d924b2765ba2496d8bd125,
   0x72f8f66486689816d4a45ccc5d65b692, 0x6c704850fdedb9da5e154657a78d9d84,
   0x90d8ab008cbcd30af7e45805b8b34506, 0xd02c1e8fca3f0f02c1afbd0301138a6b,
   0x3a9111414f67dcea97f2cfcef0b4e673, 0x96ac7422e7ad3585e2f937e81c75df6e,
   0x47f11a711d29c5896fb7620eaa18be1b, 0xfc563e4bc6d279209adbc0fe78cd5af4,
   0x1fdda8338807c731b11210592780ec5f, 0x60517fa919b54a0d2de57a9f93c99cef,
   0xa0e03b4dae2af5b0c8ebbb3c83539961, 0x172b047eba77d626e169146355210c7d]

/-- The table entry of a byte: its high four bits choose the row, its low four bits the column. -/
def Aes.lookup (rows : List Nat) (x : Byte) : Byte :=
  BitVec.ofNat 8 (rows.getD (x.toNat / 16) 0 / 256 ^ (15 - x.toNat % 16))

/-- SubBytes on one byte. -/
def Aes.subByte (x : Byte) : Byte := Aes.lookup Aes.sboxRows x

/-- InvSubBytes on one byte. -/
def Aes.invSubByte (x : Byte) : Byte := Aes.lookup Aes.invSboxRows x

/-- SubBytes. -/
def Aes.subBytes (s : Block) : Block := ⟨s.1.map Aes.subByte, by simp [s.2]⟩

/-- InvSubBytes. -/
def Aes.invSubBytes (s : Block) : Block := ⟨s.1.map Aes.invSubByte, by simp [s.2]⟩

/-- ShiftRows: byte `r + 4c` of the result is byte `r + 4((c + r) mod 4)`. -/
def Aes.shiftRows (s : Block) : Block :=
  fitBytes 16 ([0, 5, 10, 15, 4, 9, 14, 3, 8, 13, 2, 7, 12, 1, 6, 11].map (s.1.getD · 0))

/-- InvShiftRows: byte `r + 4c` of the result is byte `r + 4((c - r) mod 4)`. -/
def Aes.invShiftRows (s : Block) : Block :=
  fitBytes 16 ([0, 13, 10, 7, 4, 1, 14, 11, 8, 5, 2, 15, 12, 9, 6, 3].map (s.1.getD · 0))

/-- Multiplication by x in GF(2^8) modulo x^8 + x^4 + x^3 + x + 1. -/
def Aes.xtime (a : Byte) : Byte := (a <<< 1) ^^^ (if a.msb then 0x1b#8 else 0x00#8)

/-- One column of MixColumns: the matrix of 02, 03, 01, 01. -/
def Aes.mixColumn (a b c d : Byte) : Bytes :=
  [Aes.xtime a ^^^ (Aes.xtime b ^^^ b) ^^^ c ^^^ d,
   a ^^^ Aes.xtime b ^^^ (Aes.xtime c ^^^ c) ^^^ d,
   a ^^^ b ^^^ Aes.xtime c ^^^ (Aes.xtime d ^^^ d),
   (Aes.xtime a ^^^ a) ^^^ b ^^^ c ^^^ Aes.xtime d]

/-- Multiplication by 09. -/
def Aes.mul09 (a : Byte) : Byte := Aes.xtime (Aes.xtime (Aes.xtime a)) ^^^ a

/-- Multiplication by 0b. -/
def Aes.mul0b (a : Byte) : Byte := Aes.xtime (Aes.xtime (Aes.xtime a)) ^^^ Aes.xtime a ^^^ a

/-- Multiplication by 0d. -/
def Aes.mul0d (a : Byte) : Byte := Aes.xtime (Aes.xtime (Aes.xtime a)) ^^^ Aes.xtime (Aes.xtime a) ^^^ a

/-- Multiplication by 0e. -/
def Aes.mul0e (a : Byte) : Byte := Aes.xtime (Aes.xtime (Aes.xtime a)) ^^^ Aes.xtime (Aes.xtime a) ^^^ Aes.xtime a

/-- One column of InvMixColumns: the matrix of 0e, 0b, 0d, 09. -/
def Aes.invMixColumn (a b c d : Byte) : Bytes :=
  [Aes.mul0e a ^^^ Aes.mul0b b ^^^ Aes.mul0d c ^^^ Aes.mul09 d,
   Aes.mul09 a ^^^ Aes.mul0e b ^^^ Aes.mul0b c ^^^ Aes.mul0d d,
   Aes.mul0d a ^^^ Aes.mul09 b ^^^ Aes.mul0e c ^^^ Aes.mul0b d,
   Aes.mul0b a ^^^ Aes.mul0d b ^^^ Aes.mul09 c ^^^ Aes.mul0e d]

/-- A column function on every four bytes of a string. -/
def Aes.onColumns (f : Byte → Byte → Byte → Byte → Bytes) : Bytes → Bytes
  | a :: b :: c :: d :: rest => f a b c d ++ Aes.onColumns f rest
  | _ => []

/-- MixColumns. -/
def Aes.mixColumns (s : Block) : Block := fitBytes 16 (Aes.onColumns Aes.mixColumn s.1)

/-- InvMixColumns. -/
def Aes.invMixColumns (s : Block) : Block := fitBytes 16 (Aes.onColumns Aes.invMixColumn s.1)

/-- Nk: the key's length in 4-byte words. -/
def Aes.keyWords (k : Bytes) : Nat := k.length / 4

/-- Nr: the number of rounds, Nk + 6. -/
def Aes.rounds (k : Bytes) : Nat := Aes.keyWords k + 6

/-- One step of KeyExpansion: word `i` from word `i - 1` and word `i - Nk`, with the round constant in force. -/
def Aes.nextWord (nk i : Nat) (rcon : Byte) (prev back : Bytes) : Bytes :=
  let temp :=
    if i % nk = 0 then List.zipWith (· ^^^ ·) ((prev.rotateLeft 1).map Aes.subByte) [rcon, 0, 0, 0]
    else if 6 < nk ∧ i % nk = 4 then prev.map Aes.subByte
    else prev
  List.zipWith (· ^^^ ·) back temp

/-- `n` further words of KeyExpansion, from word `i` on; `recent` holds the last Nk words, newest first. -/
def Aes.expandFrom (nk : Nat) : Nat → Nat → Byte → List Bytes → Bytes
  | 0, _, _, _ => []
  | n + 1, i, rcon, recent =>
    let w := Aes.nextWord nk i rcon (recent.headD []) (recent.getLastD [])
    let rcon' := if i % nk = 0 then Aes.xtime rcon else rcon
    w ++ Aes.expandFrom nk n (i + 1) rcon' (w :: recent.dropLast)

/-- KeyExpansion: the key followed by the derived words, 4(Nr + 1) words in all. -/
def Aes.expandKey (k : Bytes) : Bytes :=
  let nk := Aes.keyWords k
  k ++ Aes.expandFrom nk (4 * (Aes.rounds k + 1) - nk) nk 0x01 ((pieces 4 nk k).map (·.1)).reverse

/-- The Nr + 1 round keys of a key. -/
def Aes.roundKeys (k : Bytes) : List Block := pieces 16 (Aes.rounds k + 1) (Aes.expandKey k)

/-- A full round: SubBytes, ShiftRows, MixColumns, AddRoundKey. -/
def Aes.round (s rk : Block) : Block := bxor (Aes.mixColumns (Aes.shiftRows (Aes.subBytes s))) rk

/-- The inverse of a full round. -/
def Aes.invRound (s rk : Block) : Block := Aes.invSubBytes (Aes.invShiftRows (Aes.invMixColumns (bxor s rk)))

/-- The last round has no MixColumns. -/
def Aes.lastRound (s rk : Block) : Block := bxor (Aes.shiftRows (Aes.subBytes s)) rk

/-- The inverse of the last round. -/
def Aes.invLastRound (s rk : Block) : Block := Aes.invSubBytes (Aes.invShiftRows (bxor s rk))

/-- The rounds after the first AddRoundKey, under the remaining round keys. -/
def Aes.encRounds : Block → List Block → Block
  | s, [] => s
  | s, [rk] => Aes.lastRound s rk
  | s, rk :: rks => Aes.encRounds (Aes.round s rk) rks

/-- The inverse of `Aes.encRounds` under the same round keys. -/
def Aes.decRounds : Block → List Block → Block
  | s, [] => s
  | s, [rk] => Aes.invLastRound s rk
  | s, rk :: rks => Aes.invRound (Aes.decRounds s rks) rk

/-- The FIPS-197 cipher. -/
def Aes.cipher (k : Bytes) (p : Block) : Block :=
  match Aes.roundKeys k with
  | [] => p
  | rk :: rks => Aes.encRounds (bxor p rk) rks

/-- The FIPS-197 inverse cipher. -/
def Aes.invCipher (k : Bytes) (c : Block) : Block :=
  match Aes.roundKeys k with
  | [] => c
  | rk :: rks => bxor (Aes.decRounds c rks) rk

/-- `AES_Enc(K, P)` (40_primitive_and_key.md R90). -/
def aesEnc (prim : Primitive) (k : Bytes) (p : Block) : Block :=
  match prim with
  | .fips197 => Aes.cipher k p
  | .uninterpreted n => Config.primitive n k p

/-- `AES_Dec(K, C)` (40_primitive_and_key.md R90). -/
def aesDec (prim : Primitive) (k : Bytes) (c : Block) : Block :=
  match prim with
  | .fips197 => Aes.invCipher k c
  | .uninterpreted n => (Config.primitive n k).symm c

end Sys2Proof
end

