-- ==== Sys2Proof/Machine/State.lean ====
section
/-! DEFINITION. The state of the block as plain data (10_state.md), the reasons a step can stop, and the state after reset
(10_state.md rule R37, 70_reset_and_hazards.md rule R250). -/

namespace Sys2Proof.Machine

open Sys2Proof

/-- Why a step stops with a fault. A failing command is no fault: it completes with an error code (46_control.md R208). -/
inductive Fault where
  /-- `HostBusError(offset, width)`: raised by the bus for a host access whose width or alignment 20_memory.md R53 or R54
  forbids (R56). It is the only fault (60_exceptions.md R223). Safe: the spec stops there too. -/
  | hostBusError (offset width : Nat)
deriving DecidableEq, Repr

/-- Why a step is refused. -/
inductive Refusal where
  /-- Raised by an arm of `exec` whose instruction has no meaning yet; no arm raises it. Safe. -/
  | notModelled (mnemonic : String)
deriving DecidableEq, Repr

/-- The error codes of 60_exceptions.md R220. -/
inductive ErrCode where
  | ok
  | invalidKeyLength
  | invalidMode
  | invalidIVLength
  | invalidState
  | invalidKeyDataLength
  | invalidWrappedLength
  | integrityCheckFailed
  | paddingError
  | invalidCiphertextLength
  | noDataProcessed
  | inputTooLong
  | illegalCommand
deriving DecidableEq, Repr

/-- The session states of 10_state.md R30. -/
inductive SessState where
  | idle
  | ready
  | finalized
deriving DecidableEq, Repr

/-- The direction fixed at INIT (10_state.md R30). -/
inductive Dir where
  | encrypt
  | decrypt
deriving DecidableEq, Repr

/-- The mode fixed at INIT (10_state.md R30). -/
inductive Mode where
  | ecb
  | cbc
deriving DecidableEq, Repr

/-- The session of 10_state.md R30. -/
structure Session where
  /-- `sess.STATE` -/
  st : SessState
  /-- `sess.DIR` -/
  dir : Dir
  /-- `sess.MODE` -/
  mode : Mode
  /-- `sess.KEY`: length 0, 16, 24 or 32 in every reachable state -/
  key : Bytes
  /-- `sess.CB` -/
  cb : Block
  /-- `sess.PEND`: length 0 to 31 in every reachable state -/
  pend : Bytes
deriving DecidableEq, Repr

/-- The session after reset (10_state.md R37). -/
def Session.reset : Session :=
  { st := .idle, dir := .encrypt, mode := .ecb, key := [], cb := zeros 16, pend := [] }

/-- The temporaries of the key-wrap unit (10_state.md R33). `r` holds R[1], R[2], ... ; a register beyond the list is zero
(assumption log 12). -/
structure KeyWrapTemps where
  a : Semi
  b : Block
  r : List Semi
deriving DecidableEq, Repr

/-- All temporaries zero: their value after reset and at every command boundary (10_state.md R33, R37). -/
def KeyWrapTemps.zero : KeyWrapTemps := { a := zeros 8, b := zeros 16, r := [] }

/-- The widths of a host access, 1, 2 and 4 bytes (20_memory.md R55). -/
inductive Width where
  | byte
  | half
  | word
deriving DecidableEq, Repr

/-- What reaches the block, or the engine's turn to move. A list of these is the one total order of 20_memory.md R61, with
the completion steps of 46_control.md R201 in it (assumption log 4). -/
inductive Event where
  /-- `MemWrite(addr, n, v)` (00_scope.md R13) -/
  | write (addr : Nat) (width : Width) (data : Word)
  /-- `MemRead(addr, n)` -/
  | read (addr : Nat) (width : Width)
  /-- `POLL`: STATUS is read until BUSY = 0 (30_encoding.md R78) -/
  | poll
  /-- `RDOUT`: OUTLEN is read, then that many bytes of OUT (30_encoding.md R79) -/
  | readOut
  /-- The engine's turn: a running command completes now (46_control.md R208) -/
  | engine
  /-- The platform asserts and releases reset (70_reset_and_hazards.md R250) -/
  | reset
deriving DecidableEq, Repr

/-- The byte windows as (window offset, byte) cells, offsets rising, no cell equal to what an unlisted byte reads as. -/
abbrev Memory := List Host.Cell

/-- What an unlisted byte reads as: its value after reset (10_state.md R37). -/
def Memory.unlisted : Byte := 0x00

/-- The canonical form. -/
abbrev Memory.wf (m : Memory) : Prop :=
  (m.map (·.1)).Pairwise (· < ·) ∧ ∀ c ∈ m, c.2 ≠ Memory.unlisted

/-- The state of the block. `cfg`, `arrivals`, `replies` and `freeCount` are the model's own fields; every other one is named
by 10_state.md. -/
structure State where
  /-- The implementation's parameters (00_scope.md R8); no step writes them (assumption log 1). -/
  cfg : Params
  /-- CMD: the last accepted command word (10_state.md R23). -/
  cmd : Word
  /-- STATUS.BUSY (10_state.md R24). -/
  busy : Bool
  /-- STATUS.BUSYWR (10_state.md R24). -/
  busywr : Bool
  /-- STATUS.ERR (10_state.md R24). -/
  err : ErrCode
  /-- INLEN (10_state.md R25). -/
  inlen : Word
  /-- OUTLEN (10_state.md R26). -/
  outlen : Word
  /-- KEYCFG (10_state.md R27). -/
  keycfg : Word
  /-- IVCFG (10_state.md R28). -/
  ivcfg : Word
  /-- The KEY, IV, IN and OUT windows (10_state.md R32). -/
  mem : Memory
  /-- The session (10_state.md R30). -/
  sess : Session
  /-- The key-wrap temporaries (10_state.md R33). -/
  kw : KeyWrapTemps
  /-- What is still to reach the block, first to come first (assumption log 4). -/
  arrivals : List Event
  /-- The read data the block has returned, newest first (assumption log 11). -/
  replies : List Word
  /-- Picks the next free value: of a read while busy (assumption log 7), of a poll's length (assumption log 5). -/
  freeCount : Nat
deriving DecidableEq, Repr

/-- The block after reset, for given parameters: the column "after reset" of 10_state.md R37. -/
def State.resetFor (p : Params) : State :=
  { cfg := p
    cmd := 0x00000000
    busy := false
    busywr := false
    err := .ok
    inlen := 0
    outlen := 0
    keycfg := 0x00000000
    ivcfg := 0x00000000
    mem := []
    sess := Session.reset
    kw := KeyWrapTemps.zero
    arrivals := []
    replies := []
    freeCount := 0 }

/-- The machine right after reset, with the reference parameters and nothing on its way to the block. -/
def State.reset : State := State.resetFor Params.reference

end Sys2Proof.Machine
end

