-- ==== Sys2Proof/Machine/Ops.lean ====
section
/-! DEFINITION. The named operations over the windows, the session and the sequencer that the commands share: memory reads
and writes, the wipes (10_state.md R36), padding (40_primitive_and_key.md R92, R93), the single-block steps (R94, R95),
the beginning of a command (46_control.md R204), its success completion (R203) and its error completion
(60_exceptions.md R224), which is all this block has of taking an exception; there is no return from one (R227, R233). -/

namespace Sys2Proof.Machine

open Sys2Proof Host

/-! ## Memory -/

/-- One byte of the windows, at a window offset. -/
def Memory.read (m : Memory) (off : Nat) : Byte := (m.lookup off).getD Memory.unlisted

/-- The `n` bytes from a window offset on. -/
def Memory.readRange (m : Memory) (off n : Nat) : Bytes := (List.range n).map (fun k => Memory.read m (off + k))

/-- The cells of a byte string stored from an offset on; a byte equal to what an unlisted one reads as takes no cell. -/
def cellsOf (off : Nat) : Bytes → Memory
  | [] => []
  | b :: bs => if b = Memory.unlisted then cellsOf (off + 1) bs else (off, b) :: cellsOf (off + 1) bs

/-- Stores a byte string from an offset on. -/
def Memory.write (m : Memory) (off : Nat) (bs : Bytes) : Memory :=
  m.filter (fun c => decide (c.1 < off)) ++ cellsOf off bs ++ m.filter (fun c => decide (off + bs.length ≤ c.1))

/-- Makes `n` bytes from an offset on read as after reset. -/
def Memory.erase (m : Memory) (off n : Nat) : Memory :=
  m.filter (fun c => decide (c.1 < off) || decide (off + n ≤ c.1))

/-- Offset of the KEY window (20_memory.md R51). -/
def keyBase : Nat := 0x00100

/-- Size of the KEY window (10_state.md R32). -/
def keySize : Nat := 32

/-- Offset of the IV window (20_memory.md R51). -/
def ivBase : Nat := 0x00120

/-- Size of the IV window (10_state.md R32). -/
def ivSize : Nat := 16

/-- Offset of the IN window (20_memory.md R51). -/
def inBase : Nat := 0x10000

/-- Offset of the OUT window (20_memory.md R51). -/
def outBase : Nat := 0x20000

/-- `KEYW[0 ..< n]` (10_state.md R32). -/
def keyWindow (s : State) (n : Nat) : Bytes := Memory.readRange s.mem keyBase n

/-- `IVW[0 ..< 16]` (10_state.md R32). -/
def ivWindow (s : State) : Block := fitBytes 16 (Memory.readRange s.mem ivBase ivSize)

/-- `IN[0 ..< n]` (10_state.md R32). -/
def inWindow (s : State) (n : Nat) : Bytes := Memory.readRange s.mem inBase n

/-- `OUT[0 ..< OUTLEN]`: the valid output (10_state.md R26). -/
def outBytes (s : State) : Bytes := Memory.readRange s.mem outBase s.outlen.toNat

/-! ## Wiping (10_state.md R36) -/

/-- The fields `WipeSession()` leaves: only `sess.STATE` survives. -/
def Session.wiped (x : Session) : Session := { Session.reset with st := x.st }

/-- `WipeSession()`. -/
def wipeSession (s : State) : State := { s with sess := Session.wiped s.sess }

/-- `WipeWrap()`. -/
def wipeWrap (s : State) : State := { s with kw := KeyWrapTemps.zero }

/-- Sets `sess.STATE`. -/
def setSessState (x : SessState) (s : State) : State := { s with sess := { s.sess with st := x } }

/-! ## The command sequencer -/

/-- The command classes of 46_control.md R202. -/
inductive CmdClass where
  | modeEngine
  | keyWrap
  | control
deriving DecidableEq, Repr

/-- What every accepted command does first: OUT and OUTLEN become zero (46_control.md R204). -/
def beginCommand (s : State) : State :=
  { s with mem := Memory.erase s.mem outBase s.cfg.obufSize, outlen := 0 }

/-- `Complete(out)` with the completion step (46_control.md R203, R201). -/
def complete (out : Bytes) (s : State) : State :=
  { s with
    mem := Memory.write s.mem outBase out
    outlen := BitVec.ofNat 32 out.length
    err := .ok
    busy := false }

/-- What an error does to the session and the temporaries, by the class of the command (60_exceptions.md R224, R225). -/
def errorWipe : CmdClass → State → State
  | .keyWrap, s => wipeWrap s
  | .modeEngine, s => if s.sess.st = .ready then setSessState .finalized (wipeSession s) else s
  | .control, s => s

/-- `FailCommand(e)` with the completion step (60_exceptions.md R224): taking an error, the one operation for all commands.
`s` is the state before the command. -/
def failCommand (cls : CmdClass) (e : ErrCode) (s : State) : State :=
  { errorWipe cls (beginCommand s) with err := e, busy := false }

/-- How a command body ends: a state and an output to complete with, or an error. -/
abbrev BodyResult := Except ErrCode (State × Bytes)

/-- Runs one command body between R204's beginning and R203's or R224's completion (46_control.md R202, R208). -/
def runCommand (cls : CmdClass) (body : State → BodyResult) (s : State) : Outcome State Fault Refusal :=
  match body (beginCommand s) with
  | .ok (t, out) => .next (complete out t)
  | .error e => .next (failCommand cls e s)

/-! ## Padding -/

/-- `Pad(S)` (40_primitive_and_key.md R92), which the spec defines for a string of at most 15 bytes. DESIGN CHOICE, unsafe
only in states no run reaches: of a longer string it is the first 16 bytes, with no padding (assumption log 17). -/
def pad (b : Bytes) : Block :=
  fitBytes 16 (b ++ List.replicate (16 - b.length) (BitVec.ofNat 8 (16 - b.length)))

/-- `Unpad(X)` (40_primitive_and_key.md R93). -/
def unpad (x : Block) : Except ErrCode Bytes :=
  let p := (x.1.getD 15 0).toNat
  if p < 1 ∨ 16 < p then .error .paddingError
  else if x.1.drop (16 - p) = List.replicate p (BitVec.ofNat 8 p) then .ok (x.1.take (16 - p))
  else .error .paddingError

/-! ## Single-block steps -/

/-- `EncBlock(P)` (40_primitive_and_key.md R94): the ciphertext block and the session after it. -/
def encBlock (prim : Primitive) (x : Session) (p : Block) : Block × Session :=
  match x.mode with
  | .cbc =>
    let c := aesEnc prim x.key (bxor p x.cb)
    (c, { x with cb := c })
  | .ecb => (aesEnc prim x.key p, x)

/-- `DecBlock(C)` (40_primitive_and_key.md R95): the plaintext block and the session after it. -/
def decBlock (prim : Primitive) (x : Session) (c : Block) : Block × Session :=
  match x.mode with
  | .cbc => (bxor (aesDec prim x.key c) x.cb, { x with cb := c })
  | .ecb => (aesDec prim x.key c, x)

/-- A single-block step on every block of a list, in order: the output bytes and the session after the last block. -/
def overBlocks (step : Session → Block → Block × Session) : Session → List Block → Bytes × Session
  | x, [] => ([], x)
  | x, b :: bs =>
    let (o, x') := step x b
    let (os, x'') := overBlocks step x' bs
    (o.1 ++ os, x'')

/-! ## Streaming -/

/-- The loop of ENCUPD (42_mode_update.md R120): every complete block of the buffer is encrypted. -/
def encStream (prim : Primitive) (x : Session) (input : Bytes) : Bytes × Session :=
  let buf := x.pend ++ input
  let n := buf.length / 16
  let (out, x') := overBlocks (encBlock prim) x (pieces 16 n buf)
  (out, { x' with pend := buf.drop (16 * n) })

/-- The loop of DECUPD (42_mode_update.md R121): every complete block of the buffer but the last one is decrypted. -/
def decStream (prim : Primitive) (x : Session) (input : Bytes) : Bytes × Session :=
  let buf := x.pend ++ input
  let n := buf.length / 16 - 1
  let (out, x') := overBlocks (decBlock prim) x (pieces 16 n buf)
  (out, { x' with pend := buf.drop (16 * n) })

/-! ## The key-wrap register loops -/

/-- One pass of `W3394` over R[1..n] for one `j` (44_keywrap_rfc3394.md R160): `t` is the counter `n*j + i` of the first
register of the list, `a` and `b` are A and B before it. -/
def wrapPass (prim : Primitive) (k : Bytes) : Nat → Semi → Block → List Semi → KeyWrapTemps
  | _, a, b, [] => { a := a, b := b, r := [] }
  | t, a, _, r :: rs =>
    let b' := aesEnc prim k (joinSemis a r)
    let w := wrapPass prim k (t + 1) (bxor (high8 b') (be64 t)) b' rs
    { w with r := low8 b' :: w.r }

/-- One pass of `U3394` over R[n..1] for one `j` (44_keywrap_rfc3394.md R162): the last register of the list comes first. -/
def unwrapPass (prim : Primitive) (k : Bytes) : Nat → Semi → Block → List Semi → KeyWrapTemps
  | _, a, b, [] => { a := a, b := b, r := [] }
  | t, a, b, r :: rs =>
    let w := unwrapPass prim k (t + 1) a b rs
    let b' := aesDec prim k (joinSemis (bxor w.a (be64 t)) r)
    { a := high8 b', b := b', r := low8 b' :: w.r }

/-- The loop of `W3394` (44_keywrap_rfc3394.md R160) over the temporaries: j from 0 to 5. -/
def w3394 (prim : Primitive) (k : Bytes) (w : KeyWrapTemps) : KeyWrapTemps :=
  (List.range 6).foldl (fun w j => wrapPass prim k (w.r.length * j + 1) w.a w.b w.r) w

/-- The loop of `U3394` (44_keywrap_rfc3394.md R162) over the temporaries: j from 5 down to 0. -/
def u3394 (prim : Primitive) (k : Bytes) (w : KeyWrapTemps) : KeyWrapTemps :=
  (List.range 6).reverse.foldl (fun w j => unwrapPass prim k (w.r.length * j + 1) w.a w.b w.r) w

/-- `A || R[1] || ... || R[n]`, what `W3394` returns. -/
def KeyWrapTemps.output (w : KeyWrapTemps) : Bytes := w.a.1 ++ joinPieces w.r

end Sys2Proof.Machine
end

