-- ==== Sys2Proof/Machine/Operands.lean ====
section
/-! DEFINITION. The assembly of a command's operands from the registers and windows (30_encoding.md rule R74), with the
checks that go with it: the key check (40_primitive_and_key.md R96, R97), the IV check (41_mode_init.md R112) and the
input bound (42_mode_update.md R120, R121). The live registers and windows are read: host writes while busy are ignored,
so they equal the snapshot of acceptance (10_state.md R34, assumption log 6). -/

namespace Sys2Proof.Machine

open Sys2Proof

/-- KEYCFG.BITLEN, bits 15:0 (10_state.md R27). -/
def bitLen (s : State) : Nat := (s.keycfg.extractLsb' 0 16).toNat

/-- KEYCFG.KEYBYTES, bits 21:16 (10_state.md R27). -/
def keyBytes (s : State) : Nat := (s.keycfg.extractLsb' 16 6).toNat

/-- IVCFG.IVBYTES, bits 7:0 (10_state.md R28). -/
def ivBytes (s : State) : Nat := (s.ivcfg.extractLsb' 0 8).toNat

/-- The bit length and the byte length of a key fit each other and AES (40_primitive_and_key.md R96). -/
def keyCheckPasses (bitLength keyLen : Nat) : Bool :=
  (bitLength == 128 || bitLength == 192 || bitLength == 256) && keyLen == bitLength / 8

/-- `KeyCheck(bitLength, keyLen)` (40_primitive_and_key.md R96). -/
def keyCheck (bitLength keyLen : Nat) : Except ErrCode Unit :=
  if keyCheckPasses bitLength keyLen then .ok () else .error .invalidKeyLength

/-- The key operand: the check, then `KEYW[0 ..< KEYBYTES]` (40_primitive_and_key.md R97). -/
def keyOperand (s : State) : Except ErrCode Bytes := do
  keyCheck (bitLen s) (keyBytes s)
  return keyWindow s (keyBytes s)

/-- The first chaining block: the IV for CBC, which must have 16 bytes; zero for ECB, which reads neither IVCFG nor IVW
(41_mode_init.md R110, R112). -/
def chainingBlock (mode : Mode) (s : State) : Except ErrCode Block :=
  match mode with
  | .ecb => .ok (zeros 16)
  | .cbc => if ivBytes s = 16 then .ok (ivWindow s) else .error .invalidIVLength

/-- The input operand `IN[0 ..< INLEN]`, which must fit the window (10_state.md R25). -/
def inputOperand (s : State) : Except ErrCode Bytes :=
  if s.cfg.ibufSize < s.inlen.toNat then .error .inputTooLong else .ok (inWindow s s.inlen.toNat)

/-- The state check of INIT: valid only from Idle (41_mode_init.md R110). -/
def requireIdle (s : State) : Except ErrCode Unit :=
  if s.sess.st = .idle then .ok () else .error .invalidState

/-- The state check of UPD and FIN: valid only in a Ready session of the command's direction (42_mode_update.md R120). -/
def requireReady (d : Dir) (s : State) : Except ErrCode Unit :=
  if s.sess.st = .ready ∧ s.sess.dir = d then .ok () else .error .invalidState

/-- `raise e` unless a condition holds (00_scope.md R14). -/
def require (c : Bool) (e : ErrCode) : Except ErrCode Unit := if c then .ok () else .error e

end Sys2Proof.Machine
end

