-- ==== Sys2Proof/Machine/Control.lean ====
section
/-! DEFINITION. Control commands and the words that only fail: CLEAR (46_control.md rule R205), WRAP and UNWRAP with an ALG
that names no algorithm (R202), and ILLEGAL (R206). -/

namespace Sys2Proof.Machine

open Sys2Proof Host

/-- CLEAR's writes (46_control.md R205): session, temporaries, windows, registers, BUSYWR and ERR. The windows are all the
memory there is, so the wiped memory lists nothing. -/
def clearAll (s : State) : State :=
  { setSessState .idle (wipeWrap (wipeSession s)) with
    mem := []
    inlen := 0
    keycfg := 0
    ivcfg := 0
    outlen := 0
    busywr := false
    err := .ok }

/-- CLEAR (46_control.md R205), with the completion step of R201. It succeeds in every session state. -/
def execClear (s : State) : Outcome State Fault Refusal := .next { clearAll (beginCommand s) with busy := false }

/-- A body that fails at once. -/
def raiseBody (e : ErrCode) (_s : State) : BodyResult := .error e

/-- WRAP with an ALG that names no algorithm (46_control.md R202); which ALG makes no difference. -/
def execWrapBadalg (_alg : BitVec 4) (s : State) : Outcome State Fault Refusal :=
  runCommand .keyWrap (raiseBody .invalidMode) s

/-- UNWRAP with an ALG that names no algorithm (46_control.md R202); which ALG makes no difference. -/
def execUnwrapBadalg (_alg : BitVec 4) (s : State) : Outcome State Fault Refusal :=
  runCommand .keyWrap (raiseBody .invalidMode) s

/-- A word that decodes to no command (46_control.md R206); which word makes no difference. -/
def execIllegal (_w : BitVec 32) (s : State) : Outcome State Fault Refusal :=
  runCommand .control (raiseBody .illegalCommand) s

end Sys2Proof.Machine
end

