-- ==== Sys2Proof/Machine/Final.lean ====
section
/-! DEFINITION. Session finalisation: ENCFIN and DECFIN (43_mode_final.md rules R140 to R143). -/

namespace Sys2Proof.Machine

open Sys2Proof Host

/-- `WipeSession(); sess.STATE <- Finalized`, after which a FIN completes with its output (43_mode_final.md R140, R141). -/
def endSession (s : State) : State := setSessState .finalized (wipeSession s)

/-- The body of ENCFIN (43_mode_final.md R140). `sess.PEND` has at most 15 bytes in every reachable state (10_state.md R35).
DESIGN CHOICE: of 16 or more the first 16 would be encrypted, with no padding (assumption log 17). -/
def encFinalBody (s : State) : BodyResult := do
  requireReady .encrypt s
  let (c, _) := encBlock s.cfg.prim s.sess (pad s.sess.pend)
  return (endSession s, c.1)

/-- The body of DECFIN (43_mode_final.md R141). Past the two length checks `sess.PEND` is the one withheld block in every
reachable state (10_state.md R35). DESIGN CHOICE: of a longer one the first 16 bytes would be taken (assumption log 17). -/
def decFinalBody (s : State) : BodyResult := do
  requireReady .decrypt s
  require (s.sess.pend.length % 16 == 0) .invalidCiphertextLength
  require (s.sess.pend.length != 0) .noDataProcessed
  let (x, _) := decBlock s.cfg.prim s.sess (fitBytes 16 s.sess.pend)
  let out ← unpad x
  return (endSession s, out)

/-- ENCFIN (43_mode_final.md R140). -/
def execEncfin (s : State) : Outcome State Fault Refusal := runCommand .modeEngine encFinalBody s

/-- DECFIN (43_mode_final.md R141). -/
def execDecfin (s : State) : Outcome State Fault Refusal := runCommand .modeEngine decFinalBody s

end Sys2Proof.Machine
end

