-- ==== Sys2Proof/Machine/Init.lean ====
section
/-! DEFINITION. Session initialisation: ENCINIT and DECINIT with every ALG (41_mode_init.md rules R110 to R114). -/

namespace Sys2Proof.Machine

open Sys2Proof Host

/-- The body of ENCINIT and DECINIT with ALG ECB or CBC (41_mode_init.md R110, R111): state, key and IV are checked in this
order, then key, mode, direction and chaining block are bound. -/
def initSession (dir : Dir) (mode : Mode) (s : State) : BodyResult := do
  requireIdle s
  let key ← keyOperand s
  let cb ← chainingBlock mode s
  return ({ s with sess := { st := .ready, dir := dir, mode := mode, key := key, cb := cb, pend := [] } }, [])

/-- The body of ENCINIT and DECINIT with any other ALG: the selector is checked after the state and before the key
(41_mode_init.md R110, R111; 60_exceptions.md R230). -/
def initBadMode (s : State) : BodyResult := do
  requireIdle s
  throw .invalidMode

/-- ENCINIT ECB (41_mode_init.md R110). -/
def execEncinitEcb (s : State) : Outcome State Fault Refusal := runCommand .modeEngine (initSession .encrypt .ecb) s

/-- ENCINIT CBC (41_mode_init.md R110). -/
def execEncinitCbc (s : State) : Outcome State Fault Refusal := runCommand .modeEngine (initSession .encrypt .cbc) s

/-- DECINIT ECB (41_mode_init.md R111). -/
def execDecinitEcb (s : State) : Outcome State Fault Refusal := runCommand .modeEngine (initSession .decrypt .ecb) s

/-- DECINIT CBC (41_mode_init.md R111). -/
def execDecinitCbc (s : State) : Outcome State Fault Refusal := runCommand .modeEngine (initSession .decrypt .cbc) s

/-- ENCINIT with an ALG that names no mode (41_mode_init.md R110, 30_encoding.md R76); which ALG makes no difference. -/
def execEncinitBadalg (_alg : BitVec 4) (s : State) : Outcome State Fault Refusal :=
  runCommand .modeEngine initBadMode s

/-- DECINIT with an ALG that names no mode (41_mode_init.md R111, 30_encoding.md R76); which ALG makes no difference. -/
def execDecinitBadalg (_alg : BitVec 4) (s : State) : Outcome State Fault Refusal :=
  runCommand .modeEngine initBadMode s

end Sys2Proof.Machine
end

