-- ==== Sys2Proof/Machine/KeyWrap.lean ====
section
/-! DEFINITION. RFC 3394 key wrap: WRAP.KW and UNWRAP.KW (44_keywrap_rfc3394.md rules R160 to R165). The loops run over the
temporaries that State holds, which are wiped at the command's end (10_state.md R33, R36). -/

namespace Sys2Proof.Machine

open Sys2Proof Host

/-- `KW_IV`: eight bytes A6 (00_scope.md R7). -/
def kwIV : Semi := ⟨List.replicate 8 0xA6, List.length_replicate⟩

/-- Loads A and R[1..n] of the temporaries. -/
def loadWrap (a : Semi) (r : List Semi) (s : State) : State := { s with kw := { s.kw with a := a, r := r } }

/-- Runs `W3394` on the temporaries (44_keywrap_rfc3394.md R160). -/
def runWrap (k : Bytes) (s : State) : State := { s with kw := w3394 s.cfg.prim k s.kw }

/-- Runs `U3394` on the temporaries (44_keywrap_rfc3394.md R162). -/
def runUnwrap (k : Bytes) (s : State) : State := { s with kw := u3394 s.cfg.prim k s.kw }

/-- The body of WRAP.KW (44_keywrap_rfc3394.md R161). -/
def wrapKwBody (s : State) : BodyResult := do
  let k ← keyOperand s
  let input ← inputOperand s
  require (input.length % 8 == 0 && decide (16 ≤ input.length)) .invalidKeyDataLength
  let t := runWrap k (loadWrap kwIV (pieces 8 (input.length / 8) input) s)
  return (wipeWrap t, t.kw.output)

/-- The body of UNWRAP.KW (44_keywrap_rfc3394.md R163). -/
def unwrapKwBody (s : State) : BodyResult := do
  let k ← keyOperand s
  let input ← inputOperand s
  require (input.length % 8 == 0 && decide (24 ≤ input.length)) .invalidWrappedLength
  let t := runUnwrap k (loadWrap (fitBytes 8 input) (pieces 8 (input.length / 8 - 1) (input.drop 8)) s)
  require (t.kw.a == kwIV) .integrityCheckFailed
  return (wipeWrap t, joinPieces t.kw.r)

/-- WRAP KW (44_keywrap_rfc3394.md R161). -/
def execWrapKw (s : State) : Outcome State Fault Refusal := runCommand .keyWrap wrapKwBody s

/-- UNWRAP KW (44_keywrap_rfc3394.md R163). -/
def execUnwrapKw (s : State) : Outcome State Fault Refusal := runCommand .keyWrap unwrapKwBody s

end Sys2Proof.Machine
end

