-- ==== Sys2Proof/Machine/KeyWrapPad.lean ====
section
/-! DEFINITION. RFC 5649 key wrap with padding: WRAP.KWP and UNWRAP.KWP (45_keywrap_rfc5649.md rules R180 to R186). -/

namespace Sys2Proof.Machine

open Sys2Proof Host

/-- `KWP_ICV`: A6 59 59 A6 (00_scope.md R7). -/
def kwpICV : BytesN 4 := ⟨[0xA6, 0x59, 0x59, 0xA6], rfl⟩

/-- `AIV(mli)` (45_keywrap_rfc5649.md R180). -/
def aiv (mli : Nat) : Semi := ⟨kwpICV.1 ++ (be32 mli).1, by simp [kwpICV.2, (be32 mli).2]⟩

/-- The key data padded with zero bytes to the next multiple of 8 (45_keywrap_rfc5649.md R182). -/
def padKeyData (b : Bytes) : Bytes := b ++ List.replicate ((8 - b.length % 8) % 8) 0x00

/-- `MliCheck(mli, P)` (45_keywrap_rfc5649.md R184). -/
def mliCheck (mli : Nat) (p : Bytes) : Except ErrCode Unit := do
  require (decide (mli ≤ p.length) && decide (p.length ≤ mli + 7)) .paddingError
  require (p.drop mli == List.replicate (p.length - mli) 0x00) .paddingError

/-- Loads A and R[1] and encrypts them as one block: the branch of WRAP.KWP for one register (45_keywrap_rfc5649.md R181). -/
def runWrapOne (k : Bytes) (s : State) (p : Semi) : State :=
  { s with kw := { s.kw with b := aesEnc s.cfg.prim k (joinSemis s.kw.a p) } }

/-- Decrypts one block into B, its halves into A and R[1]: the branch of UNWRAP.KWP for 16 bytes
(45_keywrap_rfc5649.md R183). -/
def runUnwrapOne (k : Bytes) (c : Block) (s : State) : State :=
  let b := aesDec s.cfg.prim k c
  { s with kw := { a := high8 b, b := b, r := [low8 b] } }

/-- The wrap proper of padded key data (45_keywrap_rfc5649.md R181): the temporaries after it, and the output. -/
def wrapPadded (k : Bytes) (mli : Nat) (padded : Bytes) (s : State) : State × Bytes :=
  if padded.length = 8 then
    let t := runWrapOne k (loadWrap (aiv mli) [] s) (fitBytes 8 padded)
    (t, t.kw.b.1)
  else
    let t := runWrap k (loadWrap (aiv mli) (pieces 8 (padded.length / 8) padded) s)
    (t, t.kw.output)

/-- The body of WRAP.KWP (45_keywrap_rfc5649.md R181). -/
def wrapKwpBody (s : State) : BodyResult := do
  let k ← keyOperand s
  let input ← inputOperand s
  require (input.length != 0) .invalidKeyDataLength
  let (t, out) := wrapPadded k input.length (padKeyData input) s
  return (wipeWrap t, out)

/-- The unwrap proper (45_keywrap_rfc5649.md R183): A and the recovered registers stand in the temporaries. -/
def unwrapPadded (k : Bytes) (input : Bytes) (s : State) : State :=
  if input.length = 16 then runUnwrapOne k (fitBytes 16 input) s
  else runUnwrap k (loadWrap (fitBytes 8 input) (pieces 8 (input.length / 8 - 1) (input.drop 8)) s)

/-- The body of UNWRAP.KWP (45_keywrap_rfc5649.md R183). -/
def unwrapKwpBody (s : State) : BodyResult := do
  let k ← keyOperand s
  let input ← inputOperand s
  require (input.length % 8 == 0 && decide (16 ≤ input.length)) .invalidWrappedLength
  let t := unwrapPadded k input s
  require (high32 t.kw.a == beVal kwpICV.1) .integrityCheckFailed
  let mli := low32 t.kw.a
  let p := joinPieces t.kw.r
  mliCheck mli p
  return (wipeWrap t, p.take mli)

/-- WRAP KWP (45_keywrap_rfc5649.md R181). -/
def execWrapKwp (s : State) : Outcome State Fault Refusal := runCommand .keyWrap wrapKwpBody s

/-- UNWRAP KWP (45_keywrap_rfc5649.md R183). -/
def execUnwrapKwp (s : State) : Outcome State Fault Refusal := runCommand .keyWrap unwrapKwpBody s

end Sys2Proof.Machine
end

