-- ==== Sys2Proof/Machine/Update.lean ====
section
/-! DEFINITION. Streaming update: ENCUPD and DECUPD (42_mode_update.md rules R120 to R124). -/

namespace Sys2Proof.Machine

open Sys2Proof Host

/-- The body both updates share: the state check, the input bound, then the loop of the direction. -/
def updateBody (dir : Dir) (stream : Primitive → Session → Bytes → Bytes × Session) (s : State) : BodyResult := do
  requireReady dir s
  let input ← inputOperand s
  let (out, x) := stream s.cfg.prim s.sess input
  return ({ s with sess := x }, out)

/-- ENCUPD (42_mode_update.md R120). -/
def execEncupd (s : State) : Outcome State Fault Refusal := runCommand .modeEngine (updateBody .encrypt encStream) s

/-- DECUPD (42_mode_update.md R121). -/
def execDecupd (s : State) : Outcome State Fault Refusal := runCommand .modeEngine (updateBody .decrypt decStream) s

end Sys2Proof.Machine
end

