-- ==== Sys2Proof/Machine/Dispatch.lean ====
section
/-! DEFINITION. The dispatch of 46_control.md rule R202: one arm for each command. -/

namespace Sys2Proof.Machine

open Sys2Proof

def exec (i : Instr) (s : State) : Host.Outcome State Fault Refusal :=
  match i with
  | .encinitEcb => Sys2Proof.Machine.execEncinitEcb s
  | .encinitCbc => Sys2Proof.Machine.execEncinitCbc s
  | .decinitEcb => Sys2Proof.Machine.execDecinitEcb s
  | .decinitCbc => Sys2Proof.Machine.execDecinitCbc s
  | .encupd => Sys2Proof.Machine.execEncupd s
  | .decupd => Sys2Proof.Machine.execDecupd s
  | .encfin => Sys2Proof.Machine.execEncfin s
  | .decfin => Sys2Proof.Machine.execDecfin s
  | .wrapKw => Sys2Proof.Machine.execWrapKw s
  | .wrapKwp => Sys2Proof.Machine.execWrapKwp s
  | .unwrapKw => Sys2Proof.Machine.execUnwrapKw s
  | .unwrapKwp => Sys2Proof.Machine.execUnwrapKwp s
  | .clear => Sys2Proof.Machine.execClear s
  | .encinitBadalg alg => Sys2Proof.Machine.execEncinitBadalg alg s
  | .decinitBadalg alg => Sys2Proof.Machine.execDecinitBadalg alg s
  | .wrapBadalg alg => Sys2Proof.Machine.execWrapBadalg alg s
  | .unwrapBadalg alg => Sys2Proof.Machine.execUnwrapBadalg alg s
  | .illegal w => Sys2Proof.Machine.execIllegal w s

end Sys2Proof.Machine
end

