-- ==== Sys2Proof/Machine/Flags.lean ====
section
/-! DEFINITION. The block's status indications: the error codes (60_exceptions.md rule R220) and the word STATUS reads as
(10_state.md rule R24). There are no condition codes (R38). -/

namespace Sys2Proof.Machine

open Sys2Proof

/-- The 8-bit code of an error (60_exceptions.md R220). -/
def ErrCode.code : ErrCode → BitVec 8
  | .ok => 0x00
  | .invalidKeyLength => 0x01
  | .invalidMode => 0x02
  | .invalidIVLength => 0x03
  | .invalidState => 0x04
  | .invalidKeyDataLength => 0x05
  | .invalidWrappedLength => 0x06
  | .integrityCheckFailed => 0x07
  | .paddingError => 0x08
  | .invalidCiphertextLength => 0x09
  | .noDataProcessed => 0x0A
  | .inputTooLong => 0x0B
  | .illegalCommand => 0x0C

/-- STATUS.STATE: 00 Idle, 01 Ready, 10 Finalized (10_state.md R24). -/
def stateField (x : Session) : BitVec 2 :=
  match x.st with
  | .idle => 0b00
  | .ready => 0b01
  | .finalized => 0b10

/-- STATUS.DIR: 1 for Decrypt in a Ready session, otherwise 0 (10_state.md R24). -/
def dirField (x : Session) : BitVec 1 :=
  match x.st, x.dir with
  | .ready, .decrypt => 1
  | _, _ => 0

/-- STATUS.MODE: 1 for CBC in a Ready session, otherwise 0 (10_state.md R24). -/
def modeField (x : Session) : BitVec 1 :=
  match x.st, x.mode with
  | .ready, .cbc => 1
  | _, _ => 0

/-- STATUS.PLEN: the number of pending bytes (10_state.md R24). -/
def plenField (x : Session) : BitVec 6 := BitVec.ofNat 6 x.pend.length

/-- The word STATUS reads as, from bit 31 down: reserved, PLEN, ERR, reserved, BUSYWR, MODE, DIR, STATE, BUSY
(10_state.md R24). -/
def statusWord (s : State) : Word :=
  0b0000000000#10 ++ plenField s.sess ++ s.err.code ++ 0b00#2 ++ BitVec.ofBool s.busywr ++ modeField s.sess
    ++ dirField s.sess ++ stateField s.sess ++ BitVec.ofBool s.busy

end Sys2Proof.Machine
end

