-- ==== Sys2Proof/Machine/Bus.lean ====
section
/-! DEFINITION. The host's bus accesses to the window: address map, widths, lanes, access rights, bus errors
(20_memory.md rules R50 to R57), writes while busy (46_control.md R207), reads while busy (70_reset_and_hazards.md R262)
and the acceptance of a command (46_control.md R200). -/

namespace Sys2Proof.Machine

open Sys2Proof Host

/-- Size of the window (20_memory.md R50). -/
def windowSize : Nat := 0x40000

/-- The number of bytes of an access (20_memory.md R55). -/
def Width.bytes : Width → Nat
  | .byte => 1
  | .half => 2
  | .word => 4

/-- The window offset of a host address, where the window has one (20_memory.md R50). -/
def offsetOf (s : State) (addr : Nat) : Option Nat :=
  if s.cfg.base ≤ addr ∧ addr < s.cfg.base + windowSize then some (addr - s.cfg.base) else none

/-- The widths and alignments the window accepts (20_memory.md R53, R54). -/
def accessLegal (off : Nat) (w : Width) : Bool :=
  if off < 0x100 then w == .word && off % 4 == 0 else off % w.bytes == 0

/-- What stands at an offset from 0x100 on (20_memory.md R51). -/
inductive Region where
  | key
  | iv
  | input
  | output
  | reserved
deriving DecidableEq, Repr

/-- An offset lies in the `size` bytes from `base` on. -/
def inRange (base size off : Nat) : Bool := decide (base ≤ off) && decide (off < base + size)

/-- The region of an offset from 0x100 on (20_memory.md R51). No legal access straddles two regions (R54). -/
def regionOf (p : Params) (off : Nat) : Region :=
  if inRange keyBase keySize off then .key
  else if inRange ivBase ivSize off then .iv
  else if inRange inBase p.ibufSize off then .input
  else if inRange outBase p.obufSize off then .output
  else .reserved

/-- The host may store into a region: KEY, IV and IN (10_state.md R32). -/
def Region.writable : Region → Bool
  | .key => true
  | .iv => true
  | .input => true
  | .output => false
  | .reserved => false

/-- Bytes on their lanes: byte `k` in bits 8k+7 to 8k, the lanes above zero (20_memory.md R55). -/
def lanesToWord (b : Bytes) : Word := BitVec.ofNat 32 (b.foldr (fun x acc => x.toNat + 256 * acc) 0)

/-- The first `n` lanes of the bus data (20_memory.md R55). -/
def wordToLanes (n : Nat) (v : Word) : Bytes := (List.range n).map (fun k => v.extractLsb' (8 * k) 8)

/-- The bits 31:22 of KEYCFG are not stored (10_state.md R27). -/
def keycfgMask : Word := 0x003FFFFF

/-- The bits 31:8 of IVCFG are not stored (10_state.md R28). -/
def ivcfgMask : Word := 0x000000FF

/-! ## Reads -/

/-- A read of OUT or OUTLEN while busy returns any value (70_reset_and_hazards.md R262). -/
def isFreeRead (s : State) (off : Nat) : Bool :=
  s.busy && (off == 0x00C || (decide (0x100 ≤ off) && regionOf s.cfg off == .output))

/-- What a register reads as (10_state.md R22 to R29); reserved offsets read 0 (20_memory.md R52). OUTLEN while busy is
`isFreeRead`'s. -/
def readRegister (s : State) (off : Nat) : Word :=
  match off with
  | 0x000 => s.cmd
  | 0x004 => statusWord s
  | 0x008 => s.inlen
  | 0x00C => s.outlen
  | 0x010 => s.keycfg
  | 0x014 => s.ivcfg
  | 0x018 => BitVec.ofNat 32 s.cfg.ibufSize
  | _ => 0

/-- What a window byte access reads: OUT as it is; KEY, IV, IN and reserved offsets read 0 (10_state.md R32,
20_memory.md R52). -/
def readWindow (s : State) (off : Nat) (w : Width) : Word :=
  match regionOf s.cfg off with
  | .output => lanesToWord (Memory.readRange s.mem off w.bytes)
  | _ => 0

/-- The value a legal read that is not free returns. -/
def readValue (s : State) (off : Nat) (w : Width) : Word :=
  if off < 0x100 then readRegister s off else readWindow s off w

/-- The free value of this read, on the lanes of its width. -/
def freeReadValue (s : State) (w : Width) : Word := lanesToWord (wordToLanes w.bytes (Config.busyRead s.freeCount))

/-- The host gets the data of a read. -/
def pushReply (v : Word) (s : State) : State := { s with replies := v :: s.replies }

/-- A legal read. It has no side effect on the block (20_memory.md R57); a free one counts in the model's counter. -/
def doRead (off : Nat) (w : Width) (s : State) : State :=
  if isFreeRead s off then pushReply (freeReadValue s w) { s with freeCount := s.freeCount + 1 }
  else pushReply (readValue s off w) s

/-! ## Writes -/

/-- Acceptance of a command word while BUSY = 0 (46_control.md R200). -/
def acceptCommand (v : Word) (s : State) : State := { s with cmd := v, busy := true }

/-- A 32-bit write to a control register while BUSY = 0 (10_state.md R23 to R29); read-only registers and reserved offsets
ignore it (20_memory.md R52, R57). -/
def writeRegister (off : Nat) (v : Word) (s : State) : State :=
  match off with
  | 0x000 => acceptCommand v s
  | 0x008 => { s with inlen := v }
  | 0x010 => { s with keycfg := v &&& keycfgMask }
  | 0x014 => { s with ivcfg := v &&& ivcfgMask }
  | _ => s

/-- A write to a window while BUSY = 0: KEY, IV and IN store the bytes, OUT and reserved offsets ignore them
(10_state.md R32, 20_memory.md R52, R57). -/
def writeWindow (off : Nat) (w : Width) (v : Word) (s : State) : State :=
  if (regionOf s.cfg off).writable then { s with mem := Memory.write s.mem off (wordToLanes w.bytes v) } else s

/-- A legal write. While BUSY = 1 it only sets BUSYWR, wherever it goes (46_control.md R207). -/
def doWrite (off : Nat) (w : Width) (v : Word) (s : State) : State :=
  if s.busy then { s with busywr := true }
  else if off < 0x100 then writeRegister off v s
  else writeWindow off w v s

/-! ## Accesses -/

/-- An access at a host address. The block does not see one outside the window, which changes nothing of it (20_memory.md
R50); one at a forbidden width or alignment stops with a fault (R56), busy or not; any other has its effect. -/
def access (addr : Nat) (w : Width) (effect : Nat → State → State) (s : State) : Outcome State Fault Refusal :=
  match offsetOf s addr with
  | none => .next s
  | some off => if accessLegal off w then .next (effect off s) else .fault (.hostBusError off w.bytes)

/-- `MemRead(addr, n)` (00_scope.md R13). -/
def hostRead (addr : Nat) (w : Width) (s : State) : Outcome State Fault Refusal :=
  access addr w (fun off t => doRead off w t) s

/-- `MemWrite(addr, n, v)` (00_scope.md R13). -/
def hostWrite (addr : Nat) (w : Width) (v : Word) (s : State) : Outcome State Fault Refusal :=
  access addr w (fun off t => doWrite off w v t) s

end Sys2Proof.Machine
end

