-- ==== Sys2Proof/Machine/Schedule.lean ====
section
/-! DEFINITION. Who moves next: the host's accesses, the platform's reset and the engine's completion steps in one total
order (20_memory.md rule R61, 46_control.md rules R201 and R208, 70_reset_and_hazards.md rules R250, R251 and R261). -/

namespace Sys2Proof.Machine

open Sys2Proof Host

/-- The next step is the engine's, which completes the running command in the state given; or the host's or the platform's,
which has the outcome given. -/
inductive Turn where
  | engine (s : State)
  | other (o : Outcome State Fault Refusal)

/-- Reset as one atomic step (70_reset_and_hazards.md R250), also while a command runs (R251): every piece of the block's
state has its reset value. The parameters, what is still to arrive and what the host has read are not the block's. -/
def platformReset (s : State) : State :=
  { State.resetFor s.cfg with arrivals := s.arrivals, replies := s.replies, freeCount := s.freeCount }

/-- The reads of `OUT[0 ..< n]`, one byte each (30_encoding.md R79). -/
def outReads (s : State) (n : Nat) : List Event :=
  (List.range n).map (fun k => Event.read (s.cfg.base + outBase + k) .byte)

/-- `RDOUT` (30_encoding.md R79): OUTLEN is read, and the reads of that many bytes of OUT come next. -/
def startReadOut (s : State) : State :=
  let t := doRead 0x00C .word s
  { t with arrivals := outReads s (t.replies.headD 0).toNat ++ t.arrivals }

/-- The read `RD32 STATUS` of a poll (30_encoding.md R78). -/
def readStatus (s : State) : Event := .read (s.cfg.base + 0x004) .word

/-- What a `POLL` that finds BUSY = 1 expands to: reads of STATUS up to the step that ends the command, that step, and the poll
again. That step is the engine's turn or the reset that stands next; where another arrival stands next, the engine's turn
comes after a free number of reads (assumption log 5). -/
def pollRounds (s : State) : List Event → List Event
  | .engine :: later => readStatus s :: .engine :: .poll :: later
  | .reset :: later => readStatus s :: .reset :: .poll :: later
  | rest => List.replicate (Config.pollReads s.freeCount) (readStatus s) ++ .engine :: .poll :: rest

/-- `POLL` while BUSY = 1: the reads that return BUSY = 1 come next, and the poll goes on after them. -/
def pollOn (rest : List Event) (s : State) : State :=
  { s with arrivals := pollRounds s rest, freeCount := s.freeCount + 1 }

/-- What the next step is. The first arrival moves. An engine's turn completes the running command, if one runs. `POLL` reads
STATUS until BUSY = 0 (30_encoding.md R78, 70_reset_and_hazards.md R261). When nothing is on its way a running command
completes, and an idle block keeps its state (60_exceptions.md R239). -/
def nextTurn (s : State) : Turn :=
  match s.arrivals with
  | [] => if s.busy then .engine s else .other (.next s)
  | .engine :: rest =>
    if s.busy then .engine { s with arrivals := rest } else .other (.next { s with arrivals := rest })
  | .poll :: rest =>
    .other (if s.busy then .next (pollOn rest s) else hostRead (s.cfg.base + 0x004) .word { s with arrivals := rest })
  | .readOut :: rest => .other (.next (startReadOut { s with arrivals := rest }))
  | .reset :: rest => .other (.next (platformReset { s with arrivals := rest }))
  | .read a w :: rest => .other (hostRead a w { s with arrivals := rest })
  | .write a w v :: rest => .other (hostWrite a w v { s with arrivals := rest })

end Sys2Proof.Machine
end

