-- ==== Sys2Proof/Machine/Step.lean ====
section
/-! DEFINITION. One step of the machine (46_control.md rule R208): the engine completes the command word that CMD latched, or
another agent moves. -/

namespace Sys2Proof.Machine

open Sys2Proof

/-- One step. An engine's step is the Complete step of 46_control.md R208: the latched word is decoded and run (R202). -/
def step (s : State) : Host.Outcome State Fault Refusal :=
  match nextTurn s with
  | .engine t => exec (decode t.cmd) t
  | .other o => o

/-- `s` with a command word accepted, and its completion the next thing to happen: what an accepted write to CMD leaves
(46_control.md R200), followed by the engine's turn (assumption log 20). -/
def State.withFetchWord (s : State) (nbits w : Nat) : State :=
  { acceptCommand (tableWord nbits w) s with arrivals := .engine :: s.arrivals }

end Sys2Proof.Machine
end

