-- ==== Sys2Proof/Machine/HostProgram.lean ====
section
/-! DEFINITION. The notation of host programs: the primitive forms (30_encoding.md rule R78) and the pseudo-instructions with
their expansions (R79), as lists of arrivals. -/

namespace Sys2Proof.Machine

open Sys2Proof

/-- `WR32 off, v`. -/
def wr32 (p : Params) (off : Nat) (v : Word) : Event := .write (p.base + off) .word v

/-- `WR16 off, v`. -/
def wr16 (p : Params) (off : Nat) (v : Word) : Event := .write (p.base + off) .half v

/-- `WR8 off, v`. -/
def wr8 (p : Params) (off : Nat) (v : Word) : Event := .write (p.base + off) .byte v

/-- `RD32 off -> name`. -/
def rd32 (p : Params) (off : Nat) : Event := .read (p.base + off) .word

/-- `RD8 off -> name`. -/
def rd8 (p : Params) (off : Nat) : Event := .read (p.base + off) .byte

/-- `WRBYTES base, S`. -/
def wrBytes (p : Params) (off : Nat) : Bytes → List Event
  | b0 :: b1 :: b2 :: b3 :: rest => wr32 p off (wordOfLanes b0 b1 b2 b3) :: wrBytes p (off + 4) rest
  | [b0, b1, b2] => [wr8 p off (b0.setWidth 32), wr8 p (off + 1) (b1.setWidth 32), wr8 p (off + 2) (b2.setWidth 32)]
  | [b0, b1] => [wr8 p off (b0.setWidth 32), wr8 p (off + 1) (b1.setWidth 32)]
  | [b0] => [wr8 p off (b0.setWidth 32)]
  | [] => []

/-- `SETKEY bits, S`. -/
def setKey (p : Params) (bits : Nat) (b : Bytes) : List Event :=
  wrBytes p 0x100 b ++ [wr32 p 0x010 (BitVec.ofNat 32 (bits + 65536 * b.length))]

/-- `SETIV S`. -/
def setIv (p : Params) (b : Bytes) : List Event := wrBytes p 0x120 b ++ [wr32 p 0x014 (BitVec.ofNat 32 b.length)]

/-- `SETIN S`. -/
def setIn (p : Params) (b : Bytes) : List Event := wrBytes p 0x10000 b ++ [wr32 p 0x008 (BitVec.ofNat 32 b.length)]

/-- `CMD w`: every command pseudo-instruction writes CMD and polls. -/
def runWord (p : Params) (w : Word) : List Event := [wr32 p 0x000 w, .poll]

/-- The command pseudo-instructions `ENCINIT m`, ..., `CLEAR`. -/
def runInstr (p : Params) (i : Instr) : List Event := runWord p (encode i)

/-- `RDOUT -> name`. -/
def rdOut : List Event := [.readOut]

end Sys2Proof.Machine
end

