-- ==== Sys2Proof/Safety.lean ====
section
/-! DEFINITION. What the statements call a state of the machine in good order: the invariants of 10_state.md rule R35 with
what the registers' own rules add (R24 to R33), and the terms in which runs are spoken of. -/

namespace Sys2Proof.Machine

open Sys2Proof Host

/-- The session is as 10_state.md R35 says for a state other than Ready. -/
abbrev Session.empty (x : Session) : Prop :=
  x.key = [] ∧ x.cb = zeros 16 ∧ x.pend = [] ∧ x.dir = .encrypt ∧ x.mode = .ecb

/-- The session invariants of 10_state.md R35, with the key length of R30. -/
abbrev Session.inv (x : Session) : Prop :=
  (x.st ≠ .ready → x.empty) ∧
  (x.st = .ready → x.key.length = 16 ∨ x.key.length = 24 ∨ x.key.length = 32) ∧
  (x.st = .ready → x.dir = .encrypt → x.pend.length ≤ 15) ∧
  (x.st = .ready → x.dir = .decrypt → x.pend.length ≤ 31 ∧ x.pend.length / 16 ≤ 1) ∧
  (x.st = .ready → x.mode = .ecb → x.cb = zeros 16)

/-- A cell of the memory lies in one of the four windows (20_memory.md R51). -/
abbrev cellInWindow (p : Params) (c : Cell) : Prop := 0x100 ≤ c.1 ∧ regionOf p c.1 ≠ .reserved

/-- The windows: canonical, nothing outside the four windows, and OUT zero beyond OUTLEN (10_state.md R35). -/
abbrev windowsInv (s : State) : Prop :=
  Memory.wf s.mem ∧ (∀ c ∈ s.mem, cellInWindow s.cfg c) ∧
  (∀ c ∈ s.mem, outBase ≤ c.1 → c.1 < outBase + s.outlen.toNat)

/-- The registers: OUTLEN within OUT (10_state.md R26), the reserved fields of KEYCFG and IVCFG zero (R27, R28), no output
after an error (R26). -/
abbrev registersInv (s : State) : Prop :=
  s.outlen.toNat ≤ s.cfg.obufSize ∧ s.keycfg.toNat < 2 ^ 22 ∧ s.ivcfg.toNat < 2 ^ 8 ∧ (s.err ≠ .ok → s.outlen = 0)

/-- The invariant of the machine at every command boundary (10_state.md R35). -/
abbrev State.Inv (s : State) : Prop :=
  s.cfg.ok ∧ windowsInv s ∧ registersInv s ∧ s.sess.inv ∧ s.kw = KeyWrapTemps.zero

/-! ## What stands before a command -/

/-- A Ready session of a direction. -/
abbrev State.inSession (d : Dir) (s : State) : Prop := s.sess.st = .ready ∧ s.sess.dir = d

/-- The key operand of the next command passes the key check (40_primitive_and_key.md R96). -/
abbrev State.keyOk (s : State) : Prop := keyCheckPasses (bitLen s) (keyBytes s) = true

/-- The key the next command takes, `KEYW[0 ..< KEYBYTES]` (40_primitive_and_key.md R97). -/
def State.keyOf (s : State) : Bytes := keyWindow s (keyBytes s)

/-- The input of the next command fits the IN window (10_state.md R25). -/
abbrev State.inputFits (s : State) : Prop := s.inlen.toNat ≤ s.cfg.ibufSize

/-- The input of the next command, `IN[0 ..< INLEN]` (30_encoding.md R74). -/
def State.inputOf (s : State) : Bytes := inWindow s s.inlen.toNat

/-- The host has placed an input: `IN[0 ..< len] <- b` and `INLEN <- len`, what `SETIN b` leaves (30_encoding.md R79). -/
def State.withInput (s : State) (b : Bytes) : State :=
  { s with mem := Memory.write s.mem inBase b, inlen := BitVec.ofNat 32 b.length }

/-! ## What a command leaves -/

/-- The class of a command (46_control.md R202). -/
def classOf : Instr → CmdClass
  | .encinitEcb => .modeEngine
  | .encinitCbc => .modeEngine
  | .decinitEcb => .modeEngine
  | .decinitCbc => .modeEngine
  | .encupd => .modeEngine
  | .decupd => .modeEngine
  | .encfin => .modeEngine
  | .decfin => .modeEngine
  | .wrapKw => .keyWrap
  | .wrapKwp => .keyWrap
  | .unwrapKw => .keyWrap
  | .unwrapKwp => .keyWrap
  | .clear => .control
  | .encinitBadalg _ => .modeEngine
  | .decinitBadalg _ => .modeEngine
  | .wrapBadalg _ => .keyWrap
  | .unwrapBadalg _ => .keyWrap
  | .illegal _ => .control

/-- The registers that no command but CLEAR writes, and the model's own fields, are as before. -/
def keepsRegisters (s t : State) : Prop :=
  t.cfg = s.cfg ∧ t.cmd = s.cmd ∧ t.busywr = s.busywr ∧ t.inlen = s.inlen ∧ t.keycfg = s.keycfg ∧ t.ivcfg = s.ivcfg ∧
  t.arrivals = s.arrivals ∧ t.replies = s.replies ∧ t.freeCount = s.freeCount

/-- Every byte outside the OUT window reads as before. -/
def keepsOutside (s t : State) : Prop :=
  ∀ a, (a < outBase ∨ outBase + s.cfg.obufSize ≤ a) → Memory.read t.mem a = Memory.read s.mem a

/-- OUT holds an output, padded with zeros, and OUTLEN its length (46_control.md R203, R204). -/
def outHolds (t : State) (out : Bytes) : Prop :=
  t.outlen.toNat = out.length ∧ ∀ k < t.cfg.obufSize, Memory.read t.mem (outBase + k) = out.getD k 0x00

/-- A command has completed with a code and an output: ERR, BUSY, OUTLEN and every byte of OUT are the completion's, and
nothing else but the session and the key-wrap temporaries may differ. -/
def completed (s t : State) (e : ErrCode) (out : Bytes) : Prop :=
  t.err = e ∧ t.busy = false ∧ outHolds t out ∧ keepsRegisters s t ∧ keepsOutside s t

/-- The session after a successful FIN (43_mode_final.md R140, R141). -/
def Session.finalized : Session := { Session.reset with st := .finalized }

/-! ## The algorithms as the spec's pseudocode writes them -/

/-- Block `k` of a byte string. -/
def blockAt (b : Bytes) (k : Nat) : Block := fitBytes 16 (b.drop (16 * k))

/-- A string of at most 15 bytes with its padding (40_primitive_and_key.md R92). -/
def padded (b : Bytes) : Bytes := b ++ List.replicate (16 - b.length) (BitVec.ofNat 8 (16 - b.length))

/-- One iteration of the loop of `W3394` for `j` and `i = k + 1`: A and R[1..n], updated in place
(44_keywrap_rfc3394.md R160). -/
def wrapStep (prim : Primitive) (key : Bytes) (n j k : Nat) (x : Semi × List Semi) : Semi × List Semi :=
  let b := aesEnc prim key (joinSemis x.1 (x.2.getD k (zeros 8)))
  (bxor (high8 b) (be64 (n * j + (k + 1))), x.2.set k (low8 b))

/-- One iteration of the loop of `U3394` for `j` and `i = k + 1` (44_keywrap_rfc3394.md R162). -/
def unwrapStep (prim : Primitive) (key : Bytes) (n j k : Nat) (x : Semi × List Semi) : Semi × List Semi :=
  let b := aesDec prim key (joinSemis (bxor x.1 (be64 (n * j + (k + 1)))) (x.2.getD k (zeros 8)))
  (high8 b, x.2.set k (low8 b))

/-- `W3394(K, A, R[1..n])` as two nested loops over registers updated in place (44_keywrap_rfc3394.md R160). -/
def rfc3394Wrap (prim : Primitive) (key : Bytes) (a : Semi) (r : List Semi) : Semi × List Semi :=
  (List.range 6).foldl (fun x j => (List.range r.length).foldl (fun x k => wrapStep prim key r.length j k x) x) (a, r)

/-- `U3394(K, A, R[1..n])` as two nested loops over registers updated in place (44_keywrap_rfc3394.md R162). -/
def rfc3394Unwrap (prim : Primitive) (key : Bytes) (a : Semi) (r : List Semi) : Semi × List Semi :=
  (List.range 6).reverse.foldl
    (fun x j => (List.range r.length).reverse.foldl (fun x k => unwrapStep prim key r.length j k x) x) (a, r)

/-- `A || R[1] || ... || R[n]`. -/
def wrapOutput (x : Semi × List Semi) : Bytes := x.1.1 ++ joinPieces x.2

/-- The registers R[1..n] of a byte string of 8n bytes. -/
def registersOf (b : Bytes) : List Semi := pieces 8 (b.length / 8) b

/-- What UNWRAP recovers from a wrapped string before its checks: A and P (44_keywrap_rfc3394.md R163). -/
def recovered (prim : Primitive) (key : Bytes) (c : Bytes) : Semi × Bytes :=
  let x := rfc3394Unwrap prim key (fitBytes 8 c) (registersOf (c.drop 8))
  (x.1, joinPieces x.2)

/-- What UNWRAP.KWP recovers before its checks: one block for 16 bytes, the loop otherwise (45_keywrap_rfc5649.md R183). -/
def recoveredPadded (prim : Primitive) (key : Bytes) (c : Bytes) : Semi × Bytes :=
  if c.length = 16 then
    let b := aesDec prim key (fitBytes 16 c)
    (high8 b, (low8 b).1)
  else recovered prim key c

/-- P passes the MLI check for `mli` (45_keywrap_rfc5649.md R184). -/
abbrev mliPasses (mli : Nat) (p : Bytes) : Prop :=
  mli ≤ p.length ∧ p.length ≤ mli + 7 ∧ ∀ k, mli ≤ k → k < p.length → p.getD k 0x00 = 0x00

/-! ## Streams of commands -/

/-- The host feeds an input in chunks to an update command, every command succeeding: the state after it and the outputs
joined. -/
def feed (i : Instr) : State → List Bytes → Option (State × Bytes)
  | s, [] => some (s, [])
  | s, c :: cs =>
    match exec i (s.withInput c) with
    | .next t => if t.err = .ok then (feed i t cs).map (fun x => (x.1, outBytes t ++ x.2)) else none
    | .fault _ => none
    | .refused _ => none

/-- A whole stream: the chunks to an update command, then a final command, every command succeeding. -/
def runSession (upd fin : Instr) (s : State) (chunks : List Bytes) : Option (State × Bytes) :=
  match feed upd s chunks with
  | none => none
  | some (t, out) =>
    match exec fin t with
    | .next u => if u.err = .ok then some (u, out ++ outBytes u) else none
    | .fault _ => none
    | .refused _ => none

/-- Every chunk fits the IN window. -/
abbrev chunksFit (s : State) (chunks : List Bytes) : Prop := ∀ c ∈ chunks, c.length ≤ s.cfg.ibufSize

/-- A run of `k` steps stops nowhere: no bus error (20_memory.md R56). -/
def runsSafely (k : Nat) (s : State) : Prop := ∃ t, core.run k s = .next t

end Sys2Proof.Machine
end

