-- ==== Sys2Proof/Certificates/Slice0/Obligations.lean ====
section
/-! DEFINITION. The statements for the provers. Every statement about a state is about every state, hence about every value
of the parameters BASE, IBUF_SIZE and the block primitive, which State holds (assumption log 1). -/

open Sys2Proof Sys2Proof.Machine

/-! ## Encoding -/

/-- No bit of an encoding is dropped: every well-formed instruction is what its word decodes to (30_encoding.md R75). -/
def Obligations.DecodeOfEncodeIsIdentity : Prop := ∀ i : Instr, i.wf = true → decode (encode i) = i

/-- Every one of the 2^32 words decodes to a well-formed instruction whose word it is (30_encoding.md R75). -/
def Obligations.EveryWordIsTheWordOfItsInstruction : Prop :=
  ∀ w : Word, (decode w).wf = true ∧ encode (decode w) = w

/-- The opcode map of 30_encoding.md R77: the 13 legal words, the four groups of bad selectors, and nothing else. -/
def Obligations.OpcodeMapIsExactlyAsListed : Prop :=
  decode 0x00000001 = .encinitEcb ∧ decode 0x00000011 = .encinitCbc ∧ decode 0x00000002 = .decinitEcb ∧
  decode 0x00000012 = .decinitCbc ∧ decode 0x00000003 = .encupd ∧ decode 0x00000004 = .decupd ∧
  decode 0x00000005 = .encfin ∧ decode 0x00000006 = .decfin ∧ decode 0x00000027 = .wrapKw ∧
  decode 0x00000037 = .wrapKwp ∧ decode 0x00000028 = .unwrapKw ∧ decode 0x00000038 = .unwrapKwp ∧
  decode 0x00000009 = .clear ∧
  (∀ a : BitVec 4, a ≠ 0 → a ≠ 1 → decode (0x000000#24 ++ a ++ 0x1#4) = .encinitBadalg a) ∧
  (∀ a : BitVec 4, a ≠ 0 → a ≠ 1 → decode (0x000000#24 ++ a ++ 0x2#4) = .decinitBadalg a) ∧
  (∀ a : BitVec 4, a ≠ 2 → a ≠ 3 → decode (0x000000#24 ++ a ++ 0x7#4) = .wrapBadalg a) ∧
  (∀ a : BitVec 4, a ≠ 2 → a ≠ 3 → decode (0x000000#24 ++ a ++ 0x8#4) = .unwrapBadalg a) ∧
  ∀ w : Word,
    w ∉ [0x00000001, 0x00000011, 0x00000002, 0x00000012, 0x00000003, 0x00000004, 0x00000005, 0x00000006, 0x00000027,
      0x00000037, 0x00000028, 0x00000038, 0x00000009] →
    (∀ a : BitVec 4, w ≠ 0x000000#24 ++ a ++ 0x1#4 ∧ w ≠ 0x000000#24 ++ a ++ 0x2#4 ∧ w ≠ 0x000000#24 ++ a ++ 0x7#4 ∧
      w ≠ 0x000000#24 ++ a ++ 0x8#4) →
    decode w = .illegal w

/-- A few words written out from the tables of 30_encoding.md R72 and R73 decode to their instructions. -/
def Obligations.SampleWordsDecode : Prop :=
  decode 0b00000000000000000000000000010001#32 = .encinitCbc ∧ decode 0b00000000000000000000000000000100#32 = .decupd ∧
  decode 0b00000000000000000000000000111000#32 = .unwrapKwp ∧ decode 0b00000000000000000000000000001001#32 = .clear ∧
  decode 0b00000000000000000000000101000111#32 = .illegal 0x00000147 ∧
  decode 0b00000000000000000000000001000111#32 = .wrapBadalg 4

/-! ## Reset -/

/-- After reset, at the start and after a reset step, every piece of state has the value of 70_reset_and_hazards.md R250,
whatever the parameters. -/
def Obligations.ResetValuesAreTheSpecs : Prop :=
  ∀ s : State, ((∃ p, s = State.resetFor p) ∨ ∃ u rest, u.arrivals = .reset :: rest ∧ step u = .next s) →
    statusWord s = 0x00000000 ∧ s.cmd = 0x00000000 ∧ s.busy = false ∧ s.busywr = false ∧ s.err = .ok ∧
    s.inlen = 0 ∧ s.outlen = 0 ∧ s.keycfg = 0 ∧ s.ivcfg = 0 ∧ readRegister s 0x018 = BitVec.ofNat 32 s.cfg.ibufSize ∧
    (∀ a, Memory.read s.mem a = 0x00) ∧ s.sess.st = .idle ∧ s.sess.empty ∧ s.kw.a = zeros 8 ∧ s.kw.b = zeros 16 ∧
    ∀ i, s.kw.r.getD i (zeros 8) = zeros 8

/-- The machine starts in good order. -/
def Obligations.ResetMeetsInvariant : Prop := State.reset.Inv

/-- Reset abandons a running command and leaves exactly the reset state; what is still to arrive and what the host has read
are the model's own and stay (assumption log 13). Nothing else stops a running command: BUSY falls by reset or by the command's own completion
(70_reset_and_hazards.md R251). -/
def Obligations.ResetStepDiscardsRunningCommand : Prop :=
  (∀ (s : State) (rest : List Event), s.arrivals = .reset :: rest →
    step s = .next { State.resetFor s.cfg with arrivals := rest, replies := s.replies, freeCount := s.freeCount }) ∧
  ∀ s t : State, s.busy = true → step s = .next t → t.busy = false →
    (∃ rest, s.arrivals = .reset :: rest) ∨ ∃ l, exec (decode s.cmd) { s with arrivals := l } = .next t

/-! ## The step -/

/-- When the engine moves, the step is the dispatch of the latched word's instruction, which is always well formed. The
engine moves while a command runs, on its own turn or when nothing is on its way, which is the model's choice of when a
command completes (assumption log 4). -/
def Obligations.StepRunsTheLatchedCommand : Prop :=
  ∀ s : State, s.busy = true →
    (∀ rest, s.arrivals = .engine :: rest → step s = exec (decode s.cmd) { s with arrivals := rest }) ∧
    (s.arrivals = [] → step s = exec (decode s.cmd) s)

/-- The word placed by `withFetchWord` is the one the next step runs (the model's own operation, assumption log 20). -/
def Obligations.PlacedWordRunsNext : Prop :=
  ∀ (s : State) (n w : Nat),
    step (s.withFetchWord n w) = exec (decode (tableWord n w)) { s with cmd := tableWord n w, busy := true }

/-- Every step, of the engine, the host or the platform, keeps the invariants of 10_state.md R35 and the registers' own. -/
def Obligations.EveryStepKeepsInvariant : Prop := ∀ s t : State, s.Inv → step s = .next t → t.Inv

/-- Every command completes, in every state: it never stops the machine, BUSY falls, and the frame common to all commands
but CLEAR holds (46_control.md R201, R208). -/
def Obligations.EveryCommandCompletes : Prop :=
  ∀ (i : Instr) (s : State), ∃ t, exec i s = .next t ∧ t.busy = false ∧ t.cfg = s.cfg ∧ t.cmd = s.cmd ∧
    t.arrivals = s.arrivals ∧ t.replies = s.replies ∧ t.freeCount = s.freeCount ∧
    (i ≠ .clear → keepsRegisters s t) ∧ (classOf i ≠ .keyWrap → i ≠ .clear → t.kw = s.kw) ∧
    (classOf i = .keyWrap → t.kw = KeyWrapTemps.zero ∧ t.sess = s.sess)

/-- No step of any agent writes the parameters, which the model holds in State (assumption log 1). -/
def Obligations.StepKeepsParameters : Prop := ∀ s t : State, step s = .next t → t.cfg = s.cfg

/-! ## Memory -/

/-- Two memories in the model's canonical form that read alike everywhere are the same data (assumption log 8). -/
def Obligations.CanonicalMemoriesReadingAlikeAreEqual : Prop :=
  ∀ m m' : Memory, Memory.wf m → Memory.wf m' → (∀ a, Memory.read m a = Memory.read m' a) → m = m'

/-! ## The bus -/

/-- Derived from 20_memory.md R50, R53, R54, R56 and 60_exceptions.md R223. The widths and alignments of R53 and R54: which
accesses they allow; a legal access straddles no two regions; a forbidden access is refused, busy or not, and a legal one is
not. That the refusal ends the step in the fault `HostBusError(offset, width)` of R56 is DEDUCED (assumption log 10). An
access outside the window changes nothing of the block, whose running command goes on: DEDUCED from R50 (assumption log 9).
Nothing else is a fault of any step (R223). -/
def Obligations.BusErrorsAreExactlyTheForbiddenAccesses : Prop :=
  (∀ off w, accessLegal off w = true ↔ if off < 0x100 then w = .word ∧ off % 4 = 0 else off % w.bytes = 0) ∧
  (∀ (p : Params) off w k, p.ok → 0x100 ≤ off → accessLegal off w = true → k < w.bytes →
    regionOf p (off + k) = regionOf p off) ∧
  (∀ (s : State) (rest : List Event) (off : Nat) (w : Width) (v : Word), off < 0x40000 →
    s.arrivals = .write (s.cfg.base + off) w v :: rest ∨ s.arrivals = .read (s.cfg.base + off) w :: rest →
    if accessLegal off w then ∃ t, step s = .next t else step s = .fault (.hostBusError off w.bytes)) ∧
  (∀ (s : State) (rest : List Event) (a : Nat) (w : Width) (v : Word), a < s.cfg.base ∨ s.cfg.base + 0x40000 ≤ a →
    s.arrivals = .write a w v :: rest ∨ s.arrivals = .read a w :: rest → step s = .next { s with arrivals := rest }) ∧
  ∀ (s : State) (f : Fault), step s = .fault f →
    ∃ off w, off < 0x40000 ∧ accessLegal off w = false ∧ f = .hostBusError off w.bytes ∧
      ((∃ rest v, s.arrivals = .write (s.cfg.base + off) w v :: rest) ∨
        ∃ rest, s.arrivals = .read (s.cfg.base + off) w :: rest)

/-- A host write while BUSY = 1 sets BUSYWR and changes nothing else, at every offset; a forbidden one is a bus error
instead (46_control.md R207). -/
def Obligations.WritesWhileBusyOnlySetBusywr : Prop :=
  ∀ (s : State) (rest : List Event) (off : Nat) (w : Width) (v : Word), s.busy = true → off < 0x40000 →
    s.arrivals = .write (s.cfg.base + off) w v :: rest →
    step s = if accessLegal off w then .next { s with busywr := true, arrivals := rest }
      else .fault (.hostBusError off w.bytes)

/-- A 32-bit write to CMD while BUSY = 0 latches the word and sets BUSY, and nothing else; STATUS then reads as before but
for BUSY (46_control.md R200). -/
def Obligations.CommandWriteIsAccepted : Prop :=
  ∀ (s : State) (rest : List Event) (v : Word), s.busy = false → s.arrivals = .write s.cfg.base .word v :: rest →
    step s = .next { s with cmd := v, busy := true, arrivals := rest } ∧
    statusWord { s with cmd := v, busy := true, arrivals := rest } = statusWord s ||| 0x00000001

/-- The control registers while BUSY = 0: INLEN stores all bits, KEYCFG bits 21:0, IVCFG bits 7:0; a write to STATUS, OUTLEN,
CAPS or a reserved offset is ignored (10_state.md R24 to R29, 20_memory.md R52, R57). -/
def Obligations.RegisterWritesStoreTheirFields : Prop :=
  ∀ (s : State) (rest : List Event) (off : Nat) (v : Word), s.busy = false → off < 0x100 → off % 4 = 0 → off ≠ 0 →
    s.arrivals = .write (s.cfg.base + off) .word v :: rest →
    step s = .next
      (if off = 0x008 then { s with inlen := v, arrivals := rest }
       else if off = 0x010 then { s with keycfg := BitVec.setWidth 32 (v.extractLsb' 0 22), arrivals := rest }
       else if off = 0x014 then { s with ivcfg := BitVec.setWidth 32 (v.extractLsb' 0 8), arrivals := rest }
       else { s with arrivals := rest })

/-- Window writes while BUSY = 0: byte `off + k` of KEY, IV or IN takes bits 8k+7 to 8k of the bus data; OUT and reserved
offsets ignore the write; nothing else changes (20_memory.md R55, R57; 10_state.md R32). -/
def Obligations.WindowWritesUseLittleEndianLanes : Prop :=
  ∀ (s : State) (rest : List Event) (off : Nat) (w : Width) (v : Word), s.busy = false → 0x100 ≤ off → off < 0x40000 →
    accessLegal off w = true → s.arrivals = .write (s.cfg.base + off) w v :: rest →
    ∃ t, step s = .next t ∧ t = { s with mem := t.mem, arrivals := rest } ∧
      ∀ a, Memory.read t.mem a =
        if (regionOf s.cfg off = .key ∨ regionOf s.cfg off = .iv ∨ regionOf s.cfg off = .input) ∧ off ≤ a ∧ a < off + w.bytes
        then v.extractLsb' (8 * (a - off)) 8 else Memory.read s.mem a

/-- Register reads, busy or not: CMD, STATUS, INLEN, OUTLEN, KEYCFG, IVCFG and CAPS return their value, reserved offsets 0; the
block does not change. OUTLEN while busy returns the next free value instead (10_state.md R23 to R29, 20_memory.md R52,
46_control.md R200, 70_reset_and_hazards.md R262; assumption log 7). -/
def Obligations.RegisterReadsReturnTheirValue : Prop :=
  ∀ (s : State) (rest : List Event) (off : Nat), off < 0x100 → off % 4 = 0 →
    s.arrivals = .read (s.cfg.base + off) .word :: rest →
    ((s.busy = false ∨ off ≠ 0x00C) →
      step s = .next
        { s with
          arrivals := rest
          replies :=
            (if off = 0x000 then s.cmd else if off = 0x004 then statusWord s else if off = 0x008 then s.inlen
             else if off = 0x00C then s.outlen else if off = 0x010 then s.keycfg else if off = 0x014 then s.ivcfg
             else if off = 0x018 then BitVec.ofNat 32 s.cfg.ibufSize else 0x00000000) :: s.replies }) ∧
    (s.busy = true → off = 0x00C →
      ∃ v, step s = .next { s with arrivals := rest, replies := v :: s.replies, freeCount := s.freeCount + 1 })

/-- Window reads: bits 8k+7 to 8k are byte `off + k` of OUT, every other bit 0; KEY, IV, IN and reserved offsets read 0, also
while BUSY = 1; the block does not change. OUT while busy returns the next free value instead, on the lanes of the access
(20_memory.md R52, R55, R57; 10_state.md R32; 70_reset_and_hazards.md R262; assumption log 7). -/
def Obligations.WindowReadsReturnOnlyOutput : Prop :=
  ∀ (s : State) (rest : List Event) (off : Nat) (w : Width), 0x100 ≤ off → off < 0x40000 →
    accessLegal off w = true → s.arrivals = .read (s.cfg.base + off) w :: rest →
    ((s.busy = false ∨ regionOf s.cfg off ≠ .output) →
      ∃ v : Word, step s = .next { s with arrivals := rest, replies := v :: s.replies } ∧
        ∀ k < 4, v.extractLsb' (8 * k) 8 =
          if regionOf s.cfg off = .output ∧ k < w.bytes then Memory.read s.mem (off + k) else 0x00) ∧
    (s.busy = true → regionOf s.cfg off = .output →
      ∃ v : Word, step s = .next { s with arrivals := rest, replies := v :: s.replies, freeCount := s.freeCount + 1 } ∧
        ∀ k < 4, w.bytes ≤ k → v.extractLsb' (8 * k) 8 = 0x00)

/-- A legal read changes no state of the block, and a second one returns the same value, but for OUTLEN and OUT while busy,
whose value is the next free one of the model (20_memory.md R57, 70_reset_and_hazards.md R262; assumption log 7). -/
def Obligations.ReadsAreIdempotent : Prop :=
  ∀ (s : State) (rest : List Event) (off : Nat) (w : Width), off < 0x40000 → accessLegal off w = true →
    s.arrivals = .read (s.cfg.base + off) w :: .read (s.cfg.base + off) w :: rest →
    ∃ (v v' : Word) (n : Nat),
      core.run 2 s = .next { s with arrivals := rest, replies := v' :: v :: s.replies, freeCount := s.freeCount + n } ∧
      if s.busy = true ∧ (off = 0x00C ∨ (0x100 ≤ off ∧ regionOf s.cfg off = .output)) then n = 2
      else n = 0 ∧ v' = v

/-- The fields of STATUS (10_state.md R24). -/
def Obligations.StatusFieldsReadTheirState : Prop :=
  ∀ s : State, let w := statusWord s
    w.extractLsb' 0 1 = BitVec.ofBool s.busy ∧
    w.extractLsb' 1 2 = (match s.sess.st with | .idle => 0b00 | .ready => 0b01 | .finalized => 0b10) ∧
    w.extractLsb' 3 1 = (if s.sess.st = .ready ∧ s.sess.dir = .decrypt then 1 else 0) ∧
    w.extractLsb' 4 1 = (if s.sess.st = .ready ∧ s.sess.mode = .cbc then 1 else 0) ∧
    w.extractLsb' 5 1 = BitVec.ofBool s.busywr ∧ w.extractLsb' 6 2 = 0 ∧ w.extractLsb' 8 8 = s.err.code ∧
    (s.sess.pend.length ≤ 31 → (w.extractLsb' 16 6).toNat = s.sess.pend.length) ∧ w.extractLsb' 22 10 = 0

/-- What a read returns does not depend on the session's key, chaining block or pending bytes, nor on the KEY, IV and IN
windows: of the session only STATE, DIR, MODE and the number of pending bytes show (10_state.md R31, R32). -/
def Obligations.SecretsAreNeverReadable : Prop :=
  ∀ (s s' : State) (a : Nat) (w : Width) (rest : List Event),
    (∃ key cb pend mem, s' = { s with mem := mem, sess := { s.sess with key := key, cb := cb, pend := pend } } ∧
      pend.length = s.sess.pend.length ∧
      ∀ k < s.cfg.obufSize, Memory.read mem (outBase + k) = Memory.read s.mem (outBase + k)) →
    s.cfg.ok → s.arrivals = .read a w :: rest →
    ∀ t, step s = .next t → ∃ t', step s' = .next t' ∧ t'.replies = t.replies

/-! ## Host programs -/

/-- POLL reads STATUS until it returns BUSY = 0, and that read sees the completed command (30_encoding.md R78, R79;
70_reset_and_hazards.md R261). From an idle block, a command pseudo-instruction's word is accepted and its POLL makes a free
number of reads that return BUSY = 1, then the command completes, then one read returns the STATUS it left. Where the engine's
turn is placed, before the poll or right after its first read, the poll makes no such read, or one. A reset ends the poll too.
When a command completes is the model's notation (assumption log 4, 5). -/
def Obligations.PollSeesTheCompletedCommand : Prop :=
  (∀ (s : State) (rest : List Event), s.busy = false → s.arrivals = .poll :: rest →
    step s = .next { s with arrivals := rest, replies := statusWord s :: s.replies } ∧
    (statusWord s).extractLsb' 0 1 = 0) ∧
  (∀ (s : State) (w : Word) (rest : List Event), s.busy = false → s.arrivals = runWord s.cfg w ++ rest →
    (∀ r, rest ≠ .engine :: r ∧ rest ≠ .reset :: r) → let n := Config.pollReads s.freeCount
    ∃ t, core.run (n + 4) s = .next { t with arrivals := rest, replies := statusWord t :: t.replies } ∧
      exec (decode w)
        { s with
          cmd := w, busy := true, arrivals := .poll :: rest, freeCount := s.freeCount + 1
          replies := List.replicate n (statusWord s ||| 0x00000001) ++ s.replies } = .next t) ∧
  (∀ (s : State) (w : Word) (rest : List Event), s.busy = false →
    s.arrivals = wr32 s.cfg 0x000 w :: .engine :: .poll :: rest →
    ∃ t, core.run 3 s = .next { t with arrivals := rest, replies := statusWord t :: t.replies } ∧
      exec (decode w) { s with cmd := w, busy := true, arrivals := .poll :: rest } = .next t) ∧
  (∀ (s : State) (w : Word) (rest : List Event), s.busy = false → s.arrivals = runWord s.cfg w ++ .engine :: rest →
    ∃ t, core.run 5 s = .next { t with arrivals := rest, replies := statusWord t :: t.replies } ∧
      exec (decode w)
        { s with
          cmd := w, busy := true, arrivals := .poll :: rest, freeCount := s.freeCount + 1
          replies := (statusWord s ||| 0x00000001) :: s.replies } = .next t) ∧
  ∀ (s : State) (rest : List Event), s.busy = true → s.arrivals = .poll :: .reset :: rest →
    core.run 4 s = .next
      { State.resetFor s.cfg with
        arrivals := rest, replies := 0x00000000 :: statusWord s :: s.replies, freeCount := s.freeCount + 1 }

/-- `SETIN S` from an idle block leaves S in the IN window and its length in INLEN, and changes nothing else
(30_encoding.md R79). -/
def Obligations.SetInPlacesTheInput : Prop :=
  ∀ (s : State) (b : Bytes) (rest : List Event), s.cfg.ok → s.busy = false → b.length ≤ s.cfg.ibufSize →
    s.arrivals = setIn s.cfg b ++ rest →
    ∃ t, core.run (setIn s.cfg b).length s = .next t ∧
      t = { s with mem := t.mem, inlen := BitVec.ofNat 32 b.length, arrivals := rest } ∧
      ∀ a, Memory.read t.mem a =
        if inBase ≤ a ∧ a < inBase + b.length then b.getD (a - inBase) 0x00 else Memory.read s.mem a

/-- `RDOUT` from an idle block reads OUTLEN and then the bytes OUT[0 ..< OUTLEN] in order (30_encoding.md R79; assumption
log 11, 22). -/
def Obligations.ReadOutReturnsTheOutput : Prop :=
  ∀ (s : State) (rest : List Event), s.cfg.ok → s.busy = false → s.outlen.toNat ≤ s.cfg.obufSize →
    s.arrivals = rdOut ++ rest →
    core.run (1 + s.outlen.toNat) s = .next
      { s with
        arrivals := rest
        replies := ((outBytes s).map (BitVec.setWidth 32)).reverse ++ s.outlen :: s.replies }

/-! ## The primitive, padding and keys -/

/-- The laws of the block primitive, for FIPS-197 and for every uninterpreted one (40_primitive_and_key.md R91). -/
def Obligations.PrimitiveIsASymmetricInverse : Prop :=
  ∀ (prim : Primitive) (k : Bytes) (x : Block), k.length = 16 ∨ k.length = 24 ∨ k.length = 32 →
    aesDec prim k (aesEnc prim k x) = x ∧ aesEnc prim k (aesDec prim k x) = x

/-- `Unpad` accepts exactly the padded strings and gives the string back; every other block is a PaddingError
(40_primitive_and_key.md R92, R93). -/
def Obligations.UnpadAcceptsExactlyPaddedBlocks : Prop :=
  (∀ b : Bytes, b.length ≤ 15 → (pad b).1 = padded b) ∧
  (∀ (x : Block) (b : Bytes), unpad x = .ok b ↔ b.length ≤ 15 ∧ x.1 = padded b) ∧
  ∀ (x : Block) (e : ErrCode), unpad x = .error e → e = .paddingError

/-- `KeyCheck` (40_primitive_and_key.md R96). -/
def Obligations.KeyCheckAcceptsAesLengths : Prop :=
  ∀ bits len : Nat,
    (keyCheck bits len = .ok () ↔ (bits = 128 ∧ len = 16) ∨ (bits = 192 ∧ len = 24) ∨ (bits = 256 ∧ len = 32)) ∧
    (keyCheck bits len ≠ .ok () → keyCheck bits len = .error .invalidKeyLength)

/-! ## Session initialisation -/

/-- INIT with ECB or CBC completes and binds key, mode, direction and chaining block (41_mode_init.md R110, R111). -/
def Obligations.InitBindsKeyModeAndIv : Prop :=
  ∀ s : State, s.sess.st = .idle → s.keyOk →
    (∃ t, exec .encinitEcb s = .next t ∧ completed s t .ok [] ∧ t.kw = s.kw ∧
      t.sess = { st := .ready, dir := .encrypt, mode := .ecb, key := s.keyOf, cb := zeros 16, pend := [] }) ∧
    (∃ t, exec .decinitEcb s = .next t ∧ completed s t .ok [] ∧ t.kw = s.kw ∧
      t.sess = { st := .ready, dir := .decrypt, mode := .ecb, key := s.keyOf, cb := zeros 16, pend := [] }) ∧
    (ivBytes s = 16 →
      (∃ t, exec .encinitCbc s = .next t ∧ completed s t .ok [] ∧ t.kw = s.kw ∧
        t.sess = { st := .ready, dir := .encrypt, mode := .cbc, key := s.keyOf, cb := ivWindow s, pend := [] }) ∧
      (∃ t, exec .decinitCbc s = .next t ∧ completed s t .ok [] ∧ t.kw = s.kw ∧
        t.sess = { st := .ready, dir := .decrypt, mode := .cbc, key := s.keyOf, cb := ivWindow s, pend := [] }))

/-- INIT with an ALG that names no mode: InvalidMode from Idle, with no other effect (41_mode_init.md R110, R111). -/
def Obligations.InitWithBadSelectorReportsInvalidMode : Prop :=
  ∀ (s : State) (alg : BitVec 4), s.sess.st = .idle →
    (∃ t, exec (.encinitBadalg alg) s = .next t ∧ completed s t .invalidMode [] ∧ t.sess = s.sess ∧ t.kw = s.kw) ∧
    (∃ t, exec (.decinitBadalg alg) s = .next t ∧ completed s t .invalidMode [] ∧ t.sess = s.sess ∧ t.kw = s.kw)

/-- INIT reports the first of its errors in the order state, selector, key, IV; ECB reads no IV length
(41_mode_init.md R110 to R112, 60_exceptions.md R221, R230). -/
def Obligations.InitReportsItsFirstError : Prop :=
  ∀ (s t : State) (i : Instr), exec i s = .next t →
    ((i = .encinitEcb ∨ i = .decinitEcb) →
      t.err = if s.sess.st ≠ .idle then .invalidState else if ¬ s.keyOk then .invalidKeyLength else .ok) ∧
    ((i = .encinitCbc ∨ i = .decinitCbc) →
      t.err = if s.sess.st ≠ .idle then .invalidState else if ¬ s.keyOk then .invalidKeyLength
        else if ivBytes s ≠ 16 then .invalidIVLength else .ok) ∧
    (∀ alg, (i = .encinitBadalg alg ∨ i = .decinitBadalg alg) →
      t.err = if s.sess.st ≠ .idle then .invalidState else .invalidMode)

/-- Only a successful INIT goes from Idle to Ready, and it seeds the chaining block from the IV for CBC; a failed INIT never
enters Ready; and no other step of the machine makes a session Ready (41_mode_init.md R114). -/
def Obligations.OnlyInitEntersReady : Prop :=
  (∀ (i : Instr) (s t : State), exec i s = .next t → s.sess.st ≠ .ready → t.sess.st = .ready →
    s.sess.st = .idle ∧ t.err = .ok ∧
    (i = .encinitEcb ∨ i = .decinitEcb ∨ ((i = .encinitCbc ∨ i = .decinitCbc) ∧ t.sess.cb = ivWindow s))) ∧
  (∀ (i : Instr) (s t : State), exec i s = .next t → classOf i = .modeEngine → t.err ≠ .ok → t.sess.st ≠ .ready) ∧
  ∀ s t : State, step s = .next t → s.sess.st ≠ .ready → t.sess.st = .ready →
    s.busy = true ∧ s.sess.st = .idle ∧ t.err = .ok ∧
    decode s.cmd ∈ [Instr.encinitEcb, .encinitCbc, .decinitEcb, .decinitCbc]

/-- Once a session is Ready, the update and final commands read nothing of KEY, KEYCFG, IV and IVCFG: states that differ
only there complete alike (41_mode_init.md R113). -/
def Obligations.SessionIgnoresLaterKeyAndIvWrites : Prop :=
  ∀ (s : State) (keycfg ivcfg : Word) (mem : Memory) (i : Instr),
    (i = .encupd ∨ i = .decupd ∨ i = .encfin ∨ i = .decfin) → s.Inv →
    (∀ a, 0x10000 ≤ a → Memory.read mem a = Memory.read s.mem a) →
    ∃ t t', exec i s = .next t ∧ exec i { s with keycfg := keycfg, ivcfg := ivcfg, mem := mem } = .next t' ∧
      t'.sess = t.sess ∧ t'.err = t.err ∧ t'.outlen = t.outlen ∧ outBytes t' = outBytes t

/-! ## Streaming -/

/-- ENCUPD in a Ready encryption session: every complete block of PEND || IN[0 ..< INLEN] is encrypted, in CBC chained from
`sess.CB` on, the rest becomes PEND (42_mode_update.md R120, 40_primitive_and_key.md R94). -/
def Obligations.EncupdEncryptsEveryCompleteBlock : Prop :=
  ∀ s : State, s.Inv → s.inSession .encrypt → s.inputFits →
    let buf := s.sess.pend ++ s.inputOf
    let n := buf.length / 16
    ∃ t out, exec .encupd s = .next t ∧ completed s t .ok out ∧ t.kw = s.kw ∧ out.length = 16 * n ∧
      (s.sess.mode = .ecb →
        (∀ k < n, blockAt out k = aesEnc s.cfg.prim s.sess.key (blockAt buf k)) ∧
        t.sess = { s.sess with pend := buf.drop (16 * n) }) ∧
      (s.sess.mode = .cbc →
        (∀ k < n, blockAt out k = aesEnc s.cfg.prim s.sess.key
          (bxor (blockAt buf k) (if k = 0 then s.sess.cb else blockAt out (k - 1)))) ∧
        t.sess = { s.sess with pend := buf.drop (16 * n), cb := if n = 0 then s.sess.cb else blockAt out (n - 1) })

/-- DECUPD in a Ready decryption session: every complete block but the last one is decrypted, in CBC with the previous
ciphertext block, the rest is withheld in PEND (42_mode_update.md R121, R122; 40_primitive_and_key.md R95). -/
def Obligations.DecupdWithholdsTheLastCompleteBlock : Prop :=
  ∀ s : State, s.Inv → s.inSession .decrypt → s.inputFits →
    let buf := s.sess.pend ++ s.inputOf
    let n := buf.length / 16 - 1
    ∃ t out, exec .decupd s = .next t ∧ completed s t .ok out ∧ t.kw = s.kw ∧ out.length = 16 * n ∧
      (s.sess.mode = .ecb →
        (∀ k < n, blockAt out k = aesDec s.cfg.prim s.sess.key (blockAt buf k)) ∧
        t.sess = { s.sess with pend := buf.drop (16 * n) }) ∧
      (s.sess.mode = .cbc →
        (∀ k < n, blockAt out k = bxor (aesDec s.cfg.prim s.sess.key (blockAt buf k))
          (if k = 0 then s.sess.cb else blockAt buf (k - 1))) ∧
        t.sess = { s.sess with pend := buf.drop (16 * n), cb := if n = 0 then s.sess.cb else blockAt buf (n - 1) })

/-- The updates report InvalidState, else InputTooLong, else succeed (42_mode_update.md R120, R121; 60_exceptions.md R221). -/
def Obligations.UpdateReportsItsFirstError : Prop :=
  ∀ s t : State,
    (exec .encupd s = .next t →
      t.err = if ¬ s.inSession .encrypt then .invalidState else if ¬ s.inputFits then .inputTooLong else .ok) ∧
    (exec .decupd s = .next t →
      t.err = if ¬ s.inSession .decrypt then .invalidState else if ¬ s.inputFits then .inputTooLong else .ok)

/-- ENCFIN in a Ready encryption session: one block, the padded pending bytes encrypted, and the session ends wiped
(43_mode_final.md R140). -/
def Obligations.EncfinPadsAndEndsTheSession : Prop :=
  ∀ s : State, s.inSession .encrypt → s.sess.pend.length ≤ 15 →
    ∃ t c, exec .encfin s = .next t ∧ completed s t .ok c.1 ∧ t.kw = s.kw ∧ t.sess = Session.finalized ∧
      ∃ p : Block, p.1 = padded s.sess.pend ∧
        (s.sess.mode = .ecb → c = aesEnc s.cfg.prim s.sess.key p) ∧
        (s.sess.mode = .cbc → c = aesEnc s.cfg.prim s.sess.key (bxor p s.sess.cb))

/-- DECFIN in a Ready decryption session with one withheld block: the block is decrypted, its padding checked and stripped,
and the session ends wiped; bad padding gives PaddingError and no output (43_mode_final.md R141). -/
def Obligations.DecfinStripsPaddingAndEndsTheSession : Prop :=
  ∀ (s : State) (c x : Block), s.inSession .decrypt → s.sess.pend = c.1 →
    x = (match s.sess.mode with
      | .ecb => aesDec s.cfg.prim s.sess.key c
      | .cbc => bxor (aesDec s.cfg.prim s.sess.key c) s.sess.cb) →
    ∃ t, exec .decfin s = .next t ∧ t.sess = Session.finalized ∧ t.kw = s.kw ∧
      (∀ b : Bytes, b.length ≤ 15 → x.1 = padded b → completed s t .ok b) ∧
      ((¬ ∃ b : Bytes, b.length ≤ 15 ∧ x.1 = padded b) → completed s t .paddingError [])

/-- DECFIN's length errors, in their order, and the state check of both final commands; each of DECFIN's ends the session
(43_mode_final.md R140, R141; 60_exceptions.md R221, R230). -/
def Obligations.FinalReportsItsFirstError : Prop :=
  ∀ s t : State,
    (exec .encfin s = .next t → t.err = if ¬ s.inSession .encrypt then .invalidState else .ok) ∧
    (exec .decfin s = .next t →
      (¬ s.inSession .decrypt → t.err = .invalidState) ∧
      (s.inSession .decrypt → s.sess.pend.length % 16 ≠ 0 →
        completed s t .invalidCiphertextLength [] ∧ t.sess = Session.finalized) ∧
      (s.inSession .decrypt → s.sess.pend = [] → completed s t .noDataProcessed [] ∧ t.sess = Session.finalized) ∧
      (s.inSession .decrypt → s.sess.pend.length % 16 = 0 → s.sess.pend ≠ [] → t.err = .ok ∨ t.err = .paddingError))

/-- Sessions are one-shot: a FIN that succeeds, or any error of a mode-engine command in Ready, leaves Finalized; there every
mode-engine command fails with InvalidState and changes nothing but ERR and the zeroed output; only CLEAR and reset leave
it (43_mode_final.md R142). -/
def Obligations.SessionsAreOneShot : Prop :=
  (∀ (i : Instr) (s t : State), exec i s = .next t → s.sess.st = .ready → classOf i = .modeEngine →
    (t.err ≠ .ok ∨ i = .encfin ∨ i = .decfin) → t.sess.st = .finalized) ∧
  (∀ (i : Instr) (s : State), s.sess.st = .finalized → classOf i = .modeEngine →
    ∃ t, exec i s = .next t ∧ completed s t .invalidState [] ∧ t.sess = s.sess ∧ t.kw = s.kw) ∧
  (∀ s t : State, step s = .next t → s.sess.st = .finalized → t.sess.st ≠ .finalized →
    t.sess.st = .idle ∧ ((∃ rest, s.arrivals = .reset :: rest) ∨ (s.busy = true ∧ decode s.cmd = .clear)))

/-- Encryption does not depend on how the input is cut into chunks (42_mode_update.md R123, R124). -/
def Obligations.EncryptionIsIndependentOfChunking : Prop :=
  ∀ (s : State) (xs ys : List Bytes), s.Inv → s.inSession .encrypt → chunksFit s xs → chunksFit s ys →
    xs.flatten = ys.flatten →
    ∃ t u out, runSession .encupd .encfin s xs = some (t, out) ∧ runSession .encupd .encfin s ys = some (u, out) ∧
      t.sess = u.sess

/-- Decryption does not depend on how the input is cut into chunks: the updates release the same bytes in all and leave the
same session, and DECFIN then ends alike (42_mode_update.md R123, R124). -/
def Obligations.DecryptionIsIndependentOfChunking : Prop :=
  ∀ (s : State) (xs ys : List Bytes), s.Inv → s.inSession .decrypt → chunksFit s xs → chunksFit s ys →
    xs.flatten = ys.flatten →
    ∃ t u out, feed .decupd s xs = some (t, out) ∧ feed .decupd s ys = some (u, out) ∧ t.sess = u.sess ∧
      ∃ t' u', exec .decfin t = .next t' ∧ exec .decfin u = .next u' ∧ t'.err = u'.err ∧ outBytes t' = outBytes u' ∧
        t'.sess = u'.sess

/-- Round trip of a session: what an encryption session produced from any chunks, a decryption session with the same key, mode
and IV turns back into the plaintext, fed in any chunks, and every command succeeds (43_mode_final.md R143). -/
def Obligations.DecryptionInvertsEncryption : Prop :=
  ∀ (s d : State) (ps : List Bytes), s.Inv → d.Inv → s.inSession .encrypt → d.inSession .decrypt →
    s.sess.pend = [] → d.sess.pend = [] → d.cfg.prim = s.cfg.prim → d.sess.key = s.sess.key →
    d.sess.mode = s.sess.mode → d.sess.cb = s.sess.cb → chunksFit s ps →
    ∃ t c, runSession .encupd .encfin s ps = some (t, c) ∧
      ∀ cs : List Bytes, chunksFit d cs → cs.flatten = c → ∃ u, runSession .decupd .decfin d cs = some (u, ps.flatten)

/-! ## Key wrap -/

/-- The model's register passes compute what the two nested loops of 44_keywrap_rfc3394.md R160 and R162 compute on registers
updated in place. -/
def Obligations.RegisterLoopsAreAsWritten : Prop :=
  ∀ (prim : Primitive) (key : Bytes) (w : KeyWrapTemps),
    ((w3394 prim key w).a, (w3394 prim key w).r) = rfc3394Wrap prim key w.a w.r ∧
    ((u3394 prim key w).a, (u3394 prim key w).r) = rfc3394Unwrap prim key w.a w.r

/-- U3394 inverts W3394 for every valid key (44_keywrap_rfc3394.md R162). -/
def Obligations.UnwrapLoopInvertsWrapLoop : Prop :=
  ∀ (prim : Primitive) (key : Bytes) (a : Semi) (r : List Semi),
    key.length = 16 ∨ key.length = 24 ∨ key.length = 32 →
    rfc3394Unwrap prim key (rfc3394Wrap prim key a r).1 (rfc3394Wrap prim key a r).2 = (a, r)

/-- WRAP.KW completes with the wrapped key data (44_keywrap_rfc3394.md R161). -/
def Obligations.WrapKwOutputsTheWrappedKey : Prop :=
  ∀ s : State, s.cfg.ok → s.keyOk → s.inputFits → s.inlen.toNat % 8 = 0 → 16 ≤ s.inlen.toNat →
    ∃ t out, exec .wrapKw s = .next t ∧ completed s t .ok out ∧ t.sess = s.sess ∧ t.kw = KeyWrapTemps.zero ∧
      out.length = s.inlen.toNat + 8 ∧
      out = wrapOutput (rfc3394Wrap s.cfg.prim s.keyOf ⟨List.replicate 8 0xA6, rfl⟩ (registersOf s.inputOf))

/-- UNWRAP.KW completes with the key data when A is the constant, and with IntegrityCheckFailed and no output when not
(44_keywrap_rfc3394.md R163). -/
def Obligations.UnwrapKwChecksIntegrity : Prop :=
  ∀ s : State, s.cfg.ok → s.keyOk → s.inputFits → s.inlen.toNat % 8 = 0 → 24 ≤ s.inlen.toNat →
    ∃ t a p, recovered s.cfg.prim s.keyOf s.inputOf = (a, p) ∧ p.length = s.inlen.toNat - 8 ∧
      exec .unwrapKw s = .next t ∧ t.sess = s.sess ∧ t.kw = KeyWrapTemps.zero ∧
      (a.1 = List.replicate 8 0xA6 → completed s t .ok p) ∧
      (a.1 ≠ List.replicate 8 0xA6 → completed s t .integrityCheckFailed [])

/-- WRAP.KWP completes with one block for up to 8 bytes of key data and with the register loop for more
(45_keywrap_rfc5649.md R180 to R182). -/
def Obligations.WrapKwpOutputsTheWrappedKey : Prop :=
  ∀ s : State, s.cfg.ok → s.keyOk → s.inputFits → 1 ≤ s.inlen.toNat →
    let mli := s.inlen.toNat
    ∃ (t : State) (out pd : Bytes) (v : Semi), exec .wrapKwp s = .next t ∧ completed s t .ok out ∧ t.sess = s.sess ∧
      t.kw = KeyWrapTemps.zero ∧ out.length = 8 * ((mli + 7) / 8) + 8 ∧
      v.1 = [0xA6, 0x59, 0x59, 0xA6] ++ bigEndian 4 mli ∧ pd = s.inputOf ++ List.replicate ((8 - mli % 8) % 8) 0x00 ∧
      (mli ≤ 8 → out = (aesEnc s.cfg.prim s.keyOf (fitBytes 16 (v.1 ++ pd))).1) ∧
      (9 ≤ mli → out = wrapOutput (rfc3394Wrap s.cfg.prim s.keyOf v (registersOf pd)))

/-- UNWRAP.KWP checks the high half of A, then the message length indicator and the padding, and completes with the first MLI
bytes (45_keywrap_rfc5649.md R183, R184). -/
def Obligations.UnwrapKwpChecksIntegrityAndPadding : Prop :=
  ∀ s : State, s.cfg.ok → s.keyOk → s.inputFits → s.inlen.toNat % 8 = 0 → 16 ≤ s.inlen.toNat →
    ∃ t a p, recoveredPadded s.cfg.prim s.keyOf s.inputOf = (a, p) ∧ p.length = s.inlen.toNat - 8 ∧
      exec .unwrapKwp s = .next t ∧ t.sess = s.sess ∧ t.kw = KeyWrapTemps.zero ∧
      (high32 a ≠ 0xA65959A6 → completed s t .integrityCheckFailed []) ∧
      (high32 a = 0xA65959A6 → ¬ mliPasses (low32 a) p → completed s t .paddingError []) ∧
      (high32 a = 0xA65959A6 → mliPasses (low32 a) p → completed s t .ok (p.take (low32 a)))

/-- MLI = 0 never passes the check, nor does an MLI beyond the padded data (45_keywrap_rfc5649.md R184). -/
def Obligations.MliCheckIsTheSpecs : Prop :=
  (∀ (mli : Nat) (p : Bytes), (mliCheck mli p = .ok () ↔ mliPasses mli p) ∧
    (mliCheck mli p ≠ .ok () → mliCheck mli p = .error .paddingError)) ∧
  ∀ p : Bytes, 8 ≤ p.length → ¬ mliPasses 0 p ∧ ∀ mli, p.length < mli → ¬ mliPasses mli p

/-- The key-wrap commands report the first of key, input and length errors; the last two need the cipher
(60_exceptions.md R221, R230). -/
def Obligations.KeyWrapReportsItsFirstError : Prop :=
  ∀ (s t : State) (i : Instr), exec i s = .next t → classOf i = .keyWrap →
    (∀ alg, i = .wrapBadalg alg ∨ i = .unwrapBadalg alg → t.err = .invalidMode) ∧
    ((∀ alg, i ≠ .wrapBadalg alg ∧ i ≠ .unwrapBadalg alg) → ¬ s.keyOk → t.err = .invalidKeyLength) ∧
    ((∀ alg, i ≠ .wrapBadalg alg ∧ i ≠ .unwrapBadalg alg) → s.keyOk → ¬ s.inputFits → t.err = .inputTooLong) ∧
    (s.keyOk → s.inputFits →
      (i = .wrapKw → (t.err = if s.inlen.toNat % 8 ≠ 0 ∨ s.inlen.toNat < 16 then .invalidKeyDataLength else .ok)) ∧
      (i = .wrapKwp → (t.err = if s.inlen.toNat = 0 then .invalidKeyDataLength else .ok)) ∧
      (i = .unwrapKw → (t.err = .invalidWrappedLength ↔ s.inlen.toNat % 8 ≠ 0 ∨ s.inlen.toNat < 24)) ∧
      (i = .unwrapKwp → (t.err = .invalidWrappedLength ↔ s.inlen.toNat % 8 ≠ 0 ∨ s.inlen.toNat < 16)))

/-- WRAP and UNWRAP with an ALG that names no algorithm: InvalidMode in every session state, nothing else changes
(46_control.md R202). -/
def Obligations.KeyWrapWithBadSelectorReportsInvalidMode : Prop :=
  ∀ (s : State) (alg : BitVec 4),
    (∃ t, exec (.wrapBadalg alg) s = .next t ∧ completed s t .invalidMode [] ∧ t.sess = s.sess ∧
      t.kw = KeyWrapTemps.zero) ∧
    (∃ t, exec (.unwrapBadalg alg) s = .next t ∧ completed s t .invalidMode [] ∧ t.sess = s.sess ∧
      t.kw = KeyWrapTemps.zero)

/-- Key-wrap commands are stateless: their result depends on the parameters, KEYCFG, KEY, INLEN and IN alone, and they write
only OUT, OUTLEN and ERR (44_keywrap_rfc3394.md R164). -/
def Obligations.KeyWrapIsStateless : Prop :=
  ∀ (i : Instr) (s s' : State), classOf i = .keyWrap → s.cfg.ok → s'.cfg = s.cfg → s'.keycfg = s.keycfg →
    s'.inlen = s.inlen → (∀ k < 32, Memory.read s'.mem (keyBase + k) = Memory.read s.mem (keyBase + k)) →
    (∀ k < s.cfg.ibufSize, Memory.read s'.mem (inBase + k) = Memory.read s.mem (inBase + k)) →
    ∃ t t' e out, exec i s = .next t ∧ exec i s' = .next t' ∧ completed s t e out ∧ completed s' t' e out ∧
      t.sess = s.sess ∧ t'.sess = s'.sess ∧ t.kw = KeyWrapTemps.zero ∧ t'.kw = KeyWrapTemps.zero

/-- RFC 3394 round trip: UNWRAP.KW of WRAP.KW's output gives the key data back with ERR = 0 (45_keywrap_rfc5649.md R186). -/
def Obligations.UnwrapKwInvertsWrapKw : Prop :=
  ∀ s : State, s.cfg.ok → s.keyOk → s.inlen.toNat % 8 = 0 → 16 ≤ s.inlen.toNat → s.inlen.toNat + 8 ≤ s.cfg.ibufSize →
    ∃ t u, exec .wrapKw s = .next t ∧ exec .unwrapKw (t.withInput (outBytes t)) = .next u ∧ u.err = .ok ∧
      outBytes u = s.inputOf

/-- RFC 5649 round trip: UNWRAP.KWP of WRAP.KWP's output gives the key data back with ERR = 0, for every length that fits
(45_keywrap_rfc5649.md R186). -/
def Obligations.UnwrapKwpInvertsWrapKwp : Prop :=
  ∀ s : State, s.cfg.ok → s.keyOk → 1 ≤ s.inlen.toNat → s.inlen.toNat + 8 ≤ s.cfg.ibufSize →
    ∃ t u, exec .wrapKwp s = .next t ∧ exec .unwrapKwp (t.withInput (outBytes t)) = .next u ∧ u.err = .ok ∧
      outBytes u = s.inputOf

/-! ## Control and errors -/

/-- CLEAR succeeds in every state and leaves the reset state but for the CMD read value, and the model's own fields; its one
word is 0x00000009, and no other command leaves Finalized (46_control.md R205). -/
def Obligations.ClearEqualsResetButForCmd : Prop :=
  ∀ s : State,
    exec .clear s = .next
      { State.resetFor s.cfg with
        cmd := s.cmd, arrivals := s.arrivals, replies := s.replies, freeCount := s.freeCount } ∧
    (∀ t, exec .clear s = .next t → statusWord t = 0x00000000 ∧ ∀ a, Memory.read t.mem a = 0x00) ∧
    (∀ w : Word, decode w = .clear ↔ w = 0x00000009) ∧
    ∀ (i : Instr) (t : State), exec i s = .next t → s.sess.st = .finalized → t.sess.st ≠ .finalized → i = .clear

/-- An illegal word completes with IllegalCommand, ERR 0x0C, and leaves the session, Ready or not, and everything but ERR and
the zeroed output; 0x00000000 is one (46_control.md R206). -/
def Obligations.IllegalWordLeavesTheSession : Prop :=
  (∀ (s : State) (w : Word),
    ∃ t, exec (.illegal w) s = .next t ∧ completed s t .illegalCommand [] ∧ t.err.code = 0x0C ∧ t.sess = s.sess ∧
      t.kw = s.kw) ∧
  decode 0x00000000 = .illegal 0x00000000

/-- Error completion: a failed command has no output and no effect but on ERR and, by session state and command class, on the
session and the key-wrap temporaries (60_exceptions.md R224). -/
def Obligations.ErrorEffectsAreByClassAndState : Prop :=
  ∀ (i : Instr) (s t : State), exec i s = .next t → t.err ≠ .ok →
    completed s t t.err [] ∧
    (s.sess.st = .ready → classOf i = .modeEngine → t.sess = Session.finalized ∧ dirField t.sess = 0 ∧
      modeField t.sess = 0 ∧ plenField t.sess = 0) ∧
    ((s.sess.st ≠ .ready ∨ classOf i ≠ .modeEngine) → t.sess = s.sess) ∧
    t.kw = if classOf i = .keyWrap then KeyWrapTemps.zero else s.kw

/-- No output of an earlier command reaches the next one: commands from states that differ only in OUT and OUTLEN complete
alike, and OUT holds the output padded with zeros, which after a failure is all zeros (46_control.md R204). -/
def Obligations.OutputDoesNotSurviveTheNextCommand : Prop :=
  ∀ (i : Instr) (s : State) (old : Bytes) (len : Word), s.Inv → old.length ≤ s.cfg.obufSize →
    ∃ t t', exec i s = .next t ∧ exec i { s with mem := Memory.write s.mem outBase old, outlen := len } = .next t' ∧
      t'.err = t.err ∧ t'.outlen = t.outlen ∧ t'.sess = t.sess ∧ (t.err ≠ .ok → t.outlen = 0) ∧
      (∀ a, Memory.read t'.mem a = Memory.read t.mem a) ∧
      (∀ k, t.outlen.toNat ≤ k → k < s.cfg.obufSize → Memory.read t.mem (outBase + k) = 0x00)
end

