-- ==== Sys2Proof/Laws/Bytes.lean ====
section
/-! SUPPORT. The laws of byte strings: fixed-length cuts, exclusive-or, semi-blocks, big-endian conversions and pieces. -/

namespace Sys2Proof

/-! ## Cuts of a fixed length -/

theorem fitBytes_val (n : Nat) (b : Bytes) (h : n ≤ b.length) : (fitBytes n b).1 = b.take n := by
  simp [fitBytes, List.take_append_of_le_length h]

theorem fitBytes_val_eq (n : Nat) (b : Bytes) (h : b.length = n) : (fitBytes n b).1 = b := by
  rw [fitBytes_val n b (by omega), List.take_of_length_le (by omega)]

@[simp] theorem fitBytes_self {n : Nat} (x : BytesN n) : fitBytes n x.1 = x :=
  Subtype.ext (fitBytes_val_eq n x.1 x.2)

theorem fitBytes_append {n : Nat} (x : BytesN n) (b : Bytes) : fitBytes n (x.1 ++ b) = x := by
  apply Subtype.ext
  rw [fitBytes_val n _ (by simp [x.2])]
  simp [x.2]

/-! ## Exclusive-or -/

theorem zipWith_xor_cancel (a b : Bytes) (h : a.length = b.length) :
    List.zipWith (· ^^^ ·) (List.zipWith (· ^^^ ·) a b) b = a := by
  induction a generalizing b with
  | nil => simp
  | cons x xs ih =>
    cases b with
    | nil => simp at h
    | cons y ys => simp [ih ys (by simpa using h)]

/-- A mask applied twice is gone. -/
@[simp] theorem bxor_bxor_cancel {n : Nat} (x y : BytesN n) : bxor (bxor x y) y = x :=
  Subtype.ext (zipWith_xor_cancel x.1 y.1 (by rw [x.2, y.2]))

/-! ## Semi-blocks -/

@[simp] theorem high8_joinSemis (a r : Semi) : high8 (joinSemis a r) = a := by
  apply Subtype.ext
  simp [high8, joinSemis, a.2]

@[simp] theorem low8_joinSemis (a r : Semi) : low8 (joinSemis a r) = r := by
  apply Subtype.ext
  simp [low8, joinSemis, a.2]

@[simp] theorem joinSemis_high8_low8 (b : Block) : joinSemis (high8 b) (low8 b) = b :=
  Subtype.ext (List.take_append_drop 8 b.1)

/-! ## Big-endian conversions -/

theorem foldl_bigEndian (l : Bytes) (acc : Nat) :
    l.foldl (fun acc x => acc * 256 + x.toNat) acc = acc * 256 ^ l.length + beVal l := by
  induction l generalizing acc with
  | nil => simp [beVal]
  | cons x xs ih =>
    have h : beVal (x :: xs) = xs.foldl (fun acc x => acc * 256 + x.toNat) (0 * 256 + x.toNat) := rfl
    rw [List.foldl_cons, ih, h, ih, List.length_cons]
    ring

theorem beVal_append (a b : Bytes) : beVal (a ++ b) = beVal a * 256 ^ b.length + beVal b := by
  rw [beVal, List.foldl_append, foldl_bigEndian]
  rfl

/-- Reading a big-endian string back gives the value, as far as the width holds it. -/
theorem beVal_bigEndian (n v : Nat) : beVal (bigEndian n v) = v % 256 ^ n := by
  induction n with
  | zero => simp [bigEndian, beVal, Nat.mod_one]
  | succ n ih =>
    have h : bigEndian (n + 1) v = [BitVec.ofNat 8 (v / 256 ^ n)] ++ bigEndian n v := rfl
    rw [h, beVal_append, ih, bigEndian_length]
    have : beVal [BitVec.ofNat 8 (v / 256 ^ n)] = v / 256 ^ n % 256 := by simp [beVal]
    rw [this, pow_succ, Nat.mod_mul]
    ring

/-! ## Pieces -/

@[simp] theorem pieces_length (k n : Nat) (b : Bytes) : (pieces k n b).length = n := by
  induction n generalizing b with
  | zero => rfl
  | succ n ih => simp [pieces, ih]

@[simp] theorem joinPieces_nil {k : Nat} : joinPieces ([] : List (BytesN k)) = [] := rfl

@[simp] theorem joinPieces_cons {k : Nat} (x : BytesN k) (l : List (BytesN k)) :
    joinPieces (x :: l) = x.1 ++ joinPieces l := rfl

theorem joinPieces_append {k : Nat} (l l' : List (BytesN k)) :
    joinPieces (l ++ l') = joinPieces l ++ joinPieces l' := by
  simp [joinPieces]

@[simp] theorem joinPieces_length {k : Nat} (l : List (BytesN k)) : (joinPieces l).length = k * l.length := by
  induction l with
  | nil => simp
  | cons x l ih => simp [ih, x.2]; ring

/-- Cutting joined pieces gives them back. -/
theorem pieces_joinPieces {k : Nat} (l : List (BytesN k)) (rest : Bytes) :
    pieces k l.length (joinPieces l ++ rest) = l := by
  induction l with
  | nil => rfl
  | cons x l ih =>
    simp only [List.length_cons, joinPieces_cons, List.append_assoc, pieces, fitBytes_append]
    rw [List.drop_append_of_le_length (by rw [x.2]), List.drop_of_length_le (by rw [x.2]), List.nil_append, ih]

/-- Joining the pieces of a string gives back the part they cover. -/
theorem joinPieces_pieces (k n : Nat) (b : Bytes) (h : k * n ≤ b.length) : joinPieces (pieces k n b) = b.take (k * n) := by
  induction n generalizing b with
  | zero => simp [pieces]
  | succ n ih =>
    have hk : k + k * n ≤ b.length := by rw [Nat.mul_succ] at h; omega
    simp only [pieces, joinPieces_cons]
    rw [fitBytes_val k b (by omega), ih (b.drop k) (by simp; omega), Nat.mul_succ, Nat.add_comm (k * n) k,
      List.take_add]

/-- The first pieces of a string do not depend on what follows them. -/
theorem pieces_append (k n : Nat) (b rest : Bytes) (h : k * n ≤ b.length) :
    pieces k n (b ++ rest) = pieces k n b := by
  induction n generalizing b with
  | zero => rfl
  | succ n ih =>
    have hk : k + k * n ≤ b.length := by rw [Nat.mul_succ] at h; omega
    simp only [pieces]
    congr 1
    · apply Subtype.ext
      rw [fitBytes_val _ _ (by simp; omega), fitBytes_val _ _ (by omega), List.take_append_of_le_length (by omega)]
    · rw [List.drop_append_of_le_length (by omega)]
      exact ih _ (by simp; omega)

/-- More pieces are the first ones and then those of the rest. -/
theorem pieces_add (k m n : Nat) (b : Bytes) : pieces k (m + n) b = pieces k m b ++ pieces k n (b.drop (k * m)) := by
  induction m generalizing b with
  | zero => simp [pieces]
  | succ m ih =>
    rw [Nat.add_right_comm, pieces, pieces, ih, List.drop_drop, Nat.mul_succ, Nat.add_comm k (k * m)]
    rfl

end Sys2Proof
end

