-- ==== Sys2Proof/Laws/Aes.lean ====
section
/-! SUPPORT. The steps of the FIPS-197 rounds and their inverses cancel, one lemma for each step in each direction. -/

namespace Sys2Proof.Aes

open Sys2Proof

/-- A block is sixteen bytes. -/
theorem block_cases (s : Block) : ∃ a0 a1 a2 a3 a4 a5 a6 a7 a8 a9 a10 a11 a12 a13 a14 a15 : Byte,
    s.1 = [a0, a1, a2, a3, a4, a5, a6, a7, a8, a9, a10, a11, a12, a13, a14, a15] := by
  obtain ⟨l, h⟩ := s
  rcases l with _ | ⟨a0, _ | ⟨a1, _ | ⟨a2, _ | ⟨a3, _ | ⟨a4, _ | ⟨a5, _ | ⟨a6, _ | ⟨a7, _ | ⟨a8, _ | ⟨a9, _ | ⟨a10, _ | ⟨a11,
    _ | ⟨a12, _ | ⟨a13, _ | ⟨a14, _ | ⟨a15, _ | ⟨a16, l⟩⟩⟩⟩⟩⟩⟩⟩⟩⟩⟩⟩⟩⟩⟩⟩⟩ <;> simp at h
  exact ⟨a0, a1, a2, a3, a4, a5, a6, a7, a8, a9, a10, a11, a12, a13, a14, a15, rfl⟩

/-! ## SubBytes -/

theorem invSubByte_subByte : ∀ x : Byte, invSubByte (subByte x) = x := by decide +kernel

theorem subByte_invSubByte : ∀ x : Byte, subByte (invSubByte x) = x := by decide +kernel

theorem invSubBytes_subBytes (s : Block) : invSubBytes (subBytes s) = s :=
  Subtype.ext (by simp [invSubBytes, subBytes, Function.comp_def, invSubByte_subByte])

theorem subBytes_invSubBytes (s : Block) : subBytes (invSubBytes s) = s :=
  Subtype.ext (by simp [invSubBytes, subBytes, Function.comp_def, subByte_invSubByte])

/-! ## ShiftRows -/

theorem invShiftRows_shiftRows (s : Block) : invShiftRows (shiftRows s) = s := by
  obtain ⟨a0, a1, a2, a3, a4, a5, a6, a7, a8, a9, a10, a11, a12, a13, a14, a15, h⟩ := block_cases s
  apply Subtype.ext
  simp [invShiftRows, shiftRows, fitBytes, h]

theorem shiftRows_invShiftRows (s : Block) : shiftRows (invShiftRows s) = s := by
  obtain ⟨a0, a1, a2, a3, a4, a5, a6, a7, a8, a9, a10, a11, a12, a13, a14, a15, h⟩ := block_cases s
  apply Subtype.ext
  simp [invShiftRows, shiftRows, fitBytes, h]

/-! ## MixColumns -/

theorem xtime_xor (a b : Byte) : xtime (a ^^^ b) = xtime a ^^^ xtime b := by
  unfold xtime
  rw [BitVec.msb_xor, BitVec.shiftLeft_xor_distrib]
  cases a.msb <;> cases b.msb
  · simp
  · simp; ac_rfl
  · simp; ac_rfl
  · have h : ∀ x y z : Byte, (x ^^^ z) ^^^ (y ^^^ z) = x ^^^ y ^^^ (z ^^^ z) := by intros; ac_rfl
    simp [h]

/-- Multiplication by 03. -/
def mul03 (a : Byte) : Byte := xtime a ^^^ a

/-- A multiplication distributes over exclusive-or. -/
def additive (m : Byte → Byte) : Prop := ∀ a b, m (a ^^^ b) = m a ^^^ m b

theorem additive_xtime : additive xtime := xtime_xor

theorem additive_id : additive (fun a => a) := fun _ _ => rfl

theorem additive_mul03 : additive mul03 := by
  intro a b; simp only [mul03, xtime_xor]; ac_rfl

theorem additive_mul09 : additive mul09 := by
  intro a b; simp only [mul09, xtime_xor]; ac_rfl

theorem additive_mul0b : additive mul0b := by
  intro a b; simp only [mul0b, xtime_xor]; ac_rfl

theorem additive_mul0d : additive mul0d := by
  intro a b; simp only [mul0d, xtime_xor]; ac_rfl

theorem additive_mul0e : additive mul0e := by
  intro a b; simp only [mul0e, xtime_xor]; ac_rfl

/-- A row of additive functions applied to sums of columns is the sum of the row applied to each column. -/
theorem row_xor {m0 m1 m2 m3 : Byte → Byte} (h0 : additive m0) (h1 : additive m1) (h2 : additive m2) (h3 : additive m3)
    (a0 a1 a2 a3 b0 b1 b2 b3 c0 c1 c2 c3 d0 d1 d2 d3 : Byte) :
    m0 (a0 ^^^ b0 ^^^ c0 ^^^ d0) ^^^ m1 (a1 ^^^ b1 ^^^ c1 ^^^ d1) ^^^ m2 (a2 ^^^ b2 ^^^ c2 ^^^ d2)
        ^^^ m3 (a3 ^^^ b3 ^^^ c3 ^^^ d3)
      = (m0 a0 ^^^ m1 a1 ^^^ m2 a2 ^^^ m3 a3) ^^^ (m0 b0 ^^^ m1 b1 ^^^ m2 b2 ^^^ m3 b3)
        ^^^ (m0 c0 ^^^ m1 c1 ^^^ m2 c2 ^^^ m3 c3) ^^^ (m0 d0 ^^^ m1 d1 ^^^ m2 d2 ^^^ m3 d3) := by
  simp only [h0 _ _, h1 _ _, h2 _ _, h3 _ _]
  ac_rfl

/-- The entries of the product of the two matrices, on every byte. -/
theorem invMix_mix_entries : ∀ a : Byte,
    (mul0e (xtime a) ^^^ mul0b a ^^^ mul0d a ^^^ mul09 (mul03 a) = a ∧
     mul0e (mul03 a) ^^^ mul0b (xtime a) ^^^ mul0d a ^^^ mul09 a = 0 ∧
     mul0e a ^^^ mul0b (mul03 a) ^^^ mul0d (xtime a) ^^^ mul09 a = 0 ∧
     mul0e a ^^^ mul0b a ^^^ mul0d (mul03 a) ^^^ mul09 (xtime a) = 0) ∧
    (mul09 (xtime a) ^^^ mul0e a ^^^ mul0b a ^^^ mul0d (mul03 a) = 0 ∧
     mul09 (mul03 a) ^^^ mul0e (xtime a) ^^^ mul0b a ^^^ mul0d a = a ∧
     mul09 a ^^^ mul0e (mul03 a) ^^^ mul0b (xtime a) ^^^ mul0d a = 0 ∧
     mul09 a ^^^ mul0e a ^^^ mul0b (mul03 a) ^^^ mul0d (xtime a) = 0) ∧
    (mul0d (xtime a) ^^^ mul09 a ^^^ mul0e a ^^^ mul0b (mul03 a) = 0 ∧
     mul0d (mul03 a) ^^^ mul09 (xtime a) ^^^ mul0e a ^^^ mul0b a = 0 ∧
     mul0d a ^^^ mul09 (mul03 a) ^^^ mul0e (xtime a) ^^^ mul0b a = a ∧
     mul0d a ^^^ mul09 a ^^^ mul0e (mul03 a) ^^^ mul0b (xtime a) = 0) ∧
    (mul0b (xtime a) ^^^ mul0d a ^^^ mul09 a ^^^ mul0e (mul03 a) = 0 ∧
     mul0b (mul03 a) ^^^ mul0d (xtime a) ^^^ mul09 a ^^^ mul0e a = 0 ∧
     mul0b a ^^^ mul0d (mul03 a) ^^^ mul09 (xtime a) ^^^ mul0e a = 0 ∧
     mul0b a ^^^ mul0d a ^^^ mul09 (mul03 a) ^^^ mul0e (xtime a) = a) := by
  decide +kernel

/-- The entries of the product the other way round. -/
theorem mix_invMix_entries : ∀ a : Byte,
    (xtime (mul0e a) ^^^ mul03 (mul09 a) ^^^ mul0d a ^^^ mul0b a = a ∧
     xtime (mul0b a) ^^^ mul03 (mul0e a) ^^^ mul09 a ^^^ mul0d a = 0 ∧
     xtime (mul0d a) ^^^ mul03 (mul0b a) ^^^ mul0e a ^^^ mul09 a = 0 ∧
     xtime (mul09 a) ^^^ mul03 (mul0d a) ^^^ mul0b a ^^^ mul0e a = 0) ∧
    (mul0e a ^^^ xtime (mul09 a) ^^^ mul03 (mul0d a) ^^^ mul0b a = 0 ∧
     mul0b a ^^^ xtime (mul0e a) ^^^ mul03 (mul09 a) ^^^ mul0d a = a ∧
     mul0d a ^^^ xtime (mul0b a) ^^^ mul03 (mul0e a) ^^^ mul09 a = 0 ∧
     mul09 a ^^^ xtime (mul0d a) ^^^ mul03 (mul0b a) ^^^ mul0e a = 0) ∧
    (mul0e a ^^^ mul09 a ^^^ xtime (mul0d a) ^^^ mul03 (mul0b a) = 0 ∧
     mul0b a ^^^ mul0e a ^^^ xtime (mul09 a) ^^^ mul03 (mul0d a) = 0 ∧
     mul0d a ^^^ mul0b a ^^^ xtime (mul0e a) ^^^ mul03 (mul09 a) = a ∧
     mul09 a ^^^ mul0d a ^^^ xtime (mul0b a) ^^^ mul03 (mul0e a) = 0) ∧
    (mul03 (mul0e a) ^^^ mul09 a ^^^ mul0d a ^^^ xtime (mul0b a) = 0 ∧
     mul03 (mul0b a) ^^^ mul0e a ^^^ mul09 a ^^^ xtime (mul0d a) = 0 ∧
     mul03 (mul0d a) ^^^ mul0b a ^^^ mul0e a ^^^ xtime (mul09 a) = 0 ∧
     mul03 (mul09 a) ^^^ mul0d a ^^^ mul0b a ^^^ xtime (mul0e a) = a) := by
  decide +kernel

/-- InvMixColumns undoes MixColumns on one column. -/
theorem invMixColumn_mixColumn (a b c d : Byte) :
    ∃ e f g h, mixColumn a b c d = [e, f, g, h] ∧ invMixColumn e f g h = [a, b, c, d] := by
  refine ⟨_, _, _, _, rfl, ?_⟩
  obtain ⟨⟨a00, a01, a02, a03⟩, ⟨a10, a11, a12, a13⟩, ⟨a20, a21, a22, a23⟩, a30, a31, a32, a33⟩ :=
    invMix_mix_entries a
  obtain ⟨⟨b00, b01, b02, b03⟩, ⟨b10, b11, b12, b13⟩, ⟨b20, b21, b22, b23⟩, b30, b31, b32, b33⟩ :=
    invMix_mix_entries b
  obtain ⟨⟨c00, c01, c02, c03⟩, ⟨c10, c11, c12, c13⟩, ⟨c20, c21, c22, c23⟩, c30, c31, c32, c33⟩ :=
    invMix_mix_entries c
  obtain ⟨⟨d00, d01, d02, d03⟩, ⟨d10, d11, d12, d13⟩, ⟨d20, d21, d22, d23⟩, d30, d31, d32, d33⟩ :=
    invMix_mix_entries d
  have r0 := row_xor additive_mul0e additive_mul0b additive_mul0d additive_mul09
    (xtime a) a a (mul03 a) (mul03 b) (xtime b) b b c (mul03 c) (xtime c) c d d (mul03 d) (xtime d)
  rw [a00, b01, c02, d03] at r0
  have r1 := row_xor additive_mul09 additive_mul0e additive_mul0b additive_mul0d
    (xtime a) a a (mul03 a) (mul03 b) (xtime b) b b c (mul03 c) (xtime c) c d d (mul03 d) (xtime d)
  rw [a10, b11, c12, d13] at r1
  have r2 := row_xor additive_mul0d additive_mul09 additive_mul0e additive_mul0b
    (xtime a) a a (mul03 a) (mul03 b) (xtime b) b b c (mul03 c) (xtime c) c d d (mul03 d) (xtime d)
  rw [a20, b21, c22, d23] at r2
  have r3 := row_xor additive_mul0b additive_mul0d additive_mul09 additive_mul0e
    (xtime a) a a (mul03 a) (mul03 b) (xtime b) b b c (mul03 c) (xtime c) c d d (mul03 d) (xtime d)
  rw [a30, b31, c32, d33] at r3
  have z : ∀ x : Byte, x ^^^ 0 = x ∧ 0 ^^^ x = x := fun x => ⟨by simp, by simp⟩
  simp only [(z _).1, (z _).2] at r0 r1 r2 r3
  exact List.cons_eq_cons.2 ⟨r0, List.cons_eq_cons.2 ⟨r1, List.cons_eq_cons.2 ⟨r2, List.cons_eq_cons.2 ⟨r3, rfl⟩⟩⟩⟩

/-- MixColumns undoes InvMixColumns on one column. -/
theorem mixColumn_invMixColumn (a b c d : Byte) :
    ∃ e f g h, invMixColumn a b c d = [e, f, g, h] ∧ mixColumn e f g h = [a, b, c, d] := by
  refine ⟨_, _, _, _, rfl, ?_⟩
  obtain ⟨⟨a00, a01, a02, a03⟩, ⟨a10, a11, a12, a13⟩, ⟨a20, a21, a22, a23⟩, a30, a31, a32, a33⟩ :=
    mix_invMix_entries a
  obtain ⟨⟨b00, b01, b02, b03⟩, ⟨b10, b11, b12, b13⟩, ⟨b20, b21, b22, b23⟩, b30, b31, b32, b33⟩ :=
    mix_invMix_entries b
  obtain ⟨⟨c00, c01, c02, c03⟩, ⟨c10, c11, c12, c13⟩, ⟨c20, c21, c22, c23⟩, c30, c31, c32, c33⟩ :=
    mix_invMix_entries c
  obtain ⟨⟨d00, d01, d02, d03⟩, ⟨d10, d11, d12, d13⟩, ⟨d20, d21, d22, d23⟩, d30, d31, d32, d33⟩ :=
    mix_invMix_entries d
  have r0 := row_xor additive_xtime additive_mul03 additive_id additive_id
    (mul0e a) (mul09 a) (mul0d a) (mul0b a) (mul0b b) (mul0e b) (mul09 b) (mul0d b) (mul0d c) (mul0b c) (mul0e c) (mul09 c) (mul09 d) (mul0d d) (mul0b d) (mul0e d)
  rw [a00, b01, c02, d03] at r0
  have r1 := row_xor additive_id additive_xtime additive_mul03 additive_id
    (mul0e a) (mul09 a) (mul0d a) (mul0b a) (mul0b b) (mul0e b) (mul09 b) (mul0d b) (mul0d c) (mul0b c) (mul0e c) (mul09 c) (mul09 d) (mul0d d) (mul0b d) (mul0e d)
  rw [a10, b11, c12, d13] at r1
  have r2 := row_xor additive_id additive_id additive_xtime additive_mul03
    (mul0e a) (mul09 a) (mul0d a) (mul0b a) (mul0b b) (mul0e b) (mul09 b) (mul0d b) (mul0d c) (mul0b c) (mul0e c) (mul09 c) (mul09 d) (mul0d d) (mul0b d) (mul0e d)
  rw [a20, b21, c22, d23] at r2
  have r3 := row_xor additive_mul03 additive_id additive_id additive_xtime
    (mul0e a) (mul09 a) (mul0d a) (mul0b a) (mul0b b) (mul0e b) (mul09 b) (mul0d b) (mul0d c) (mul0b c) (mul0e c) (mul09 c) (mul09 d) (mul0d d) (mul0b d) (mul0e d)
  rw [a30, b31, c32, d33] at r3
  have z : ∀ x : Byte, x ^^^ 0 = x ∧ 0 ^^^ x = x := fun x => ⟨by simp, by simp⟩
  simp only [(z _).1, (z _).2] at r0 r1 r2 r3
  exact List.cons_eq_cons.2 ⟨r0, List.cons_eq_cons.2 ⟨r1, List.cons_eq_cons.2 ⟨r2, List.cons_eq_cons.2 ⟨r3, rfl⟩⟩⟩⟩

theorem invMixColumns_mixColumns (s : Block) : invMixColumns (mixColumns s) = s := by
  obtain ⟨a0, a1, a2, a3, a4, a5, a6, a7, a8, a9, a10, a11, a12, a13, a14, a15, hs⟩ := block_cases s
  obtain ⟨e0, f0, g0, h0, p0, q0⟩ := invMixColumn_mixColumn a0 a1 a2 a3
  obtain ⟨e1, f1, g1, h1, p1, q1⟩ := invMixColumn_mixColumn a4 a5 a6 a7
  obtain ⟨e2, f2, g2, h2, p2, q2⟩ := invMixColumn_mixColumn a8 a9 a10 a11
  obtain ⟨e3, f3, g3, h3, p3, q3⟩ := invMixColumn_mixColumn a12 a13 a14 a15
  apply Subtype.ext
  simp [invMixColumns, mixColumns, fitBytes, hs, onColumns, p0, p1, p2, p3, q0, q1, q2, q3]

theorem mixColumns_invMixColumns (s : Block) : mixColumns (invMixColumns s) = s := by
  obtain ⟨a0, a1, a2, a3, a4, a5, a6, a7, a8, a9, a10, a11, a12, a13, a14, a15, hs⟩ := block_cases s
  obtain ⟨e0, f0, g0, h0, p0, q0⟩ := mixColumn_invMixColumn a0 a1 a2 a3
  obtain ⟨e1, f1, g1, h1, p1, q1⟩ := mixColumn_invMixColumn a4 a5 a6 a7
  obtain ⟨e2, f2, g2, h2, p2, q2⟩ := mixColumn_invMixColumn a8 a9 a10 a11
  obtain ⟨e3, f3, g3, h3, p3, q3⟩ := mixColumn_invMixColumn a12 a13 a14 a15
  apply Subtype.ext
  simp [invMixColumns, mixColumns, fitBytes, hs, onColumns, p0, p1, p2, p3, q0, q1, q2, q3]

end Sys2Proof.Aes
end

