-- ==== Sys2Proof/Laws/Memory.lean ====
section
/-! SUPPORT. The laws of the windows' memory: reading after a write or an erasure, at every offset and for any list of cells;
and the canonical form, which every memory operation keeps. -/

namespace Sys2Proof.Machine

open Sys2Proof Host

theorem lookup_filter_of_true (m : Memory) (p : Nat → Bool) (a : Nat) (h : p a = true) :
    (m.filter (fun c => p c.1)).lookup a = m.lookup a := by
  induction m with
  | nil => rfl
  | cons c m ih =>
    obtain ⟨x, v⟩ := c
    by_cases hx : a = x
    · subst hx; simp [h]
    · by_cases hp : p x <;> simp [hp, List.lookup_cons, ih, beq_false_of_ne hx]

theorem lookup_filter_of_false (m : Memory) (p : Nat → Bool) (a : Nat) (h : p a = false) :
    (m.filter (fun c => p c.1)).lookup a = none := by
  induction m with
  | nil => rfl
  | cons c m ih =>
    obtain ⟨x, v⟩ := c
    by_cases hp : p x
    · have hx : a ≠ x := by rintro rfl; simp [h] at hp
      simp [hp, List.lookup_cons, ih, beq_false_of_ne hx]
    · simp [hp, ih]

theorem lookup_append (m m' : Memory) (a : Nat) : (m ++ m').lookup a = (m.lookup a).or (m'.lookup a) := by
  induction m with
  | nil => rfl
  | cons c m ih =>
    obtain ⟨x, v⟩ := c
    by_cases hx : a = x <;> simp [List.lookup_cons, hx, ih, beq_false_of_ne]

theorem lookup_cellsOf_below (bs : Bytes) (off a : Nat) (h : a < off) : (cellsOf off bs).lookup a = none := by
  induction bs generalizing off with
  | nil => rfl
  | cons b bs ih =>
    have hne : (a == off) = false := beq_false_of_ne (by omega)
    unfold cellsOf
    split <;> simp [List.lookup_cons, hne, ih (off + 1) (by omega)]

/-- What the cells of a string read as. -/
theorem lookup_cellsOf (bs : Bytes) (off a : Nat) :
    ((cellsOf off bs).lookup a).getD Memory.unlisted
      = if off ≤ a then bs.getD (a - off) Memory.unlisted else Memory.unlisted := by
  induction bs generalizing off with
  | nil => simp [cellsOf]
  | cons b bs ih =>
    by_cases hlt : a < off
    · rw [lookup_cellsOf_below _ _ _ hlt, if_neg (by omega)]; rfl
    · rw [if_pos (by omega)]
      by_cases ha : a = off
      · subst ha
        unfold cellsOf
        split
        · rename_i hb; rw [lookup_cellsOf_below _ _ _ (by omega)]; simp [hb]
        · simp
      · have hne : (a == off) = false := beq_false_of_ne ha
        have hsub : a - off = (a - (off + 1)) + 1 := by omega
        have := ih (off + 1)
        rw [if_pos (by omega)] at this
        unfold cellsOf
        split <;> simp [List.lookup_cons, hne, this, hsub]

theorem lookup_cellsOf_above (bs : Bytes) (off a : Nat) (h : off + bs.length ≤ a) : (cellsOf off bs).lookup a = none := by
  induction bs generalizing off with
  | nil => rfl
  | cons b bs ih =>
    simp only [List.length_cons] at h
    have hne : (a == off) = false := beq_false_of_ne (by omega)
    unfold cellsOf
    split <;> simp [List.lookup_cons, hne, ih (off + 1) (by omega)]

/-- Reading one byte after a store: the stored byte in the stored range, the old byte elsewhere. -/
theorem read_write (m : Memory) (off : Nat) (bs : Bytes) (a : Nat) :
    Memory.read (Memory.write m off bs) a
      = if off ≤ a ∧ a < off + bs.length then bs.getD (a - off) Memory.unlisted else Memory.read m a := by
  unfold Memory.read Memory.write
  rw [List.append_assoc, lookup_append, lookup_append]
  by_cases h1 : a < off
  · rw [lookup_filter_of_true m (fun x => decide (x < off)) a (by simpa using h1),
      lookup_cellsOf_below _ _ _ h1,
      lookup_filter_of_false m (fun x => decide (off + bs.length ≤ x)) a (by simp; omega), if_neg (by omega)]
    simp
  · rw [lookup_filter_of_false m (fun x => decide (x < off)) a (by simpa using h1)]
    by_cases h2 : a < off + bs.length
    · rw [lookup_filter_of_false m (fun x => decide (off + bs.length ≤ x)) a (by simpa using h2),
        if_pos (by omega)]
      have := lookup_cellsOf bs off a
      rw [if_pos (by omega)] at this
      simpa using this
    · rw [lookup_filter_of_true m (fun x => decide (off + bs.length ≤ x)) a (by simp; omega),
        lookup_cellsOf_above _ _ _ (by omega), if_neg (by omega)]
      simp

/-- Reading one byte after an erasure. -/
theorem read_erase (m : Memory) (off n a : Nat) :
    Memory.read (Memory.erase m off n) a
      = if off ≤ a ∧ a < off + n then Memory.unlisted else Memory.read m a := by
  unfold Memory.read Memory.erase
  by_cases h : off ≤ a ∧ a < off + n
  · rw [lookup_filter_of_false m (fun x => decide (x < off) || decide (off + n ≤ x)) a (by simp; omega), if_pos h]
    rfl
  · rw [lookup_filter_of_true m (fun x => decide (x < off) || decide (off + n ≤ x)) a (by simp; omega), if_neg h]

theorem read_cons (c : Cell) (m : Memory) (a : Nat) :
    Memory.read (c :: m) a = if a = c.1 then c.2 else Memory.read m a := by
  obtain ⟨x, v⟩ := c
  by_cases h : a = x
  · simp [Memory.read, h]
  · simp [Memory.read, List.lookup_cons, h, beq_false_of_ne h]

/-- An offset that no cell names reads as an unlisted byte. -/
theorem read_of_not_listed (m : Memory) (a : Nat) (h : ∀ c ∈ m, c.1 ≠ a) : Memory.read m a = Memory.unlisted := by
  induction m with
  | nil => rfl
  | cons c m ih =>
    rw [read_cons, if_neg (fun e => h c List.mem_cons_self e.symm), ih (fun d hd => h d (List.mem_cons_of_mem c hd))]

@[simp] theorem read_nil (a : Nat) : Memory.read [] a = Memory.unlisted := rfl

@[simp] theorem readRange_length (m : Memory) (off n : Nat) : (Memory.readRange m off n).length = n := by
  simp [Memory.readRange]

/-- Reading back a stored range. -/
theorem readRange_write (m : Memory) (off : Nat) (bs : Bytes) :
    Memory.readRange (Memory.write m off bs) off bs.length = bs := by
  apply List.ext_getElem
  · simp
  · intro i h1 h2
    simp [Memory.readRange, read_write, h2]

/-- A range reads alike in memories that agree on it. -/
theorem readRange_congr (m m' : Memory) (off n : Nat)
    (h : ∀ k < n, Memory.read m (off + k) = Memory.read m' (off + k)) :
    Memory.readRange m off n = Memory.readRange m' off n := by
  simp only [Memory.readRange]
  exact List.map_congr_left (fun k hk => h k (List.mem_range.1 hk))

/-! ## The canonical form -/

theorem mem_cellsOf (bs : Bytes) (off : Nat) (c : Cell) (h : c ∈ cellsOf off bs) :
    off ≤ c.1 ∧ c.1 < off + bs.length ∧ c.2 ≠ Memory.unlisted := by
  induction bs generalizing off with
  | nil => simp [cellsOf] at h
  | cons b bs ih =>
    have step : c ∈ cellsOf (off + 1) bs → off ≤ c.1 ∧ c.1 < off + (b :: bs).length ∧ c.2 ≠ Memory.unlisted := by
      intro h'
      obtain ⟨h1, h2, h3⟩ := ih (off + 1) h'
      exact ⟨by omega, by simp only [List.length_cons]; omega, h3⟩
    unfold cellsOf at h
    split at h
    · exact step h
    · rename_i hb
      rcases List.mem_cons.1 h with h' | h'
      · subst h'; exact ⟨by simp, by simp, hb⟩
      · exact step h'

theorem cellsOf_sorted (bs : Bytes) (off : Nat) : ((cellsOf off bs).map (·.1)).Pairwise (· < ·) := by
  induction bs generalizing off with
  | nil => simp [cellsOf]
  | cons b bs ih =>
    unfold cellsOf
    split
    · exact ih (off + 1)
    · simp only [List.map_cons, List.pairwise_cons]
      refine ⟨?_, ih (off + 1)⟩
      intro a ha
      obtain ⟨c, hc, rfl⟩ := List.mem_map.1 ha
      have := (mem_cellsOf bs (off + 1) c hc).1
      omega

theorem filter_sorted (m : Memory) (p : Cell → Bool) (h : (m.map (·.1)).Pairwise (· < ·)) :
    ((m.filter p).map (·.1)).Pairwise (· < ·) :=
  h.sublist (List.Sublist.map _ List.filter_sublist)

/-- A cell of a memory after a store is a cell of the stored string or an old one outside the stored range. -/
theorem mem_write (m : Memory) (off : Nat) (bs : Bytes) (c : Cell) (h : c ∈ Memory.write m off bs) :
    (off ≤ c.1 ∧ c.1 < off + bs.length ∧ c.2 ≠ Memory.unlisted) ∨
    (c ∈ m ∧ (c.1 < off ∨ off + bs.length ≤ c.1)) := by
  simp only [Memory.write, List.mem_append, List.mem_filter, decide_eq_true_eq] at h
  rcases h with (⟨hc, hlt⟩ | hc) | ⟨hc, hge⟩
  · exact .inr ⟨hc, .inl hlt⟩
  · exact .inl (mem_cellsOf bs off c hc)
  · exact .inr ⟨hc, .inr hge⟩

/-- A store keeps the canonical form. -/
theorem write_wf (m : Memory) (off : Nat) (bs : Bytes) (h : Memory.wf m) : Memory.wf (Memory.write m off bs) := by
  refine ⟨?_, ?_⟩
  · simp only [Memory.write, List.map_append, List.pairwise_append, List.mem_append, List.mem_map, List.mem_filter,
      decide_eq_true_eq]
    refine ⟨⟨filter_sorted _ _ h.1, cellsOf_sorted bs off, ?_⟩, filter_sorted _ _ h.1, ?_⟩
    · rintro a ⟨c, ⟨_, hc⟩, rfl⟩ b ⟨d, hd, rfl⟩
      have := (mem_cellsOf bs off d hd).1
      omega
    · rintro a (⟨c, ⟨_, hc⟩, rfl⟩ | ⟨c, hc, rfl⟩) b ⟨d, ⟨_, hd⟩, rfl⟩
      · omega
      · have := (mem_cellsOf bs off c hc).2.1
        omega
  · intro c hc
    rcases mem_write m off bs c hc with ⟨_, _, h3⟩ | ⟨hm, _⟩
    · exact h3
    · exact h.2 c hm

/-- A cell of a memory after an erasure is an old one outside the erased range. -/
theorem mem_erase (m : Memory) (off n : Nat) (c : Cell) (h : c ∈ Memory.erase m off n) :
    c ∈ m ∧ (c.1 < off ∨ off + n ≤ c.1) := by
  simpa [Memory.erase] using h

/-- An erasure keeps the canonical form. -/
theorem erase_wf (m : Memory) (off n : Nat) (h : Memory.wf m) : Memory.wf (Memory.erase m off n) :=
  ⟨filter_sorted _ _ h.1, fun c hc => h.2 c (mem_erase m off n c hc).1⟩

/-- The memory after reset has the canonical form. -/
theorem nil_wf : Memory.wf [] := ⟨List.Pairwise.nil, fun _ h => absurd h List.not_mem_nil⟩

end Sys2Proof.Machine
end

