-- ==== Sys2Proof/Laws/State.lean ====
section
/-! SUPPORT. One lemma per field for each named update of the state, so that no later proof unfolds a record update. -/

namespace Sys2Proof.Machine

open Sys2Proof

/-! ## beginCommand -/

@[simp] theorem beginCommand_cfg (s : State) : (beginCommand s).cfg = s.cfg := rfl
@[simp] theorem beginCommand_cmd (s : State) : (beginCommand s).cmd = s.cmd := rfl
@[simp] theorem beginCommand_busy (s : State) : (beginCommand s).busy = s.busy := rfl
@[simp] theorem beginCommand_busywr (s : State) : (beginCommand s).busywr = s.busywr := rfl
@[simp] theorem beginCommand_err (s : State) : (beginCommand s).err = s.err := rfl
@[simp] theorem beginCommand_inlen (s : State) : (beginCommand s).inlen = s.inlen := rfl
@[simp] theorem beginCommand_outlen (s : State) : (beginCommand s).outlen = 0 := rfl
@[simp] theorem beginCommand_keycfg (s : State) : (beginCommand s).keycfg = s.keycfg := rfl
@[simp] theorem beginCommand_ivcfg (s : State) : (beginCommand s).ivcfg = s.ivcfg := rfl
@[simp] theorem beginCommand_mem (s : State) : (beginCommand s).mem = Memory.erase s.mem outBase s.cfg.obufSize := rfl
@[simp] theorem beginCommand_sess (s : State) : (beginCommand s).sess = s.sess := rfl
@[simp] theorem beginCommand_kw (s : State) : (beginCommand s).kw = s.kw := rfl
@[simp] theorem beginCommand_arrivals (s : State) : (beginCommand s).arrivals = s.arrivals := rfl
@[simp] theorem beginCommand_replies (s : State) : (beginCommand s).replies = s.replies := rfl
@[simp] theorem beginCommand_freeCount (s : State) : (beginCommand s).freeCount = s.freeCount := rfl

/-! ## complete -/

@[simp] theorem complete_cfg (out : Bytes) (s : State) : (complete out s).cfg = s.cfg := rfl
@[simp] theorem complete_cmd (out : Bytes) (s : State) : (complete out s).cmd = s.cmd := rfl
@[simp] theorem complete_busy (out : Bytes) (s : State) : (complete out s).busy = false := rfl
@[simp] theorem complete_busywr (out : Bytes) (s : State) : (complete out s).busywr = s.busywr := rfl
@[simp] theorem complete_err (out : Bytes) (s : State) : (complete out s).err = .ok := rfl
@[simp] theorem complete_inlen (out : Bytes) (s : State) : (complete out s).inlen = s.inlen := rfl
@[simp] theorem complete_outlen (out : Bytes) (s : State) : (complete out s).outlen = BitVec.ofNat 32 out.length := rfl
@[simp] theorem complete_keycfg (out : Bytes) (s : State) : (complete out s).keycfg = s.keycfg := rfl
@[simp] theorem complete_ivcfg (out : Bytes) (s : State) : (complete out s).ivcfg = s.ivcfg := rfl
@[simp] theorem complete_mem (out : Bytes) (s : State) : (complete out s).mem = Memory.write s.mem outBase out := rfl
@[simp] theorem complete_sess (out : Bytes) (s : State) : (complete out s).sess = s.sess := rfl
@[simp] theorem complete_kw (out : Bytes) (s : State) : (complete out s).kw = s.kw := rfl
@[simp] theorem complete_arrivals (out : Bytes) (s : State) : (complete out s).arrivals = s.arrivals := rfl
@[simp] theorem complete_replies (out : Bytes) (s : State) : (complete out s).replies = s.replies := rfl
@[simp] theorem complete_freeCount (out : Bytes) (s : State) : (complete out s).freeCount = s.freeCount := rfl

/-! ## wipeSession -/

@[simp] theorem wipeSession_cfg (s : State) : (wipeSession s).cfg = s.cfg := rfl
@[simp] theorem wipeSession_cmd (s : State) : (wipeSession s).cmd = s.cmd := rfl
@[simp] theorem wipeSession_busy (s : State) : (wipeSession s).busy = s.busy := rfl
@[simp] theorem wipeSession_busywr (s : State) : (wipeSession s).busywr = s.busywr := rfl
@[simp] theorem wipeSession_err (s : State) : (wipeSession s).err = s.err := rfl
@[simp] theorem wipeSession_inlen (s : State) : (wipeSession s).inlen = s.inlen := rfl
@[simp] theorem wipeSession_outlen (s : State) : (wipeSession s).outlen = s.outlen := rfl
@[simp] theorem wipeSession_keycfg (s : State) : (wipeSession s).keycfg = s.keycfg := rfl
@[simp] theorem wipeSession_ivcfg (s : State) : (wipeSession s).ivcfg = s.ivcfg := rfl
@[simp] theorem wipeSession_mem (s : State) : (wipeSession s).mem = s.mem := rfl
@[simp] theorem wipeSession_sess (s : State) : (wipeSession s).sess = Session.wiped s.sess := rfl
@[simp] theorem wipeSession_kw (s : State) : (wipeSession s).kw = s.kw := rfl
@[simp] theorem wipeSession_arrivals (s : State) : (wipeSession s).arrivals = s.arrivals := rfl
@[simp] theorem wipeSession_replies (s : State) : (wipeSession s).replies = s.replies := rfl
@[simp] theorem wipeSession_freeCount (s : State) : (wipeSession s).freeCount = s.freeCount := rfl

/-! ## wipeWrap -/

@[simp] theorem wipeWrap_cfg (s : State) : (wipeWrap s).cfg = s.cfg := rfl
@[simp] theorem wipeWrap_cmd (s : State) : (wipeWrap s).cmd = s.cmd := rfl
@[simp] theorem wipeWrap_busy (s : State) : (wipeWrap s).busy = s.busy := rfl
@[simp] theorem wipeWrap_busywr (s : State) : (wipeWrap s).busywr = s.busywr := rfl
@[simp] theorem wipeWrap_err (s : State) : (wipeWrap s).err = s.err := rfl
@[simp] theorem wipeWrap_inlen (s : State) : (wipeWrap s).inlen = s.inlen := rfl
@[simp] theorem wipeWrap_outlen (s : State) : (wipeWrap s).outlen = s.outlen := rfl
@[simp] theorem wipeWrap_keycfg (s : State) : (wipeWrap s).keycfg = s.keycfg := rfl
@[simp] theorem wipeWrap_ivcfg (s : State) : (wipeWrap s).ivcfg = s.ivcfg := rfl
@[simp] theorem wipeWrap_mem (s : State) : (wipeWrap s).mem = s.mem := rfl
@[simp] theorem wipeWrap_sess (s : State) : (wipeWrap s).sess = s.sess := rfl
@[simp] theorem wipeWrap_kw (s : State) : (wipeWrap s).kw = KeyWrapTemps.zero := rfl
@[simp] theorem wipeWrap_arrivals (s : State) : (wipeWrap s).arrivals = s.arrivals := rfl
@[simp] theorem wipeWrap_replies (s : State) : (wipeWrap s).replies = s.replies := rfl
@[simp] theorem wipeWrap_freeCount (s : State) : (wipeWrap s).freeCount = s.freeCount := rfl

/-! ## setSessState -/

@[simp] theorem setSessState_cfg (x : SessState) (s : State) : (setSessState x s).cfg = s.cfg := rfl
@[simp] theorem setSessState_cmd (x : SessState) (s : State) : (setSessState x s).cmd = s.cmd := rfl
@[simp] theorem setSessState_busy (x : SessState) (s : State) : (setSessState x s).busy = s.busy := rfl
@[simp] theorem setSessState_busywr (x : SessState) (s : State) : (setSessState x s).busywr = s.busywr := rfl
@[simp] theorem setSessState_err (x : SessState) (s : State) : (setSessState x s).err = s.err := rfl
@[simp] theorem setSessState_inlen (x : SessState) (s : State) : (setSessState x s).inlen = s.inlen := rfl
@[simp] theorem setSessState_outlen (x : SessState) (s : State) : (setSessState x s).outlen = s.outlen := rfl
@[simp] theorem setSessState_keycfg (x : SessState) (s : State) : (setSessState x s).keycfg = s.keycfg := rfl
@[simp] theorem setSessState_ivcfg (x : SessState) (s : State) : (setSessState x s).ivcfg = s.ivcfg := rfl
@[simp] theorem setSessState_mem (x : SessState) (s : State) : (setSessState x s).mem = s.mem := rfl
@[simp] theorem setSessState_sess (x : SessState) (s : State) : (setSessState x s).sess = { s.sess with st := x } := rfl
@[simp] theorem setSessState_kw (x : SessState) (s : State) : (setSessState x s).kw = s.kw := rfl
@[simp] theorem setSessState_arrivals (x : SessState) (s : State) : (setSessState x s).arrivals = s.arrivals := rfl
@[simp] theorem setSessState_replies (x : SessState) (s : State) : (setSessState x s).replies = s.replies := rfl
@[simp] theorem setSessState_freeCount (x : SessState) (s : State) : (setSessState x s).freeCount = s.freeCount := rfl

/-! ## endSession -/

@[simp] theorem endSession_cfg (s : State) : (endSession s).cfg = s.cfg := rfl
@[simp] theorem endSession_cmd (s : State) : (endSession s).cmd = s.cmd := rfl
@[simp] theorem endSession_busy (s : State) : (endSession s).busy = s.busy := rfl
@[simp] theorem endSession_busywr (s : State) : (endSession s).busywr = s.busywr := rfl
@[simp] theorem endSession_err (s : State) : (endSession s).err = s.err := rfl
@[simp] theorem endSession_inlen (s : State) : (endSession s).inlen = s.inlen := rfl
@[simp] theorem endSession_outlen (s : State) : (endSession s).outlen = s.outlen := rfl
@[simp] theorem endSession_keycfg (s : State) : (endSession s).keycfg = s.keycfg := rfl
@[simp] theorem endSession_ivcfg (s : State) : (endSession s).ivcfg = s.ivcfg := rfl
@[simp] theorem endSession_mem (s : State) : (endSession s).mem = s.mem := rfl
@[simp] theorem endSession_sess (s : State) : (endSession s).sess = { Session.reset with st := .finalized } := rfl
@[simp] theorem endSession_kw (s : State) : (endSession s).kw = s.kw := rfl
@[simp] theorem endSession_arrivals (s : State) : (endSession s).arrivals = s.arrivals := rfl
@[simp] theorem endSession_replies (s : State) : (endSession s).replies = s.replies := rfl
@[simp] theorem endSession_freeCount (s : State) : (endSession s).freeCount = s.freeCount := rfl

/-! ## clearAll -/

@[simp] theorem clearAll_cfg (s : State) : (clearAll s).cfg = s.cfg := rfl
@[simp] theorem clearAll_cmd (s : State) : (clearAll s).cmd = s.cmd := rfl
@[simp] theorem clearAll_busy (s : State) : (clearAll s).busy = s.busy := rfl
@[simp] theorem clearAll_busywr (s : State) : (clearAll s).busywr = false := rfl
@[simp] theorem clearAll_err (s : State) : (clearAll s).err = .ok := rfl
@[simp] theorem clearAll_inlen (s : State) : (clearAll s).inlen = 0 := rfl
@[simp] theorem clearAll_outlen (s : State) : (clearAll s).outlen = 0 := rfl
@[simp] theorem clearAll_keycfg (s : State) : (clearAll s).keycfg = 0 := rfl
@[simp] theorem clearAll_ivcfg (s : State) : (clearAll s).ivcfg = 0 := rfl
@[simp] theorem clearAll_mem (s : State) : (clearAll s).mem = [] := rfl
@[simp] theorem clearAll_sess (s : State) : (clearAll s).sess = Session.reset := rfl
@[simp] theorem clearAll_kw (s : State) : (clearAll s).kw = KeyWrapTemps.zero := rfl
@[simp] theorem clearAll_arrivals (s : State) : (clearAll s).arrivals = s.arrivals := rfl
@[simp] theorem clearAll_replies (s : State) : (clearAll s).replies = s.replies := rfl
@[simp] theorem clearAll_freeCount (s : State) : (clearAll s).freeCount = s.freeCount := rfl

/-! ## loadWrap -/

@[simp] theorem loadWrap_cfg (a : Semi) (r : List Semi) (s : State) : (loadWrap a r s).cfg = s.cfg := rfl
@[simp] theorem loadWrap_cmd (a : Semi) (r : List Semi) (s : State) : (loadWrap a r s).cmd = s.cmd := rfl
@[simp] theorem loadWrap_busy (a : Semi) (r : List Semi) (s : State) : (loadWrap a r s).busy = s.busy := rfl
@[simp] theorem loadWrap_busywr (a : Semi) (r : List Semi) (s : State) : (loadWrap a r s).busywr = s.busywr := rfl
@[simp] theorem loadWrap_err (a : Semi) (r : List Semi) (s : State) : (loadWrap a r s).err = s.err := rfl
@[simp] theorem loadWrap_inlen (a : Semi) (r : List Semi) (s : State) : (loadWrap a r s).inlen = s.inlen := rfl
@[simp] theorem loadWrap_outlen (a : Semi) (r : List Semi) (s : State) : (loadWrap a r s).outlen = s.outlen := rfl
@[simp] theorem loadWrap_keycfg (a : Semi) (r : List Semi) (s : State) : (loadWrap a r s).keycfg = s.keycfg := rfl
@[simp] theorem loadWrap_ivcfg (a : Semi) (r : List Semi) (s : State) : (loadWrap a r s).ivcfg = s.ivcfg := rfl
@[simp] theorem loadWrap_mem (a : Semi) (r : List Semi) (s : State) : (loadWrap a r s).mem = s.mem := rfl
@[simp] theorem loadWrap_sess (a : Semi) (r : List Semi) (s : State) : (loadWrap a r s).sess = s.sess := rfl
@[simp] theorem loadWrap_kw (a : Semi) (r : List Semi) (s : State) : (loadWrap a r s).kw = { s.kw with a := a, r := r } := rfl
@[simp] theorem loadWrap_arrivals (a : Semi) (r : List Semi) (s : State) : (loadWrap a r s).arrivals = s.arrivals := rfl
@[simp] theorem loadWrap_replies (a : Semi) (r : List Semi) (s : State) : (loadWrap a r s).replies = s.replies := rfl
@[simp] theorem loadWrap_freeCount (a : Semi) (r : List Semi) (s : State) : (loadWrap a r s).freeCount = s.freeCount := rfl

/-! ## runWrap -/

@[simp] theorem runWrap_cfg (k : Bytes) (s : State) : (runWrap k s).cfg = s.cfg := rfl
@[simp] theorem runWrap_cmd (k : Bytes) (s : State) : (runWrap k s).cmd = s.cmd := rfl
@[simp] theorem runWrap_busy (k : Bytes) (s : State) : (runWrap k s).busy = s.busy := rfl
@[simp] theorem runWrap_busywr (k : Bytes) (s : State) : (runWrap k s).busywr = s.busywr := rfl
@[simp] theorem runWrap_err (k : Bytes) (s : State) : (runWrap k s).err = s.err := rfl
@[simp] theorem runWrap_inlen (k : Bytes) (s : State) : (runWrap k s).inlen = s.inlen := rfl
@[simp] theorem runWrap_outlen (k : Bytes) (s : State) : (runWrap k s).outlen = s.outlen := rfl
@[simp] theorem runWrap_keycfg (k : Bytes) (s : State) : (runWrap k s).keycfg = s.keycfg := rfl
@[simp] theorem runWrap_ivcfg (k : Bytes) (s : State) : (runWrap k s).ivcfg = s.ivcfg := rfl
@[simp] theorem runWrap_mem (k : Bytes) (s : State) : (runWrap k s).mem = s.mem := rfl
@[simp] theorem runWrap_sess (k : Bytes) (s : State) : (runWrap k s).sess = s.sess := rfl
@[simp] theorem runWrap_kw (k : Bytes) (s : State) : (runWrap k s).kw = w3394 s.cfg.prim k s.kw := rfl
@[simp] theorem runWrap_arrivals (k : Bytes) (s : State) : (runWrap k s).arrivals = s.arrivals := rfl
@[simp] theorem runWrap_replies (k : Bytes) (s : State) : (runWrap k s).replies = s.replies := rfl
@[simp] theorem runWrap_freeCount (k : Bytes) (s : State) : (runWrap k s).freeCount = s.freeCount := rfl

/-! ## runUnwrap -/

@[simp] theorem runUnwrap_cfg (k : Bytes) (s : State) : (runUnwrap k s).cfg = s.cfg := rfl
@[simp] theorem runUnwrap_cmd (k : Bytes) (s : State) : (runUnwrap k s).cmd = s.cmd := rfl
@[simp] theorem runUnwrap_busy (k : Bytes) (s : State) : (runUnwrap k s).busy = s.busy := rfl
@[simp] theorem runUnwrap_busywr (k : Bytes) (s : State) : (runUnwrap k s).busywr = s.busywr := rfl
@[simp] theorem runUnwrap_err (k : Bytes) (s : State) : (runUnwrap k s).err = s.err := rfl
@[simp] theorem runUnwrap_inlen (k : Bytes) (s : State) : (runUnwrap k s).inlen = s.inlen := rfl
@[simp] theorem runUnwrap_outlen (k : Bytes) (s : State) : (runUnwrap k s).outlen = s.outlen := rfl
@[simp] theorem runUnwrap_keycfg (k : Bytes) (s : State) : (runUnwrap k s).keycfg = s.keycfg := rfl
@[simp] theorem runUnwrap_ivcfg (k : Bytes) (s : State) : (runUnwrap k s).ivcfg = s.ivcfg := rfl
@[simp] theorem runUnwrap_mem (k : Bytes) (s : State) : (runUnwrap k s).mem = s.mem := rfl
@[simp] theorem runUnwrap_sess (k : Bytes) (s : State) : (runUnwrap k s).sess = s.sess := rfl
@[simp] theorem runUnwrap_kw (k : Bytes) (s : State) : (runUnwrap k s).kw = u3394 s.cfg.prim k s.kw := rfl
@[simp] theorem runUnwrap_arrivals (k : Bytes) (s : State) : (runUnwrap k s).arrivals = s.arrivals := rfl
@[simp] theorem runUnwrap_replies (k : Bytes) (s : State) : (runUnwrap k s).replies = s.replies := rfl
@[simp] theorem runUnwrap_freeCount (k : Bytes) (s : State) : (runUnwrap k s).freeCount = s.freeCount := rfl

/-! ## acceptCommand -/

@[simp] theorem acceptCommand_cfg (v : Word) (s : State) : (acceptCommand v s).cfg = s.cfg := rfl
@[simp] theorem acceptCommand_cmd (v : Word) (s : State) : (acceptCommand v s).cmd = v := rfl
@[simp] theorem acceptCommand_busy (v : Word) (s : State) : (acceptCommand v s).busy = true := rfl
@[simp] theorem acceptCommand_busywr (v : Word) (s : State) : (acceptCommand v s).busywr = s.busywr := rfl
@[simp] theorem acceptCommand_err (v : Word) (s : State) : (acceptCommand v s).err = s.err := rfl
@[simp] theorem acceptCommand_inlen (v : Word) (s : State) : (acceptCommand v s).inlen = s.inlen := rfl
@[simp] theorem acceptCommand_outlen (v : Word) (s : State) : (acceptCommand v s).outlen = s.outlen := rfl
@[simp] theorem acceptCommand_keycfg (v : Word) (s : State) : (acceptCommand v s).keycfg = s.keycfg := rfl
@[simp] theorem acceptCommand_ivcfg (v : Word) (s : State) : (acceptCommand v s).ivcfg = s.ivcfg := rfl
@[simp] theorem acceptCommand_mem (v : Word) (s : State) : (acceptCommand v s).mem = s.mem := rfl
@[simp] theorem acceptCommand_sess (v : Word) (s : State) : (acceptCommand v s).sess = s.sess := rfl
@[simp] theorem acceptCommand_kw (v : Word) (s : State) : (acceptCommand v s).kw = s.kw := rfl
@[simp] theorem acceptCommand_arrivals (v : Word) (s : State) : (acceptCommand v s).arrivals = s.arrivals := rfl
@[simp] theorem acceptCommand_replies (v : Word) (s : State) : (acceptCommand v s).replies = s.replies := rfl
@[simp] theorem acceptCommand_freeCount (v : Word) (s : State) : (acceptCommand v s).freeCount = s.freeCount := rfl

/-! ## pushReply -/

@[simp] theorem pushReply_cfg (v : Word) (s : State) : (pushReply v s).cfg = s.cfg := rfl
@[simp] theorem pushReply_cmd (v : Word) (s : State) : (pushReply v s).cmd = s.cmd := rfl
@[simp] theorem pushReply_busy (v : Word) (s : State) : (pushReply v s).busy = s.busy := rfl
@[simp] theorem pushReply_busywr (v : Word) (s : State) : (pushReply v s).busywr = s.busywr := rfl
@[simp] theorem pushReply_err (v : Word) (s : State) : (pushReply v s).err = s.err := rfl
@[simp] theorem pushReply_inlen (v : Word) (s : State) : (pushReply v s).inlen = s.inlen := rfl
@[simp] theorem pushReply_outlen (v : Word) (s : State) : (pushReply v s).outlen = s.outlen := rfl
@[simp] theorem pushReply_keycfg (v : Word) (s : State) : (pushReply v s).keycfg = s.keycfg := rfl
@[simp] theorem pushReply_ivcfg (v : Word) (s : State) : (pushReply v s).ivcfg = s.ivcfg := rfl
@[simp] theorem pushReply_mem (v : Word) (s : State) : (pushReply v s).mem = s.mem := rfl
@[simp] theorem pushReply_sess (v : Word) (s : State) : (pushReply v s).sess = s.sess := rfl
@[simp] theorem pushReply_kw (v : Word) (s : State) : (pushReply v s).kw = s.kw := rfl
@[simp] theorem pushReply_arrivals (v : Word) (s : State) : (pushReply v s).arrivals = s.arrivals := rfl
@[simp] theorem pushReply_replies (v : Word) (s : State) : (pushReply v s).replies = v :: s.replies := rfl
@[simp] theorem pushReply_freeCount (v : Word) (s : State) : (pushReply v s).freeCount = s.freeCount := rfl

/-! ## platformReset -/

@[simp] theorem platformReset_cfg (s : State) : (platformReset s).cfg = s.cfg := rfl
@[simp] theorem platformReset_cmd (s : State) : (platformReset s).cmd = 0 := rfl
@[simp] theorem platformReset_busy (s : State) : (platformReset s).busy = false := rfl
@[simp] theorem platformReset_busywr (s : State) : (platformReset s).busywr = false := rfl
@[simp] theorem platformReset_err (s : State) : (platformReset s).err = .ok := rfl
@[simp] theorem platformReset_inlen (s : State) : (platformReset s).inlen = 0 := rfl
@[simp] theorem platformReset_outlen (s : State) : (platformReset s).outlen = 0 := rfl
@[simp] theorem platformReset_keycfg (s : State) : (platformReset s).keycfg = 0 := rfl
@[simp] theorem platformReset_ivcfg (s : State) : (platformReset s).ivcfg = 0 := rfl
@[simp] theorem platformReset_mem (s : State) : (platformReset s).mem = [] := rfl
@[simp] theorem platformReset_sess (s : State) : (platformReset s).sess = Session.reset := rfl
@[simp] theorem platformReset_kw (s : State) : (platformReset s).kw = KeyWrapTemps.zero := rfl
@[simp] theorem platformReset_arrivals (s : State) : (platformReset s).arrivals = s.arrivals := rfl
@[simp] theorem platformReset_replies (s : State) : (platformReset s).replies = s.replies := rfl
@[simp] theorem platformReset_freeCount (s : State) : (platformReset s).freeCount = s.freeCount := rfl

/-! ## pollOn -/

@[simp] theorem pollOn_cfg (r : List Event) (s : State) : (pollOn r s).cfg = s.cfg := rfl
@[simp] theorem pollOn_cmd (r : List Event) (s : State) : (pollOn r s).cmd = s.cmd := rfl
@[simp] theorem pollOn_busy (r : List Event) (s : State) : (pollOn r s).busy = s.busy := rfl
@[simp] theorem pollOn_busywr (r : List Event) (s : State) : (pollOn r s).busywr = s.busywr := rfl
@[simp] theorem pollOn_err (r : List Event) (s : State) : (pollOn r s).err = s.err := rfl
@[simp] theorem pollOn_inlen (r : List Event) (s : State) : (pollOn r s).inlen = s.inlen := rfl
@[simp] theorem pollOn_outlen (r : List Event) (s : State) : (pollOn r s).outlen = s.outlen := rfl
@[simp] theorem pollOn_keycfg (r : List Event) (s : State) : (pollOn r s).keycfg = s.keycfg := rfl
@[simp] theorem pollOn_ivcfg (r : List Event) (s : State) : (pollOn r s).ivcfg = s.ivcfg := rfl
@[simp] theorem pollOn_mem (r : List Event) (s : State) : (pollOn r s).mem = s.mem := rfl
@[simp] theorem pollOn_sess (r : List Event) (s : State) : (pollOn r s).sess = s.sess := rfl
@[simp] theorem pollOn_kw (r : List Event) (s : State) : (pollOn r s).kw = s.kw := rfl
@[simp] theorem pollOn_arrivals (r : List Event) (s : State) : (pollOn r s).arrivals = pollRounds s r := rfl
@[simp] theorem pollOn_replies (r : List Event) (s : State) : (pollOn r s).replies = s.replies := rfl
@[simp] theorem pollOn_freeCount (r : List Event) (s : State) : (pollOn r s).freeCount = s.freeCount + 1 := rfl

/-! ## State.withInput -/

@[simp] theorem withInput_cfg (s : State) (b : Bytes) : (s.withInput b).cfg = s.cfg := rfl
@[simp] theorem withInput_cmd (s : State) (b : Bytes) : (s.withInput b).cmd = s.cmd := rfl
@[simp] theorem withInput_busy (s : State) (b : Bytes) : (s.withInput b).busy = s.busy := rfl
@[simp] theorem withInput_busywr (s : State) (b : Bytes) : (s.withInput b).busywr = s.busywr := rfl
@[simp] theorem withInput_err (s : State) (b : Bytes) : (s.withInput b).err = s.err := rfl
@[simp] theorem withInput_inlen (s : State) (b : Bytes) : (s.withInput b).inlen = BitVec.ofNat 32 b.length := rfl
@[simp] theorem withInput_outlen (s : State) (b : Bytes) : (s.withInput b).outlen = s.outlen := rfl
@[simp] theorem withInput_keycfg (s : State) (b : Bytes) : (s.withInput b).keycfg = s.keycfg := rfl
@[simp] theorem withInput_ivcfg (s : State) (b : Bytes) : (s.withInput b).ivcfg = s.ivcfg := rfl
@[simp] theorem withInput_mem (s : State) (b : Bytes) : (s.withInput b).mem = Memory.write s.mem inBase b := rfl
@[simp] theorem withInput_sess (s : State) (b : Bytes) : (s.withInput b).sess = s.sess := rfl
@[simp] theorem withInput_kw (s : State) (b : Bytes) : (s.withInput b).kw = s.kw := rfl
@[simp] theorem withInput_arrivals (s : State) (b : Bytes) : (s.withInput b).arrivals = s.arrivals := rfl
@[simp] theorem withInput_replies (s : State) (b : Bytes) : (s.withInput b).replies = s.replies := rfl
@[simp] theorem withInput_freeCount (s : State) (b : Bytes) : (s.withInput b).freeCount = s.freeCount := rfl

/-! ## State.withFetchWord -/

@[simp] theorem withFetchWord_cfg (s : State) (n w : Nat) : (s.withFetchWord n w).cfg = s.cfg := rfl
@[simp] theorem withFetchWord_cmd (s : State) (n w : Nat) : (s.withFetchWord n w).cmd = tableWord n w := rfl
@[simp] theorem withFetchWord_busy (s : State) (n w : Nat) : (s.withFetchWord n w).busy = true := rfl
@[simp] theorem withFetchWord_busywr (s : State) (n w : Nat) : (s.withFetchWord n w).busywr = s.busywr := rfl
@[simp] theorem withFetchWord_err (s : State) (n w : Nat) : (s.withFetchWord n w).err = s.err := rfl
@[simp] theorem withFetchWord_inlen (s : State) (n w : Nat) : (s.withFetchWord n w).inlen = s.inlen := rfl
@[simp] theorem withFetchWord_outlen (s : State) (n w : Nat) : (s.withFetchWord n w).outlen = s.outlen := rfl
@[simp] theorem withFetchWord_keycfg (s : State) (n w : Nat) : (s.withFetchWord n w).keycfg = s.keycfg := rfl
@[simp] theorem withFetchWord_ivcfg (s : State) (n w : Nat) : (s.withFetchWord n w).ivcfg = s.ivcfg := rfl
@[simp] theorem withFetchWord_mem (s : State) (n w : Nat) : (s.withFetchWord n w).mem = s.mem := rfl
@[simp] theorem withFetchWord_sess (s : State) (n w : Nat) : (s.withFetchWord n w).sess = s.sess := rfl
@[simp] theorem withFetchWord_kw (s : State) (n w : Nat) : (s.withFetchWord n w).kw = s.kw := rfl
@[simp] theorem withFetchWord_arrivals (s : State) (n w : Nat) : (s.withFetchWord n w).arrivals = .engine :: s.arrivals := rfl
@[simp] theorem withFetchWord_replies (s : State) (n w : Nat) : (s.withFetchWord n w).replies = s.replies := rfl
@[simp] theorem withFetchWord_freeCount (s : State) (n w : Nat) : (s.withFetchWord n w).freeCount = s.freeCount := rfl

end Sys2Proof.Machine
end

