-- ==== Sys2Proof/Laws/Bus.lean ====
section
/-! SUPPORT. What a step of the host does, said once: the access behind an arrival, the lanes of the bus data, and runs of
several steps. -/

namespace Sys2Proof.Machine

open Sys2Proof Host

/-! ## Addresses -/

theorem offsetOf_base (s : State) (off : Nat) (h : off < 0x40000) : offsetOf s (s.cfg.base + off) = some off := by
  unfold offsetOf windowSize
  rw [if_pos (by omega)]
  congr 1
  omega

theorem offsetOf_some {s : State} {a off : Nat} (h : offsetOf s a = some off) : a = s.cfg.base + off ∧ off < 0x40000 := by
  unfold offsetOf windowSize at h
  split at h
  · simp only [Option.some.injEq] at h; omega
  · simp at h

theorem inRange_iff (base size off : Nat) : inRange base size off = true ↔ base ≤ off ∧ off < base + size := by
  simp [inRange]

/-- A legal window access of `w` bytes is aligned on its own width. -/
theorem accessLegal_window {off : Nat} {w : Width} (h : 0x100 ≤ off) (hl : accessLegal off w = true) : off % w.bytes = 0 := by
  unfold accessLegal at hl
  rw [if_neg (by omega)] at hl
  simpa using hl

/-- A legal access straddles no two regions: their bounds are multiples of 4 (20_memory.md R54). -/
theorem regionOf_add {p : Params} (hp : p.ok) {off k : Nat} {w : Width} (h : 0x100 ≤ off) (hl : accessLegal off w = true)
    (hk : k < w.bytes) : regionOf p (off + k) = regionOf p off := by
  have ha := accessLegal_window h hl
  have range : ∀ b n, b % 16 = 0 → n % 16 = 0 → inRange b n (off + k) = inRange b n off := by
    intro b n hb hn
    unfold inRange
    cases w <;> simp only [Width.bytes] at ha hk <;> congr 1 <;> simp only [decide_eq_decide] <;> omega
  unfold regionOf
  rw [range keyBase keySize (by decide) (by decide), range ivBase ivSize (by decide) (by decide),
    range inBase p.ibufSize (by decide) hp.2.1, range outBase p.obufSize (by decide) (by unfold Params.obufSize; omega)]

theorem regionOf_output {p : Params} {off : Nat} (h : regionOf p off = .output) :
    outBase ≤ off ∧ off < outBase + p.obufSize := by
  unfold regionOf at h
  split at h
  · simp at h
  · split at h
    · simp at h
    · split at h
      · simp at h
      · split at h
        · simpa [inRange] using ‹inRange outBase p.obufSize off = true›
        · simp at h

theorem regionOf_out {p : Params} (hp : p.ok) {off : Nat} (h1 : outBase ≤ off) (h2 : off < outBase + p.obufSize) :
    regionOf p off = .output := by
  obtain ⟨_, _, _, h3⟩ := hp
  simp only [outBase] at h1 h2
  have k1 : inRange keyBase keySize off = false := by
    rw [← Bool.not_eq_true, inRange_iff]; simp only [keyBase, keySize]; omega
  have k2 : inRange ivBase ivSize off = false := by
    rw [← Bool.not_eq_true, inRange_iff]; simp only [ivBase, ivSize]; omega
  have k3 : inRange inBase p.ibufSize off = false := by
    rw [← Bool.not_eq_true, inRange_iff]; simp only [inBase]; omega
  have k4 : inRange outBase p.obufSize off = true := by
    rw [inRange_iff]; simp only [outBase]; omega
  simp [regionOf, k1, k2, k3, k4]

theorem regionOf_in {p : Params} (hp : p.ok) {off : Nat} (h1 : inBase ≤ off) (h2 : off < inBase + p.ibufSize) :
    regionOf p off = .input := by
  obtain ⟨_, _, _, h3⟩ := hp
  simp only [inBase] at h1 h2
  have k1 : inRange keyBase keySize off = false := by
    rw [← Bool.not_eq_true, inRange_iff]; simp only [keyBase, keySize]; omega
  have k2 : inRange ivBase ivSize off = false := by
    rw [← Bool.not_eq_true, inRange_iff]; simp only [ivBase, ivSize]; omega
  have k3 : inRange inBase p.ibufSize off = true := by
    rw [inRange_iff]; simp only [inBase]; omega
  simp [regionOf, k1, k2, k3]

/-! ## Lanes -/

@[simp] theorem wordToLanes_length (n : Nat) (v : Word) : (wordToLanes n v).length = n := by simp [wordToLanes]

theorem lanesToWord_lane (b : Bytes) (hb : b.length ≤ 4) (k : Nat) (hk : k < 4) :
    (lanesToWord b).extractLsb' (8 * k) 8 = b.getD k 0x00 := by
  apply BitVec.eq_of_toNat_eq
  simp only [lanesToWord, BitVec.extractLsb'_toNat, BitVec.toNat_ofNat, Nat.shiftRight_eq_div_pow]
  rcases b with _ | ⟨b0, _ | ⟨b1, _ | ⟨b2, _ | ⟨b3, _ | ⟨b4, t⟩⟩⟩⟩⟩
  · simp
  · have := b0.isLt
    interval_cases k <;> simp <;> omega
  · have := b0.isLt
    have := b1.isLt
    interval_cases k <;> simp <;> omega
  · have := b0.isLt
    have := b1.isLt
    have := b2.isLt
    interval_cases k <;> simp <;> omega
  · have := b0.isLt
    have := b1.isLt
    have := b2.isLt
    have := b3.isLt
    interval_cases k <;> simp <;> omega
  · simp only [List.length_cons] at hb; omega

/-! ## Steps of the host -/

theorem step_write {s : State} {rest : List Event} {off : Nat} {w : Width} {v : Word} (ho : off < 0x40000)
    (h : s.arrivals = .write (s.cfg.base + off) w v :: rest) :
    step s = if accessLegal off w then .next (doWrite off w v { s with arrivals := rest })
      else .fault (.hostBusError off w.bytes) := by
  simp only [step, nextTurn, h, hostWrite, access]
  rw [show offsetOf { s with arrivals := rest } (s.cfg.base + off) = some off from offsetOf_base s off ho]

/-- An access outside the window changes nothing of the block (20_memory.md R50). -/
theorem access_outside {a : Nat} {w : Width} {f : Nat → State → State} {s : State} (h : offsetOf s a = none) :
    access a w f s = .next s := by simp [access, h]

theorem step_read {s : State} {rest : List Event} {off : Nat} {w : Width} (ho : off < 0x40000)
    (h : s.arrivals = .read (s.cfg.base + off) w :: rest) :
    step s = if accessLegal off w then .next (doRead off w { s with arrivals := rest })
      else .fault (.hostBusError off w.bytes) := by
  simp only [step, nextTurn, h, hostRead, access]
  rw [show offsetOf { s with arrivals := rest } (s.cfg.base + off) = some off from offsetOf_base s off ho]

theorem step_write_outside {s : State} {rest : List Event} {a : Nat} {w : Width} {v : Word} (ho : offsetOf s a = none)
    (h : s.arrivals = .write a w v :: rest) : step s = .next { s with arrivals := rest } := by
  simp only [step, nextTurn, h, hostWrite]
  exact access_outside ho

theorem step_read_outside {s : State} {rest : List Event} {a : Nat} {w : Width} (ho : offsetOf s a = none)
    (h : s.arrivals = .read a w :: rest) : step s = .next { s with arrivals := rest } := by
  simp only [step, nextTurn, h, hostRead]
  exact access_outside ho

/-- What a POLL that finds BUSY = 1 expands to, where no agent but the host stands next. -/
theorem pollRounds_free {s : State} {rest : List Event} (he : ∀ r, rest ≠ .engine :: r) (hr : ∀ r, rest ≠ .reset :: r) :
    pollRounds s rest =
      List.replicate (Config.pollReads s.freeCount) (readStatus s) ++ .engine :: .poll :: rest := by
  unfold pollRounds
  split
  · exact absurd rfl (he _)
  · exact absurd rfl (hr _)
  · rfl

/-- A read adds one reply, and one to the counter where it is free; nothing else. -/
theorem doRead_form (off : Nat) (w : Width) (s : State) :
    ∃ v, doRead off w s = { s with
      replies := v :: s.replies, freeCount := s.freeCount + if isFreeRead s off then 1 else 0 } ∧
      (isFreeRead s off = false → v = readValue s off w) := by
  unfold doRead pushReply
  by_cases h : isFreeRead s off = true
  · rw [if_pos h]; exact ⟨freeReadValue s w, by simp [h], by simp [h]⟩
  · rw [if_neg h]; exact ⟨_, by simp [h], fun _ => rfl⟩

theorem run_next {k : Nat} {s t : State} (h : step s = .next t) : core.run (k + 1) s = core.run k t := by
  have h' : core.step s = Outcome.next t := h
  simp only [Core.run, h']

theorem run_add {m n : Nat} {s t : State} (h : core.run m s = .next t) : core.run (m + n) s = core.run n t := by
  induction m generalizing s with
  | zero =>
    have h' : Outcome.next s = Outcome.next t := h
    obtain rfl := Outcome.next.inj h'
    rw [Nat.zero_add]
  | succ m ih =>
    cases hs : core.step s with
    | next u =>
      rw [Nat.succ_add]
      simp only [Core.run, hs] at h ⊢
      exact ih h
    | fault r => simp [Core.run, hs] at h
    | refused r => simp [Core.run, hs] at h

/-- What a legal write does, one region at a time: it sets BUSYWR, stores a register's field, accepts a command, stores into
KEY, IV or IN, or is ignored. -/
theorem doWrite_cases (off : Nat) (w : Width) (v : Word) (s : State) :
    (s.busy = true ∧ doWrite off w v s = { s with busywr := true }) ∨
    (s.busy = false ∧ doWrite off w v s = { s with cmd := v, busy := true }) ∨
    (s.busy = false ∧ doWrite off w v s = { s with inlen := v }) ∨
    (s.busy = false ∧ doWrite off w v s = { s with keycfg := v &&& keycfgMask }) ∨
    (s.busy = false ∧ doWrite off w v s = { s with ivcfg := v &&& ivcfgMask }) ∨
    (s.busy = false ∧ 0x100 ≤ off ∧ (regionOf s.cfg off).writable = true ∧
      doWrite off w v s = { s with mem := Memory.write s.mem off (wordToLanes w.bytes v) }) ∨
    (s.busy = false ∧ doWrite off w v s = s) := by
  rcases Bool.eq_false_or_eq_true s.busy with hb | hb
  · exact .inl ⟨hb, by simp [doWrite, hb]⟩
  · right
    by_cases ho : off < 0x100
    · have h : doWrite off w v s = writeRegister off v s := by simp [doWrite, hb, ho]
      rw [h]
      unfold writeRegister
      split
      · exact .inl ⟨hb, rfl⟩
      · exact .inr (.inl ⟨hb, rfl⟩)
      · exact .inr (.inr (.inl ⟨hb, rfl⟩))
      · exact .inr (.inr (.inr (.inl ⟨hb, rfl⟩)))
      · exact .inr (.inr (.inr (.inr (.inr ⟨hb, rfl⟩))))
    · have h : doWrite off w v s = writeWindow off w v s := by simp [doWrite, hb, ho]
      rw [h]
      unfold writeWindow
      split
      · exact .inr (.inr (.inr (.inr (.inl ⟨hb, not_lt.1 ho, ‹_›, rfl⟩))))
      · exact .inr (.inr (.inr (.inr (.inr ⟨hb, rfl⟩))))

end Sys2Proof.Machine
end

