-- ==== Sys2Proof/Laws/Commands.lean ====
section
/-! SUPPORT. What the shared operations of the commands do, each said once: the operands a command sees, the two completions,
and every command body as the chain of its checks. -/

namespace Sys2Proof.Machine

open Sys2Proof Host

/-! ## What a command sees of the windows -/

theorem read_beginCommand (s : State) (a : Nat) (h : a < outBase) :
    Memory.read (beginCommand s).mem a = Memory.read s.mem a := by
  rw [beginCommand_mem, read_erase, if_neg (by omega)]

@[simp] theorem keyWindow_beginCommand (s : State) : keyWindow (beginCommand s) (keyBytes s) = s.keyOf := by
  refine readRange_congr _ _ _ _ (fun k hk => read_beginCommand s _ ?_)
  have : keyBytes s < 64 := (s.keycfg.extractLsb' 16 6).isLt
  simp only [keyBase, outBase]; omega

@[simp] theorem ivWindow_beginCommand (s : State) : ivWindow (beginCommand s) = ivWindow s := by
  unfold ivWindow
  congr 1
  refine readRange_congr _ _ _ _ (fun k hk => read_beginCommand s _ ?_)
  simp only [ivBase, ivSize, outBase] at *; omega

theorem inWindow_beginCommand (s : State) (n : Nat) (h : n ≤ 0x10000) : inWindow (beginCommand s) n = inWindow s n := by
  refine readRange_congr _ _ _ _ (fun k hk => read_beginCommand s _ ?_)
  simp only [inBase, outBase]; omega

theorem inputOf_length (s : State) : s.inputOf.length = s.inlen.toNat := readRange_length _ _ _

theorem keyOf_length (s : State) : s.keyOf.length = keyBytes s := readRange_length _ _ _

theorem keyOk_length {s : State} (h : s.keyOk) : s.keyOf.length = 16 ∨ s.keyOf.length = 24 ∨ s.keyOf.length = 32 := by
  simp only [State.keyOk, keyCheckPasses, Bool.and_eq_true, Bool.or_eq_true, beq_iff_eq] at h
  rw [keyOf_length]
  omega

/-! ## The operand checks -/

theorem keyOperand_beginCommand (s : State) :
    keyOperand (beginCommand s) = if s.keyOk then .ok s.keyOf else .error .invalidKeyLength := by
  have h1 : bitLen (beginCommand s) = bitLen s := rfl
  have h2 : keyBytes (beginCommand s) = keyBytes s := rfl
  by_cases h : keyCheckPasses (bitLen s) (keyBytes s) = true
  · simp [keyOperand, keyCheck, h1, h2, h, bind, Except.bind, pure, Except.pure]
  · simp [keyOperand, keyCheck, h1, h2, h, bind, Except.bind]

/-- The input a command body sees, after OUT has been zeroed. -/
def seenInput (s : State) : Bytes := inWindow (beginCommand s) s.inlen.toNat

theorem seenInput_length (s : State) : (seenInput s).length = s.inlen.toNat := readRange_length _ _ _

/-- IN lies below OUT, so that the input is the one the host placed. -/
theorem seenInput_eq (s : State) (h : s.cfg.ibufSize ≤ 0x10000) (hf : s.inputFits) : seenInput s = s.inputOf :=
  inWindow_beginCommand s _ (le_trans hf h)

theorem inputOperand_beginCommand (s : State) :
    inputOperand (beginCommand s) = if s.inputFits then .ok (seenInput s) else .error .inputTooLong := by
  by_cases hf : s.inlen.toNat ≤ s.cfg.ibufSize
  · simp [inputOperand, State.inputFits, hf, not_lt.2 hf, seenInput]
  · simp [inputOperand, State.inputFits, hf, not_le.1 hf]

theorem chainingBlock_ecb (s : State) : chainingBlock .ecb s = .ok (zeros 16) := rfl

theorem chainingBlock_cbc_beginCommand (s : State) :
    chainingBlock .cbc (beginCommand s) = if ivBytes s = 16 then .ok (ivWindow s) else .error .invalidIVLength := by
  have h1 : ivBytes (beginCommand s) = ivBytes s := rfl
  simp [chainingBlock, h1]

theorem requireIdle_beginCommand (s : State) :
    requireIdle (beginCommand s) = if s.sess.st = .idle then .ok () else .error .invalidState := rfl

theorem requireReady_beginCommand (d : Dir) (s : State) :
    requireReady d (beginCommand s) = if s.inSession d then .ok () else .error .invalidState := rfl

/-! ## The two completions -/

theorem runCommand_of_ok {cls : CmdClass} {body : State → BodyResult} {s t : State} {out : Bytes}
    (h : body (beginCommand s) = .ok (t, out)) : runCommand cls body s = .next (complete out t) := by
  simp [runCommand, h]

theorem runCommand_of_error {cls : CmdClass} {body : State → BodyResult} {s : State} {e : ErrCode}
    (h : body (beginCommand s) = .error e) : runCommand cls body s = .next (failCommand cls e s) := by
  simp [runCommand, h]

/-- A body that leaves the memory and the registers alone completes with its output. -/
theorem completed_complete (s t : State) (out : Bytes) (hmem : t.mem = (beginCommand s).mem)
    (hregs : keepsRegisters s t) (hlen : out.length ≤ s.cfg.obufSize) (hfit : out.length < 2 ^ 32) :
    completed s (complete out t) .ok out := by
  refine ⟨rfl, rfl, ⟨?_, ?_⟩, hregs, ?_⟩
  · rw [complete_outlen, BitVec.toNat_ofNat, Nat.mod_eq_of_lt hfit]
  · intro k hk
    have hc : (complete out t).cfg = s.cfg := hregs.1
    rw [hc] at hk
    rw [complete_mem, hmem, read_write, beginCommand_mem, read_erase]
    by_cases hko : k < out.length
    · rw [if_pos (by omega)]; simp [Memory.unlisted]
    · rw [if_neg (by omega), if_pos (by omega)]
      simp [List.getElem?_eq_none (not_lt.1 hko), Memory.unlisted]
  · intro a ha
    rw [complete_mem, hmem, read_write, beginCommand_mem, read_erase]
    rw [if_neg (by omega), if_neg (by omega)]

/-- An error completion as one record: which fields it writes, and with what. -/
theorem failCommand_eq (cls : CmdClass) (e : ErrCode) (s : State) :
    failCommand cls e s = { beginCommand s with
      sess := if cls = .modeEngine ∧ s.sess.st = .ready then Session.finalized else s.sess
      kw := if cls = .keyWrap then KeyWrapTemps.zero else s.kw
      err := e
      busy := false } := by
  cases cls
  · by_cases h : s.sess.st = .ready
    · simp [failCommand, errorWipe, h, setSessState, wipeSession, Session.wiped, Session.finalized]
    · simp [failCommand, errorWipe, h]
  · rfl
  · rfl

theorem failCommand_sess (cls : CmdClass) (e : ErrCode) (s : State) :
    (failCommand cls e s).sess = if cls = .modeEngine ∧ s.sess.st = .ready then Session.finalized else s.sess := by
  rw [failCommand_eq]

theorem failCommand_kw (cls : CmdClass) (e : ErrCode) (s : State) :
    (failCommand cls e s).kw = if cls = .keyWrap then KeyWrapTemps.zero else s.kw := by
  rw [failCommand_eq]

theorem failCommand_mem (cls : CmdClass) (e : ErrCode) (s : State) :
    (failCommand cls e s).mem = Memory.erase s.mem outBase s.cfg.obufSize := by
  rw [failCommand_eq]; rfl

theorem failCommand_outlen (cls : CmdClass) (e : ErrCode) (s : State) : (failCommand cls e s).outlen = 0 := by
  rw [failCommand_eq]; rfl

@[simp] theorem failCommand_err (cls : CmdClass) (e : ErrCode) (s : State) : (failCommand cls e s).err = e := rfl

@[simp] theorem failCommand_busy (cls : CmdClass) (e : ErrCode) (s : State) : (failCommand cls e s).busy = false := rfl

theorem failCommand_keepsRegisters (cls : CmdClass) (e : ErrCode) (s : State) : keepsRegisters s (failCommand cls e s) := by
  rw [failCommand_eq]
  exact ⟨rfl, rfl, rfl, rfl, rfl, rfl, rfl, rfl, rfl⟩

/-- An error completes with its code and no output. -/
theorem completed_failCommand (cls : CmdClass) (e : ErrCode) (s : State) : completed s (failCommand cls e s) e [] := by
  refine ⟨rfl, rfl, ⟨?_, ?_⟩, failCommand_keepsRegisters cls e s, ?_⟩
  · rw [failCommand_outlen]; rfl
  · intro k hk
    have hc : (failCommand cls e s).cfg = s.cfg := (failCommand_keepsRegisters cls e s).1
    rw [hc] at hk
    rw [failCommand_mem, read_erase, if_pos (by omega)]
    simp [Memory.unlisted]
  · intro a ha
    rw [failCommand_mem, read_erase, if_neg (by omega)]

/-- What a completed command's valid output bytes are. -/
theorem outBytes_of_completed {s t : State} {e : ErrCode} {out : Bytes} (h : completed s t e out)
    (hlen : out.length ≤ s.cfg.obufSize) : outBytes t = out := by
  obtain ⟨_, _, ⟨hl, hb⟩, hregs, _⟩ := h
  apply List.ext_getElem
  · simp [outBytes, hl]
  · intro k h1 h2
    have := hb k (by rw [hregs.1]; omega)
    simp only [outBytes, Memory.readRange, List.getElem_map, List.getElem_range, this]
    simp [h2]

/-! ## The bodies as chains of checks -/

/-- What INIT does once every check has passed. -/
def bound (dir : Dir) (mode : Mode) (key : Bytes) (cb : Block) (s : State) : State :=
  { beginCommand s with sess := { st := .ready, dir := dir, mode := mode, key := key, cb := cb, pend := [] } }

theorem run_initSession_ecb (dir : Dir) (s : State) :
    runCommand .modeEngine (initSession dir .ecb) s = .next
      (if s.sess.st ≠ .idle then failCommand .modeEngine .invalidState s
       else if ¬ s.keyOk then failCommand .modeEngine .invalidKeyLength s
       else complete [] (bound dir .ecb s.keyOf (zeros 16) s)) := by
  by_cases h1 : s.sess.st = .idle
  · by_cases h2 : s.keyOk
    · rw [if_neg (by simp [h1]), if_neg (by simp [h2])]
      apply runCommand_of_ok
      simp [initSession, requireIdle_beginCommand, h1, keyOperand_beginCommand, if_pos h2, chainingBlock, bind, Except.bind, pure,
        Except.pure, bound]
    · rw [if_neg (by simp [h1]), if_pos h2]
      apply runCommand_of_error
      simp [initSession, requireIdle_beginCommand, h1, keyOperand_beginCommand, if_neg h2, bind, Except.bind]
  · rw [if_pos h1]
    apply runCommand_of_error
    simp [initSession, requireIdle_beginCommand, h1, bind, Except.bind]

theorem run_initSession_cbc (dir : Dir) (s : State) :
    runCommand .modeEngine (initSession dir .cbc) s = .next
      (if s.sess.st ≠ .idle then failCommand .modeEngine .invalidState s
       else if ¬ s.keyOk then failCommand .modeEngine .invalidKeyLength s
       else if ivBytes s ≠ 16 then failCommand .modeEngine .invalidIVLength s
       else complete [] (bound dir .cbc s.keyOf (ivWindow s) s)) := by
  by_cases h1 : s.sess.st = .idle
  · by_cases h2 : s.keyOk
    · by_cases h3 : ivBytes s = 16
      · rw [if_neg (by simp [h1]), if_neg (by simp [h2]), if_neg (by simp [h3])]
        apply runCommand_of_ok
        simp [initSession, requireIdle_beginCommand, h1, keyOperand_beginCommand, if_pos h2, chainingBlock_cbc_beginCommand, h3,
          bind, Except.bind, pure, Except.pure, bound]
      · rw [if_neg (by simp [h1]), if_neg (by simp [h2]), if_pos h3]
        apply runCommand_of_error
        simp [initSession, requireIdle_beginCommand, h1, keyOperand_beginCommand, if_pos h2, chainingBlock_cbc_beginCommand, h3,
          bind, Except.bind]
    · rw [if_neg (by simp [h1]), if_pos h2]
      apply runCommand_of_error
      simp [initSession, requireIdle_beginCommand, h1, keyOperand_beginCommand, if_neg h2, bind, Except.bind]
  · rw [if_pos h1]
    apply runCommand_of_error
    simp [initSession, requireIdle_beginCommand, h1, bind, Except.bind]

theorem run_initBadMode (s : State) :
    runCommand .modeEngine initBadMode s = .next
      (if s.sess.st ≠ .idle then failCommand .modeEngine .invalidState s
       else failCommand .modeEngine .invalidMode s) := by
  by_cases h1 : s.sess.st = .idle
  · rw [if_neg (by simp [h1])]
    apply runCommand_of_error
    simp [initBadMode, requireIdle_beginCommand, h1, bind, Except.bind, throw, throwThe, MonadExceptOf.throw]
  · rw [if_pos h1]
    apply runCommand_of_error
    simp [initBadMode, requireIdle_beginCommand, h1, bind, Except.bind]

theorem run_updateBody (dir : Dir) (stream : Primitive → Session → Bytes → Bytes × Session) (s : State)
    :
    runCommand .modeEngine (updateBody dir stream) s = .next
      (if ¬ s.inSession dir then failCommand .modeEngine .invalidState s
       else if ¬ s.inputFits then failCommand .modeEngine .inputTooLong s
       else complete (stream s.cfg.prim s.sess (seenInput s)).1
        { beginCommand s with sess := (stream s.cfg.prim s.sess (seenInput s)).2 }) := by
  by_cases h1 : s.inSession dir
  · by_cases h2 : s.inputFits
    · rw [if_neg (by simp only [not_not]; exact h1), if_neg (by simp only [not_not]; exact h2)]
      apply runCommand_of_ok
      rw [updateBody, requireReady_beginCommand, if_pos h1, inputOperand_beginCommand s, if_pos h2]
      rfl
    · rw [if_neg (by simp only [not_not]; exact h1), if_pos h2]
      apply runCommand_of_error
      rw [updateBody, requireReady_beginCommand, if_pos h1, inputOperand_beginCommand s, if_neg h2]
      rfl
  · rw [if_pos h1]
    apply runCommand_of_error
    rw [updateBody, requireReady_beginCommand, if_neg h1]
    rfl

theorem run_encFinalBody (s : State) :
    runCommand .modeEngine encFinalBody s = .next
      (if ¬ s.inSession .encrypt then failCommand .modeEngine .invalidState s
       else complete (encBlock s.cfg.prim s.sess (pad s.sess.pend)).1.1 (endSession (beginCommand s))) := by
  by_cases h1 : s.inSession .encrypt
  · rw [if_neg (by simp only [not_not]; exact h1)]
    apply runCommand_of_ok
    rw [encFinalBody, requireReady_beginCommand, if_pos h1]
    rfl
  · rw [if_pos h1]
    apply runCommand_of_error
    rw [encFinalBody, requireReady_beginCommand, if_neg h1]
    rfl

/-- The block DECFIN decrypts (43_mode_final.md R141). -/
def lastPlain (s : State) : Block := (decBlock s.cfg.prim s.sess (fitBytes 16 s.sess.pend)).1

theorem run_decFinalBody (s : State) :
    runCommand .modeEngine decFinalBody s = .next
      (if ¬ s.inSession .decrypt then failCommand .modeEngine .invalidState s
       else if s.sess.pend.length % 16 ≠ 0 then failCommand .modeEngine .invalidCiphertextLength s
       else if s.sess.pend.length = 0 then failCommand .modeEngine .noDataProcessed s
       else match unpad (lastPlain s) with
        | .ok out => complete out (endSession (beginCommand s))
        | .error e => failCommand .modeEngine e s) := by
  by_cases h1 : s.inSession .decrypt
  · rw [if_neg (by simp only [not_not]; exact h1)]
    by_cases h2 : s.sess.pend.length % 16 = 0
    · rw [if_neg (by simp [h2])]
      by_cases h3 : s.sess.pend.length = 0
      · rw [if_pos h3]
        apply runCommand_of_error
        rw [decFinalBody, requireReady_beginCommand, if_pos h1]
        simp [require, h3, bind, Except.bind]
      · rw [if_neg h3]
        have hb : decFinalBody (beginCommand s)
            = (unpad (lastPlain s)).bind (fun out => .ok (endSession (beginCommand s), out)) := by
          rw [decFinalBody, requireReady_beginCommand, if_pos h1]
          simp [require, h2, h3, bind, Except.bind, lastPlain, pure, Except.pure]
        split
        · rename_i out ho
          exact runCommand_of_ok (by rw [hb, ho]; rfl)
        · rename_i e he
          exact runCommand_of_error (by rw [hb, he]; rfl)
    · rw [if_pos h2]
      apply runCommand_of_error
      rw [decFinalBody, requireReady_beginCommand, if_pos h1]
      simp [require, h2, bind, Except.bind]
  · rw [if_pos h1]
    apply runCommand_of_error
    rw [decFinalBody, requireReady_beginCommand, if_neg h1]
    rfl

/-- The temporaries of WRAP.KW and UNWRAP.KW with A and the registers loaded. -/
def loaded (a : Semi) (r : List Semi) (w : KeyWrapTemps) : KeyWrapTemps := { w with a := a, r := r }

theorem run_wrapKwBody (s : State) :
    runCommand .keyWrap wrapKwBody s = .next
      (if ¬ s.keyOk then failCommand .keyWrap .invalidKeyLength s
       else if ¬ s.inputFits then failCommand .keyWrap .inputTooLong s
       else if ¬ (s.inlen.toNat % 8 = 0 ∧ 16 ≤ s.inlen.toNat) then failCommand .keyWrap .invalidKeyDataLength s
       else complete (w3394 s.cfg.prim s.keyOf (loaded kwIV (pieces 8 (s.inlen.toNat / 8) (seenInput s)) s.kw)).output
        (wipeWrap (beginCommand s))) := by
  by_cases h1 : s.keyOk
  · rw [if_neg (by simp only [not_not]; exact h1)]
    by_cases h2 : s.inputFits
    · rw [if_neg (by simp only [not_not]; exact h2)]
      by_cases h3 : s.inlen.toNat % 8 = 0 ∧ 16 ≤ s.inlen.toNat
      · rw [if_neg (by simp only [not_not]; exact h3)]
        apply runCommand_of_ok
        rw [wrapKwBody, keyOperand_beginCommand, if_pos h1, inputOperand_beginCommand s, if_pos h2]
        simp [require, seenInput_length, h3, bind, Except.bind, pure, Except.pure, loaded, wipeWrap, runWrap, loadWrap,
          beginCommand]
      · rw [if_pos h3]
        apply runCommand_of_error
        rw [wrapKwBody, keyOperand_beginCommand, if_pos h1, inputOperand_beginCommand s, if_pos h2]
        simp [require, seenInput_length, h3, bind, Except.bind]
    · rw [if_pos h2]
      apply runCommand_of_error
      rw [wrapKwBody, keyOperand_beginCommand, if_pos h1, inputOperand_beginCommand s, if_neg h2]
      rfl
  · rw [if_pos h1]
    apply runCommand_of_error
    rw [wrapKwBody, keyOperand_beginCommand, if_neg h1]
    rfl

/-- The temporaries after UNWRAP.KW's loop (44_keywrap_rfc3394.md R163). -/
def unwrapped (s : State) : KeyWrapTemps :=
  u3394 s.cfg.prim s.keyOf
    (loaded (fitBytes 8 (seenInput s)) (pieces 8 (s.inlen.toNat / 8 - 1) ((seenInput s).drop 8)) s.kw)

theorem run_unwrapKwBody (s : State) :
    runCommand .keyWrap unwrapKwBody s = .next
      (if ¬ s.keyOk then failCommand .keyWrap .invalidKeyLength s
       else if ¬ s.inputFits then failCommand .keyWrap .inputTooLong s
       else if ¬ (s.inlen.toNat % 8 = 0 ∧ 24 ≤ s.inlen.toNat) then failCommand .keyWrap .invalidWrappedLength s
       else if (unwrapped s).a ≠ kwIV then failCommand .keyWrap .integrityCheckFailed s
       else complete (joinPieces (unwrapped s).r) (wipeWrap (beginCommand s))) := by
  by_cases h1 : s.keyOk
  · rw [if_neg (by simp only [not_not]; exact h1)]
    by_cases h2 : s.inputFits
    · rw [if_neg (by simp only [not_not]; exact h2)]
      by_cases h3 : s.inlen.toNat % 8 = 0 ∧ 24 ≤ s.inlen.toNat
      · rw [if_neg (by simp only [not_not]; exact h3)]
        by_cases h4 : (unwrapped s).a = kwIV
        · rw [if_neg (by simp [h4])]
          apply runCommand_of_ok
          rw [unwrapKwBody, keyOperand_beginCommand, if_pos h1, inputOperand_beginCommand s, if_pos h2]
          simp only [unwrapped, loaded] at h4
          simp [require, seenInput_length, h3, bind, Except.bind, pure, Except.pure, wipeWrap, runUnwrap, loadWrap,
            beginCommand, unwrapped, loaded, h4]
        · rw [if_pos h4]
          apply runCommand_of_error
          rw [unwrapKwBody, keyOperand_beginCommand, if_pos h1, inputOperand_beginCommand s, if_pos h2]
          have h5 : ((unwrapped s).a == kwIV) = false := beq_false_of_ne h4
          simp only [require, seenInput_length, h3, bind, Except.bind, beq_self_eq_true, decide_true, Bool.and_self, if_true]
          rw [show ((runUnwrap s.keyOf (loadWrap (fitBytes 8 (seenInput s))
            (pieces 8 (s.inlen.toNat / 8 - 1) ((seenInput s).drop 8)) (beginCommand s))).kw.a == kwIV) = false from h5]
          rfl
      · rw [if_pos h3]
        apply runCommand_of_error
        rw [unwrapKwBody, keyOperand_beginCommand, if_pos h1, inputOperand_beginCommand s, if_pos h2]
        simp [require, seenInput_length, h3, bind, Except.bind]
    · rw [if_pos h2]
      apply runCommand_of_error
      rw [unwrapKwBody, keyOperand_beginCommand, if_pos h1, inputOperand_beginCommand s, if_neg h2]
      rfl
  · rw [if_pos h1]
    apply runCommand_of_error
    rw [unwrapKwBody, keyOperand_beginCommand, if_neg h1]
    rfl

theorem wrapPadded_frame (k : Bytes) (mli : Nat) (p : Bytes) (s : State) :
    (wrapPadded k mli p s).1 = { s with kw := (wrapPadded k mli p s).1.kw } := by
  unfold wrapPadded; split <;> rfl

theorem unwrapPadded_frame (k input : Bytes) (s : State) :
    unwrapPadded k input s = { s with kw := (unwrapPadded k input s).kw } := by
  unfold unwrapPadded; split <;> rfl

theorem run_wrapKwpBody (s : State) :
    runCommand .keyWrap wrapKwpBody s = .next
      (if ¬ s.keyOk then failCommand .keyWrap .invalidKeyLength s
       else if ¬ s.inputFits then failCommand .keyWrap .inputTooLong s
       else if s.inlen.toNat = 0 then failCommand .keyWrap .invalidKeyDataLength s
       else complete (wrapPadded s.keyOf s.inlen.toNat (padKeyData (seenInput s)) s).2 (wipeWrap (beginCommand s))) := by
  by_cases h1 : s.keyOk
  · rw [if_neg (by simp only [not_not]; exact h1)]
    by_cases h2 : s.inputFits
    · rw [if_neg (by simp only [not_not]; exact h2)]
      by_cases h3 : s.inlen.toNat = 0
      · rw [if_pos h3]
        apply runCommand_of_error
        rw [wrapKwpBody, keyOperand_beginCommand, if_pos h1, inputOperand_beginCommand s, if_pos h2]
        simp [require, seenInput_length, h3, bind, Except.bind]
      · rw [if_neg h3]
        apply runCommand_of_ok
        rw [wrapKwpBody, keyOperand_beginCommand, if_pos h1, inputOperand_beginCommand s, if_pos h2]
        have hout : (wrapPadded s.keyOf s.inlen.toNat (padKeyData (seenInput s)) (beginCommand s)).2
            = (wrapPadded s.keyOf s.inlen.toNat (padKeyData (seenInput s)) s).2 := by
          unfold wrapPadded; split <;> rfl
        simp only [require, seenInput_length, bne_iff_ne, ne_eq, h3, not_false_eq_true, if_true, bind, Except.bind, pure,
          Except.pure]
        rw [hout, wrapPadded_frame]
        rfl
    · rw [if_pos h2]
      apply runCommand_of_error
      rw [wrapKwpBody, keyOperand_beginCommand, if_pos h1, inputOperand_beginCommand s, if_neg h2]
      rfl
  · rw [if_pos h1]
    apply runCommand_of_error
    rw [wrapKwpBody, keyOperand_beginCommand, if_neg h1]
    rfl

theorem run_unwrapKwpBody (s : State) :
    runCommand .keyWrap unwrapKwpBody s = .next
      (if ¬ s.keyOk then failCommand .keyWrap .invalidKeyLength s
       else if ¬ s.inputFits then failCommand .keyWrap .inputTooLong s
       else if ¬ (s.inlen.toNat % 8 = 0 ∧ 16 ≤ s.inlen.toNat) then failCommand .keyWrap .invalidWrappedLength s
       else
        let w := (unwrapPadded s.keyOf (seenInput s) s).kw
        if high32 w.a ≠ 0xA65959A6 then failCommand .keyWrap .integrityCheckFailed s
        else match mliCheck (low32 w.a) (joinPieces w.r) with
          | .ok _ => complete ((joinPieces w.r).take (low32 w.a)) (wipeWrap (beginCommand s))
          | .error e => failCommand .keyWrap e s) := by
  by_cases h1 : s.keyOk
  · rw [if_neg (by simp only [not_not]; exact h1)]
    by_cases h2 : s.inputFits
    · rw [if_neg (by simp only [not_not]; exact h2)]
      by_cases h3 : s.inlen.toNat % 8 = 0 ∧ 16 ≤ s.inlen.toNat
      · rw [if_neg (by simp only [not_not]; exact h3)]
        have hkw : (unwrapPadded s.keyOf (seenInput s) (beginCommand s)).kw = (unwrapPadded s.keyOf (seenInput s) s).kw := by
          unfold unwrapPadded; split <;> rfl
        have hwipe : wipeWrap (unwrapPadded s.keyOf (seenInput s) (beginCommand s)) = wipeWrap (beginCommand s) := by
          rw [unwrapPadded_frame]; rfl
        have hicv : beVal kwpICV.1 = 0xA65959A6 := by decide
        have hb : unwrapKwpBody (beginCommand s)
            = (if high32 (unwrapPadded s.keyOf (seenInput s) s).kw.a ≠ 0xA65959A6 then .error .integrityCheckFailed
              else (mliCheck (low32 (unwrapPadded s.keyOf (seenInput s) s).kw.a)
                (joinPieces (unwrapPadded s.keyOf (seenInput s) s).kw.r)).bind (fun _ => .ok (wipeWrap (beginCommand s),
                  (joinPieces (unwrapPadded s.keyOf (seenInput s) s).kw.r).take
                    (low32 (unwrapPadded s.keyOf (seenInput s) s).kw.a)))) := by
          rw [unwrapKwpBody, keyOperand_beginCommand, if_pos h1, inputOperand_beginCommand s, if_pos h2]
          simp only [require, seenInput_length, h3, bind, Except.bind, pure, Except.pure, hkw, hwipe, hicv]
          by_cases h4 : high32 (unwrapPadded s.keyOf (seenInput s) s).kw.a = 0xA65959A6 <;> simp [h4]
        by_cases h4 : high32 (unwrapPadded s.keyOf (seenInput s) s).kw.a = 0xA65959A6
        · simp only [h4, ne_eq, not_true_eq_false, if_false] at hb ⊢
          split
          · rename_i hm
            exact runCommand_of_ok (by rw [hb, hm]; rfl)
          · rename_i e hm
            exact runCommand_of_error (by rw [hb, hm]; rfl)
        · simp only [ne_eq, h4, not_false_eq_true, if_true] at hb ⊢
          exact runCommand_of_error hb
      · rw [if_pos h3]
        apply runCommand_of_error
        rw [unwrapKwpBody, keyOperand_beginCommand, if_pos h1, inputOperand_beginCommand s, if_pos h2]
        simp [require, seenInput_length, h3, bind, Except.bind]
    · rw [if_pos h2]
      apply runCommand_of_error
      rw [unwrapKwpBody, keyOperand_beginCommand, if_pos h1, inputOperand_beginCommand s, if_neg h2]
      rfl
  · rw [if_pos h1]
    apply runCommand_of_error
    rw [unwrapKwpBody, keyOperand_beginCommand, if_neg h1]
    rfl

theorem run_raiseBody (cls : CmdClass) (e : ErrCode) (s : State) :
    runCommand cls (raiseBody e) s = .next (failCommand cls e s) :=
  runCommand_of_error rfl

/-! ## What a command can do -/

theorem unpad_error_ne_ok (x : Block) : unpad x ≠ .error .ok := by
  unfold unpad
  dsimp only
  split
  · simp
  · split <;> simp

theorem mliCheck_error_ne_ok (mli : Nat) (p : Bytes) : mliCheck mli p ≠ .error .ok := by
  unfold mliCheck require
  simp only [bind, Except.bind]
  split_ifs <;> simp

/-- Every command completes: with an error, by CLEAR, or with an output, a session and temporaries of its own and everything
else as R204 left it. -/
theorem exec_forms (i : Instr) (s : State) :
    (∃ e, e ≠ .ok ∧ exec i s = .next (failCommand (classOf i) e s)) ∨
    (i = .clear ∧ exec i s = .next { clearAll (beginCommand s) with busy := false }) ∨
    (i ≠ .clear ∧ ∃ out x w, exec i s = .next (complete out { beginCommand s with sess := x, kw := w }) ∧
      (classOf i ≠ .keyWrap → w = s.kw) ∧ (classOf i = .keyWrap → w = KeyWrapTemps.zero ∧ x = s.sess)) := by
  have fail : ∀ {cls e} {b : State → BodyResult}, runCommand cls b s = .next (failCommand cls e s) → e ≠ .ok →
      ∃ e, e ≠ .ok ∧ runCommand cls b s = .next (failCommand cls e s) := fun h he => ⟨_, he, h⟩
  have sessOk : ∀ {cls} {b : State → BodyResult} (out : Bytes) (x : Session),
      runCommand cls b s = .next (complete out { beginCommand s with sess := x }) →
      ∃ out x w, runCommand cls b s = .next (complete out { beginCommand s with sess := x, kw := w }) ∧ w = s.kw :=
    fun out x h => ⟨out, x, s.kw, h, rfl⟩
  have wrapOk : ∀ {cls} {b : State → BodyResult} (out : Bytes),
      runCommand cls b s = .next (complete out (wipeWrap (beginCommand s))) →
      ∃ out x w, runCommand cls b s = .next (complete out { beginCommand s with sess := x, kw := w }) ∧
        w = KeyWrapTemps.zero ∧ x = s.sess := fun out h => ⟨out, s.sess, KeyWrapTemps.zero, h, rfl, rfl⟩
  have init : ∀ (d : Dir) (m : Mode),
      (∃ e, e ≠ .ok ∧ runCommand .modeEngine (initSession d m) s = .next (failCommand .modeEngine e s)) ∨
      ∃ out x w, runCommand .modeEngine (initSession d m) s
        = .next (complete out { beginCommand s with sess := x, kw := w }) ∧ w = s.kw := by
    intro d m
    cases m
    · have h := run_initSession_ecb d s
      split at h
      · exact .inl (fail h (by decide))
      · split at h
        · exact .inl (fail h (by decide))
        · exact .inr (sessOk _ _ h)
    · have h := run_initSession_cbc d s
      split at h
      · exact .inl (fail h (by decide))
      · split at h
        · exact .inl (fail h (by decide))
        · split at h
          · exact .inl (fail h (by decide))
          · exact .inr (sessOk _ _ h)
  have bad : ∃ e, e ≠ .ok ∧ runCommand .modeEngine initBadMode s = .next (failCommand .modeEngine e s) := by
    have h := run_initBadMode s
    split at h
    · exact fail h (by decide)
    · exact fail h (by decide)
  have upd : ∀ (d : Dir) (f : Primitive → Session → Bytes → Bytes × Session),
      (∃ e, e ≠ .ok ∧ runCommand .modeEngine (updateBody d f) s = .next (failCommand .modeEngine e s)) ∨
      ∃ out x w, runCommand .modeEngine (updateBody d f) s
        = .next (complete out { beginCommand s with sess := x, kw := w }) ∧ w = s.kw := by
    intro d f
    have h := run_updateBody d f s
    split at h
    · exact .inl (fail h (by decide))
    · split at h
      · exact .inl (fail h (by decide))
      · exact .inr (sessOk _ _ h)
  have mode : ∀ {b : State → BodyResult} {j : Instr},
      exec j s = runCommand .modeEngine b s → classOf j = .modeEngine → j ≠ .clear →
      ((∃ e, e ≠ .ok ∧ runCommand .modeEngine b s = .next (failCommand .modeEngine e s)) ∨
        ∃ out x w, runCommand .modeEngine b s = .next (complete out { beginCommand s with sess := x, kw := w }) ∧
          w = s.kw) →
      (∃ e, e ≠ .ok ∧ exec j s = .next (failCommand (classOf j) e s)) ∨
      (j = .clear ∧ exec j s = .next { clearAll (beginCommand s) with busy := false }) ∨
      (j ≠ .clear ∧ ∃ out x w, exec j s = .next (complete out { beginCommand s with sess := x, kw := w }) ∧
        (classOf j ≠ .keyWrap → w = s.kw) ∧ (classOf j = .keyWrap → w = KeyWrapTemps.zero ∧ x = s.sess)) := by
    intro b j hj hc hn h
    rw [hj, hc]
    rcases h with h | ⟨out, x, w, h, hw⟩
    · exact .inl h
    · exact .inr (.inr ⟨hn, out, x, w, h, fun _ => hw, fun hk => by simp at hk⟩)
  have wrap : ∀ {b : State → BodyResult} {j : Instr},
      exec j s = runCommand .keyWrap b s → classOf j = .keyWrap → j ≠ .clear →
      ((∃ e, e ≠ .ok ∧ runCommand .keyWrap b s = .next (failCommand .keyWrap e s)) ∨
        ∃ out x w, runCommand .keyWrap b s = .next (complete out { beginCommand s with sess := x, kw := w }) ∧
          w = KeyWrapTemps.zero ∧ x = s.sess) →
      (∃ e, e ≠ .ok ∧ exec j s = .next (failCommand (classOf j) e s)) ∨
      (j = .clear ∧ exec j s = .next { clearAll (beginCommand s) with busy := false }) ∨
      (j ≠ .clear ∧ ∃ out x w, exec j s = .next (complete out { beginCommand s with sess := x, kw := w }) ∧
        (classOf j ≠ .keyWrap → w = s.kw) ∧ (classOf j = .keyWrap → w = KeyWrapTemps.zero ∧ x = s.sess)) := by
    intro b j hj hc hn h
    rw [hj, hc]
    rcases h with h | ⟨out, x, w, h, hw⟩
    · exact .inl h
    · exact .inr (.inr ⟨hn, out, x, w, h, fun hk => absurd rfl hk, fun _ => hw⟩)
  cases i with
  | encinitEcb => exact mode rfl rfl (by simp) (init .encrypt .ecb)
  | encinitCbc => exact mode rfl rfl (by simp) (init .encrypt .cbc)
  | decinitEcb => exact mode rfl rfl (by simp) (init .decrypt .ecb)
  | decinitCbc => exact mode rfl rfl (by simp) (init .decrypt .cbc)
  | encupd => exact mode rfl rfl (by simp) (upd .encrypt encStream)
  | decupd => exact mode rfl rfl (by simp) (upd .decrypt decStream)
  | encfin =>
    refine mode rfl rfl (by simp) ?_
    have h := run_encFinalBody s
    split at h
    · exact .inl (fail h (by decide))
    · exact .inr (sessOk _ _ h)
  | decfin =>
    refine mode rfl rfl (by simp) ?_
    have h := run_decFinalBody s
    split at h
    · exact .inl (fail h (by decide))
    · split at h
      · exact .inl (fail h (by decide))
      · split at h
        · exact .inl (fail h (by decide))
        · split at h
          · exact .inr (sessOk _ _ h)
          · rename_i e he
            refine .inl (fail h ?_)
            rintro rfl
            exact unpad_error_ne_ok _ he
  | wrapKw =>
    refine wrap rfl rfl (by simp) ?_
    have h := run_wrapKwBody s
    split at h
    · exact .inl (fail h (by decide))
    · split at h
      · exact .inl (fail h (by decide))
      · split at h
        · exact .inl (fail h (by decide))
        · exact .inr (wrapOk _ h)
  | wrapKwp =>
    refine wrap rfl rfl (by simp) ?_
    have h := run_wrapKwpBody s
    split at h
    · exact .inl (fail h (by decide))
    · split at h
      · exact .inl (fail h (by decide))
      · split at h
        · exact .inl (fail h (by decide))
        · exact .inr (wrapOk _ h)
  | unwrapKw =>
    refine wrap rfl rfl (by simp) ?_
    have h := run_unwrapKwBody s
    split at h
    · exact .inl (fail h (by decide))
    · split at h
      · exact .inl (fail h (by decide))
      · split at h
        · exact .inl (fail h (by decide))
        · split at h
          · exact .inl (fail h (by decide))
          · exact .inr (wrapOk _ h)
  | unwrapKwp =>
    refine wrap rfl rfl (by simp) ?_
    have h := run_unwrapKwpBody s
    split at h
    · exact .inl (fail h (by decide))
    · split at h
      · exact .inl (fail h (by decide))
      · split at h
        · exact .inl (fail h (by decide))
        · dsimp only at h
          split at h
          · exact .inl (fail h (by decide))
          · split at h
            · exact .inr (wrapOk _ h)
            · rename_i e he
              refine .inl (fail h ?_)
              rintro rfl
              exact mliCheck_error_ne_ok _ _ he
  | clear => exact .inr (.inl ⟨rfl, rfl⟩)
  | encinitBadalg alg => exact mode rfl rfl (by simp) (.inl bad)
  | decinitBadalg alg => exact mode rfl rfl (by simp) (.inl bad)
  | wrapBadalg alg => exact wrap rfl rfl (by simp) (.inl (fail (run_raiseBody .keyWrap .invalidMode s) (by decide)))
  | unwrapBadalg alg => exact wrap rfl rfl (by simp) (.inl (fail (run_raiseBody .keyWrap .invalidMode s) (by decide)))
  | illegal w => exact .inl ⟨.illegalCommand, by decide, run_raiseBody .control .illegalCommand s⟩

end Sys2Proof.Machine
end

