-- ==== Sys2Proof/Laws/PerInstr.lean ====
section
/-! SUPPORT. Per-instruction lemmas: the word of every instruction carries the fixed bits of its row of
spec/opcode_table.json. -/

namespace Sys2Proof.Laws

open Sys2Proof

/-- A row of the opcode table: which bits are fixed, and their values. -/
structure Row where
  mask : Word
  bits : Word
deriving DecidableEq, Repr

/-- A row whose word is given whole. -/
def wholeWord (w : Word) : Row := { mask := 0xFFFFFFFF, bits := w }

/-- A row that fixes OP and RSV and leaves ALG (30_encoding.md R76, R77). -/
def anyAlg (op : Word) : Row := { mask := 0xFFFFFF0F, bits := op }

/-- The row of each instruction (30_encoding.md R77). -/
def rowOf : Instr → Row
  | .encinitEcb => wholeWord 0x00000001
  | .encinitCbc => wholeWord 0x00000011
  | .decinitEcb => wholeWord 0x00000002
  | .decinitCbc => wholeWord 0x00000012
  | .encupd => wholeWord 0x00000003
  | .decupd => wholeWord 0x00000004
  | .encfin => wholeWord 0x00000005
  | .decfin => wholeWord 0x00000006
  | .wrapKw => wholeWord 0x00000027
  | .wrapKwp => wholeWord 0x00000037
  | .unwrapKw => wholeWord 0x00000028
  | .unwrapKwp => wholeWord 0x00000038
  | .clear => wholeWord 0x00000009
  | .encinitBadalg _ => anyAlg 0x00000001
  | .decinitBadalg _ => anyAlg 0x00000002
  | .wrapBadalg _ => anyAlg 0x00000007
  | .unwrapBadalg _ => anyAlg 0x00000008
  | .illegal _ => { mask := 0x00000000, bits := 0x00000000 }

/-- The word of a well-formed instruction has the fixed bits of the instruction's row. -/
def TableRow.Statement (i : Instr) : Prop := i.wf = true → encode i &&& (rowOf i).mask = (rowOf i).bits

theorem TableRow.encinitEcb : TableRow.Statement .encinitEcb := fun _ => by decide
theorem TableRow.encinitCbc : TableRow.Statement .encinitCbc := fun _ => by decide
theorem TableRow.decinitEcb : TableRow.Statement .decinitEcb := fun _ => by decide
theorem TableRow.decinitCbc : TableRow.Statement .decinitCbc := fun _ => by decide
theorem TableRow.encupd : TableRow.Statement .encupd := fun _ => by decide
theorem TableRow.decupd : TableRow.Statement .decupd := fun _ => by decide
theorem TableRow.encfin : TableRow.Statement .encfin := fun _ => by decide
theorem TableRow.decfin : TableRow.Statement .decfin := fun _ => by decide
theorem TableRow.wrapKw : TableRow.Statement .wrapKw := fun _ => by decide
theorem TableRow.wrapKwp : TableRow.Statement .wrapKwp := fun _ => by decide
theorem TableRow.unwrapKw : TableRow.Statement .unwrapKw := fun _ => by decide
theorem TableRow.unwrapKwp : TableRow.Statement .unwrapKwp := fun _ => by decide
theorem TableRow.clear : TableRow.Statement .clear := fun _ => by decide

theorem TableRow.encinitBadalg (alg : BitVec 4) : TableRow.Statement (.encinitBadalg alg) :=
  fun _ => by revert alg; decide
theorem TableRow.decinitBadalg (alg : BitVec 4) : TableRow.Statement (.decinitBadalg alg) :=
  fun _ => by revert alg; decide
theorem TableRow.wrapBadalg (alg : BitVec 4) : TableRow.Statement (.wrapBadalg alg) :=
  fun _ => by revert alg; decide
theorem TableRow.unwrapBadalg (alg : BitVec 4) : TableRow.Statement (.unwrapBadalg alg) :=
  fun _ => by revert alg; decide

theorem TableRow.illegal (w : BitVec 32) : TableRow.Statement (.illegal w) := fun _ => BitVec.and_zero

end Sys2Proof.Laws
end

