-- ==== Sys2Proof/Laws/Streams.lean ====
section
/-! SUPPORT. What the block loops of the updates do: lengths, the session fields they leave alone, and how a loop over a
longer input splits into two. -/

namespace Sys2Proof.Machine

open Sys2Proof Host

/-! ## Single blocks -/

/-- A single-block step changes of the session at most `sess.CB`, and only for CBC. -/
def blockStepFrame (f : Session → Block → Block × Session) : Prop :=
  ∀ x b, (f x b).2 = { x with cb := (f x b).2.cb } ∧ (x.mode = .ecb → (f x b).2 = x)

theorem encBlock_frame (prim : Primitive) : blockStepFrame (encBlock prim) := by
  rintro ⟨st, dir, mode, key, cb, pend⟩ b
  cases mode <;> simp [encBlock]

theorem decBlock_frame (prim : Primitive) : blockStepFrame (decBlock prim) := by
  rintro ⟨st, dir, mode, key, cb, pend⟩ b
  cases mode <;> simp [decBlock]

/-- The steps do not look at `sess.PEND`. -/
theorem encBlock_pend (prim : Primitive) (x : Session) (p : Bytes) (b : Block) :
    encBlock prim { x with pend := p } b = ((encBlock prim x b).1, { (encBlock prim x b).2 with pend := p }) := by
  unfold encBlock
  cases h : x.mode <;> simp [h]

theorem decBlock_pend (prim : Primitive) (x : Session) (p : Bytes) (b : Block) :
    decBlock prim { x with pend := p } b = ((decBlock prim x b).1, { (decBlock prim x b).2 with pend := p }) := by
  unfold decBlock
  cases h : x.mode <;> simp [h]

/-! ## Lists of blocks -/

theorem overBlocks_length (f : Session → Block → Block × Session) (x : Session) (l : List Block) :
    (overBlocks f x l).1.length = 16 * l.length := by
  induction l generalizing x with
  | nil => rfl
  | cons b l ih => simp [overBlocks, ih, (f x b).1.2]; omega

theorem overBlocks_append (f : Session → Block → Block × Session) (x : Session) (l l' : List Block) :
    overBlocks f x (l ++ l')
      = ((overBlocks f x l).1 ++ (overBlocks f (overBlocks f x l).2 l').1, (overBlocks f (overBlocks f x l).2 l').2) := by
  induction l generalizing x with
  | nil => rfl
  | cons b l ih => simp [overBlocks, ih]

theorem overBlocks_frame {f : Session → Block → Block × Session} (hf : blockStepFrame f) (x : Session) (l : List Block) :
    (overBlocks f x l).2 = { x with cb := (overBlocks f x l).2.cb } ∧ (x.mode = .ecb → (overBlocks f x l).2 = x) := by
  induction l generalizing x with
  | nil => exact ⟨rfl, fun _ => rfl⟩
  | cons b l ih =>
    have h1 := hf x b
    have h2 := ih (f x b).2
    refine ⟨?_, fun he => ?_⟩
    · show (overBlocks f (f x b).2 l).2 = { x with cb := (overBlocks f (f x b).2 l).2.cb }
      rw [h2.1, h1.1]
    · show (overBlocks f (f x b).2 l).2 = x
      rw [h1.2 he] at h2 ⊢
      exact h2.2 he

/-- A loop started with another `sess.PEND` leaves that one. -/
theorem overBlocks_pend {f : Session → Block → Block × Session}
    (hf : ∀ x p b, f { x with pend := p } b = ((f x b).1, { (f x b).2 with pend := p })) (x : Session) (p : Bytes)
    (l : List Block) :
    overBlocks f { x with pend := p } l = ((overBlocks f x l).1, { (overBlocks f x l).2 with pend := p }) := by
  induction l generalizing x with
  | nil => rfl
  | cons b l ih =>
    have h1 : overBlocks f { x with pend := p } (b :: l)
        = ((f { x with pend := p } b).1.1 ++ (overBlocks f (f { x with pend := p } b).2 l).1,
           (overBlocks f (f { x with pend := p } b).2 l).2) := rfl
    rw [h1, hf, ih]
    rfl

/-! ## Streams -/

/-- The loop both updates run over the first `n` blocks of a buffer. -/
def streamOver (f : Session → Block → Block × Session) (n : Nat) (x : Session) (buf : Bytes) : Bytes × Session :=
  ((overBlocks f x (pieces 16 n buf)).1, { (overBlocks f x (pieces 16 n buf)).2 with pend := buf.drop (16 * n) })

theorem encStream_eq (prim : Primitive) (x : Session) (input : Bytes) :
    encStream prim x input = streamOver (encBlock prim) ((x.pend ++ input).length / 16) x (x.pend ++ input) := rfl

theorem decStream_eq (prim : Primitive) (x : Session) (input : Bytes) :
    decStream prim x input = streamOver (decBlock prim) ((x.pend ++ input).length / 16 - 1) x (x.pend ++ input) := rfl

theorem streamOver_length (f : Session → Block → Block × Session) (n : Nat) (x : Session) (buf : Bytes) :
    (streamOver f n x buf).1.length = 16 * n := by
  simp [streamOver, overBlocks_length]

theorem streamOver_pend (f : Session → Block → Block × Session) (n : Nat) (x : Session) (buf : Bytes) :
    (streamOver f n x buf).2.pend = buf.drop (16 * n) := rfl

theorem streamOver_frame {f : Session → Block → Block × Session} (hf : blockStepFrame f) (n : Nat) (x : Session)
    (buf : Bytes) :
    (streamOver f n x buf).2 = { x with cb := (streamOver f n x buf).2.cb, pend := buf.drop (16 * n) } ∧
    (x.mode = .ecb → (streamOver f n x buf).2 = { x with pend := buf.drop (16 * n) }) := by
  have h := overBlocks_frame hf x (pieces 16 n buf)
  refine ⟨?_, fun he => ?_⟩
  · show { (overBlocks f x (pieces 16 n buf)).2 with pend := buf.drop (16 * n) } = _
    rw [h.1]
    rfl
  · show { (overBlocks f x (pieces 16 n buf)).2 with pend := buf.drop (16 * n) } = _
    rw [h.2 he]

/-- Two loops over two parts of a buffer are one loop over the whole. -/
theorem streamOver_append {f : Session → Block → Block × Session}
    (hf : ∀ x p b, f { x with pend := p } b = ((f x b).1, { (f x b).2 with pend := p })) (m n : Nat) (x : Session)
    (a b : Bytes) (hm : 16 * m ≤ a.length) :
    streamOver f (m + n) x (a ++ b)
      = ((streamOver f m x a).1 ++ (streamOver f n (streamOver f m x a).2 (a.drop (16 * m) ++ b)).1,
         (streamOver f n (streamOver f m x a).2 (a.drop (16 * m) ++ b)).2) := by
  have hd : (a ++ b).drop (16 * m) = a.drop (16 * m) ++ b := List.drop_append_of_le_length hm
  have hp : pieces 16 (m + n) (a ++ b) = pieces 16 m a ++ pieces 16 n (a.drop (16 * m) ++ b) := by
    rw [pieces_add, pieces_append 16 m a b hm, hd]
  have hdd : (a ++ b).drop (16 * (m + n)) = (a.drop (16 * m) ++ b).drop (16 * n) := by
    rw [Nat.mul_add, ← List.drop_drop, hd]
  have hs : overBlocks f (streamOver f m x a).2 (pieces 16 n (a.drop (16 * m) ++ b)) = _ :=
    overBlocks_pend hf (overBlocks f x (pieces 16 m a)).2 (a.drop (16 * m)) _
  rw [streamOver, hp, overBlocks_append, hdd, streamOver.eq_def f n (streamOver f m x a).2, hs]
  rfl

/-- Encrypting two inputs one after the other is encrypting their concatenation. -/
theorem encStream_append (prim : Primitive) (x : Session) (a b : Bytes) :
    encStream prim x (a ++ b)
      = ((encStream prim x a).1 ++ (encStream prim (encStream prim x a).2 b).1, (encStream prim (encStream prim x a).2 b).2) := by
  have hn : ((x.pend ++ (a ++ b)).length / 16)
      = (x.pend ++ a).length / 16 + (((x.pend ++ a).drop (16 * ((x.pend ++ a).length / 16)) ++ b).length / 16) := by
    simp only [List.length_append, List.length_drop]; omega
  rw [encStream_eq prim x (a ++ b), hn, ← List.append_assoc,
    streamOver_append (encBlock_pend prim) _ _ x (x.pend ++ a) b (by omega)]
  rfl

/-- Decrypting two inputs one after the other is decrypting their concatenation. -/
theorem decStream_append (prim : Primitive) (x : Session) (a b : Bytes) :
    decStream prim x (a ++ b)
      = ((decStream prim x a).1 ++ (decStream prim (decStream prim x a).2 b).1, (decStream prim (decStream prim x a).2 b).2) := by
  have hn : ((x.pend ++ (a ++ b)).length / 16 - 1)
      = ((x.pend ++ a).length / 16 - 1)
        + (((x.pend ++ a).drop (16 * ((x.pend ++ a).length / 16 - 1)) ++ b).length / 16 - 1) := by
    simp only [List.length_append, List.length_drop]; omega
  rw [decStream_eq prim x (a ++ b), hn, ← List.append_assoc,
    streamOver_append (decBlock_pend prim) _ _ x (x.pend ++ a) b (by omega)]
  rfl

end Sys2Proof.Machine
end

