-- ==== Sys2Proof/Laws/Steps.lean ====
section
/-! SUPPORT. What one step of the machine can do, said once; how a command ends, with the bounds its output and session keep;
and that a command does not look at the model's own fields. -/

namespace Sys2Proof.Machine

open Sys2Proof Host

/-- Every step that goes on is the engine's, one that the block takes no part in (it is idle, or the access is outside its
window), a legal access, the expansion of RDOUT or of a POLL that finds BUSY = 1, or reset. -/
theorem step_cases {s t : State} (h : step s = .next t) :
    (∃ r, s.busy = true ∧ exec (decode s.cmd) { s with arrivals := r } = .next t) ∨
    (∃ r, t = { s with arrivals := r }) ∨
    (∃ r off w, off < 0x40000 ∧ accessLegal off w = true ∧ t = doRead off w { s with arrivals := r }) ∨
    (∃ r off w v, off < 0x40000 ∧ accessLegal off w = true ∧ t = doWrite off w v { s with arrivals := r }) ∨
    (∃ r, t = startReadOut { s with arrivals := r }) ∨
    (∃ r, s.busy = true ∧ t = pollOn r s) ∨
    (∃ r, s.arrivals = .reset :: r ∧ t = platformReset { s with arrivals := r }) := by
  have acc : ∀ {a w} {f : Nat → State → State} {r}, access a w f { s with arrivals := r } = .next t →
      t = { s with arrivals := r } ∨
        ∃ off, off < 0x40000 ∧ accessLegal off w = true ∧ t = f off { s with arrivals := r } := by
    intro a w f r ha
    unfold access at ha
    split at ha
    · exact .inl (Outcome.next.inj ha).symm
    · rename_i off ho
      split at ha
      · exact .inr ⟨off, (offsetOf_some ho).2, ‹_›, (Outcome.next.inj ha).symm⟩
      · simp at ha
  have hb := Bool.eq_false_or_eq_true s.busy
  unfold step nextTurn at h
  cases he : s.arrivals with
  | nil =>
    have hs : { s with arrivals := [] } = s := by rw [← he]
    simp only [he] at h
    rcases hb with hb | hb
    · rw [if_pos hb] at h
      exact .inl ⟨[], hb, by rw [hs]; exact h⟩
    · rw [if_neg (by simp [hb])] at h
      exact .inr (.inl ⟨[], by rw [hs]; exact (Outcome.next.inj h).symm⟩)
  | cons e r =>
    simp only [he] at h
    cases e with
    | engine =>
      rcases hb with hb | hb
      · simp only [hb, if_true] at h
        exact .inl ⟨r, hb, by simpa only [hb] using h⟩
      · simp only [hb, Bool.false_eq_true, if_false, Outcome.next.injEq] at h
        exact .inr (.inl ⟨r, by rw [← h]; simp only [hb]⟩)
    | poll =>
      dsimp only at h
      rcases hb with hb | hb
      · rw [if_pos hb] at h
        exact .inr (.inr (.inr (.inr (.inr (.inl ⟨r, hb, (Outcome.next.inj h).symm⟩)))))
      · rw [if_neg (by simp [hb])] at h
        obtain h0 | ⟨off, h1, h2, h3⟩ := acc h
        · exact .inr (.inl ⟨r, h0⟩)
        · exact .inr (.inr (.inl ⟨r, off, _, h1, h2, h3⟩))
    | readOut => exact .inr (.inr (.inr (.inr (.inl ⟨r, (Outcome.next.inj h).symm⟩))))
    | reset => exact .inr (.inr (.inr (.inr (.inr (.inr ⟨r, rfl, (Outcome.next.inj h).symm⟩)))))
    | read a w =>
      obtain h0 | ⟨off, h1, h2, h3⟩ := acc h
      · exact .inr (.inl ⟨r, h0⟩)
      · exact .inr (.inr (.inl ⟨r, off, _, h1, h2, h3⟩))
    | write a w v =>
      obtain h0 | ⟨off, h1, h2, h3⟩ := acc h
      · exact .inr (.inl ⟨r, h0⟩)
      · exact .inr (.inr (.inr (.inl ⟨r, off, _, v, h1, h2, h3⟩)))

/-! ## Bounds -/

theorem encStream_length_le (prim : Primitive) (x : Session) (input : Bytes) (n : Nat) (hp : x.pend.length ≤ 15)
    (hn : n % 16 = 0) (hi : input.length ≤ n) : (encStream prim x input).1.length ≤ n := by
  rw [encStream_eq, streamOver_length, List.length_append]; omega

theorem decStream_length_le (prim : Primitive) (x : Session) (input : Bytes) (n : Nat) (hp : x.pend.length ≤ 31)
    (hi : input.length ≤ n) : (decStream prim x input).1.length ≤ n + 16 := by
  rw [decStream_eq, streamOver_length, List.length_append]; omega

/-- The wrap loops keep the number of registers. -/
theorem wrapPass_length (prim : Primitive) (k : Bytes) (t : Nat) (a : Semi) (b : Block) (r : List Semi) :
    (wrapPass prim k t a b r).r.length = r.length := by
  induction r generalizing t a b with
  | nil => rfl
  | cons x r ih => simp [wrapPass, ih]

theorem unwrapPass_length (prim : Primitive) (k : Bytes) (t : Nat) (a : Semi) (b : Block) (r : List Semi) :
    (unwrapPass prim k t a b r).r.length = r.length := by
  induction r generalizing t a b with
  | nil => rfl
  | cons x r ih => simp [unwrapPass, ih]

theorem w3394_length (prim : Primitive) (k : Bytes) (w : KeyWrapTemps) : (w3394 prim k w).r.length = w.r.length := by
  simp [w3394, List.range, List.range.loop, wrapPass_length]

theorem u3394_length (prim : Primitive) (k : Bytes) (w : KeyWrapTemps) : (u3394 prim k w).r.length = w.r.length := by
  simp [u3394, List.range, List.range.loop, unwrapPass_length]

theorem output_length (w : KeyWrapTemps) : w.output.length = 8 + 8 * w.r.length := by
  simp [KeyWrapTemps.output, w.a.2]

theorem padKeyData_length (b : Bytes) : (padKeyData b).length = 8 * ((b.length + 7) / 8) := by
  simp only [padKeyData, List.length_append, List.length_replicate]; omega

/-- WRAP.KWP's output is 8 bytes longer than the padded key data. -/
theorem wrapPadded_length (k : Bytes) (mli : Nat) (p : Bytes) (s : State) (h : p.length % 8 = 0) :
    (wrapPadded k mli p s).2.length = p.length + 8 := by
  unfold wrapPadded
  split
  · simp only [(runWrapOne k (loadWrap (aiv mli) [] s) (fitBytes 8 p)).kw.b.2]; omega
  · simp only [runWrap, output_length, w3394_length, loadWrap, pieces_length]; omega

theorem unwrapPadded_length (k input : Bytes) (s : State) (h : input.length % 8 = 0) (h16 : 16 ≤ input.length) :
    (joinPieces (unwrapPadded k input s).kw.r).length = input.length - 8 := by
  unfold unwrapPadded
  split
  · simp only [runUnwrapOne, joinPieces_length, List.length_cons, List.length_nil]; omega
  · simp only [runUnwrap, joinPieces_length, u3394_length, loadWrap, pieces_length]; omega

theorem unpad_length {x : Block} {b : Bytes} (h : unpad x = .ok b) : b.length ≤ 15 := by
  unfold unpad at h
  dsimp only at h
  split at h
  · simp at h
  · split at h
    · obtain rfl := Except.ok.inj h
      simp only [List.length_take, x.2]; omega
    · simp at h

theorem session_inv_of_not_ready {x : Session} (h : x.inv) (hn : x.st ≠ .ready) : x.empty := h.1 hn

theorem finalized_inv : Session.finalized.inv := by decide

/-- A stream keeps the invariant of a Ready session. -/
theorem streamOver_inv {f : Session → Block → Block × Session} (hf : blockStepFrame f) (n : Nat) (x : Session) (buf : Bytes)
    (hx : x.inv) (hr : x.st = .ready) (he : x.dir = .encrypt → (buf.drop (16 * n)).length ≤ 15)
    (hd : x.dir = .decrypt → (buf.drop (16 * n)).length ≤ 31) : (streamOver f n x buf).2.inv := by
  have h := streamOver_frame hf n x buf
  have h1 := h.1
  generalize streamOver f n x buf = y at h h1
  obtain ⟨_, h2, h3, h4, h5⟩ := hx
  refine ⟨fun hn => ?_, fun _ => ?_, fun _ hdir => ?_, fun _ hdir => ?_, fun _ hm => ?_⟩
  · rw [h1] at hn; exact absurd hr hn
  · rw [h1]; exact h2 hr
  · rw [h1] at hdir ⊢; exact he hdir
  · rw [h1] at hdir ⊢
    have := hd hdir
    exact ⟨this, by show (buf.drop (16 * n)).length / 16 ≤ 1; omega⟩
  · rw [h1] at hm
    rw [h.2 hm]
    exact h5 hr hm

/-- How a command ends in a machine in good order: with an error, by CLEAR, or with an output that fits OUT and a session that
keeps its invariant. -/
theorem exec_forms_inv (i : Instr) (s : State) (hs : s.Inv) :
    (∃ e, e ≠ .ok ∧ exec i s = .next (failCommand (classOf i) e s)) ∨
    (i = .clear ∧ exec i s = .next { clearAll (beginCommand s) with busy := false }) ∨
    (i ≠ .clear ∧ ∃ out x, out.length ≤ s.cfg.obufSize ∧ x.inv ∧
      exec i s = .next (complete out { beginCommand s with sess := x })) := by
  obtain ⟨⟨_, hb1, hb2, hb3⟩, _, _, hsess, hkw⟩ := hs
  have hob : s.cfg.obufSize = s.cfg.ibufSize + 16 := rfl
  have hwipe : wipeWrap (beginCommand s) = { beginCommand s with sess := s.sess } := by
    unfold wipeWrap beginCommand; rw [← hkw]
  have hk : s.keyOk → s.keyOf.length = 16 ∨ s.keyOf.length = 24 ∨ s.keyOf.length = 32 := keyOk_length
  let P (cls : CmdClass) (b : State → BodyResult) : Prop :=
    (∃ e, e ≠ .ok ∧ runCommand cls b s = .next (failCommand cls e s)) ∨
    ∃ out x, out.length ≤ s.cfg.obufSize ∧ x.inv ∧ runCommand cls b s = .next (complete out { beginCommand s with sess := x })
  have fail : ∀ {cls e} {b : State → BodyResult}, runCommand cls b s = .next (failCommand cls e s) → e ≠ .ok → P cls b :=
    fun h he => .inl ⟨_, he, h⟩
  have done : ∀ {cls} {b : State → BodyResult} (out : Bytes) (x : Session),
      runCommand cls b s = .next (complete out { beginCommand s with sess := x }) → out.length ≤ s.cfg.obufSize → x.inv →
      P cls b := fun out x h h1 h2 => .inr ⟨out, x, h1, h2, h⟩
  have init : ∀ (d : Dir) (m : Mode), P .modeEngine (initSession d m) := by
    intro d m
    cases m
    · have h := run_initSession_ecb d s
      split at h
      · exact fail h (by decide)
      · split at h
        · exact fail h (by decide)
        · refine done _ _ h (by simp) ⟨by simp, fun _ => hk (not_not.1 ‹_›), by simp, by simp, by simp⟩
    · have h := run_initSession_cbc d s
      split at h
      · exact fail h (by decide)
      · split at h
        · exact fail h (by decide)
        · split at h
          · exact fail h (by decide)
          · exact done _ _ h (by simp) ⟨by simp, fun _ => hk (not_not.1 ‹_›), by simp, by simp, by simp⟩
  have bad : P .modeEngine initBadMode := by
    have h := run_initBadMode s
    split at h
    · exact fail h (by decide)
    · exact fail h (by decide)
  have upd : ∀ (d : Dir) (f : Primitive → Session → Bytes → Bytes × Session),
      (s.inSession d → s.inputFits →
        (f s.cfg.prim s.sess (seenInput s)).1.length ≤ s.cfg.obufSize ∧ (f s.cfg.prim s.sess (seenInput s)).2.inv) →
      P .modeEngine (updateBody d f) := by
    intro d f hf
    have h := run_updateBody d f s
    split at h
    · exact fail h (by decide)
    · split at h
      · exact fail h (by decide)
      · have := hf (not_not.1 ‹_›) (not_not.1 ‹_›)
        exact done _ _ h this.1 this.2
  have mode : ∀ {b : State → BodyResult} {j : Instr},
      exec j s = runCommand .modeEngine b s → classOf j = .modeEngine → j ≠ .clear → P .modeEngine b →
      (∃ e, e ≠ .ok ∧ exec j s = .next (failCommand (classOf j) e s)) ∨
      (j = .clear ∧ exec j s = .next { clearAll (beginCommand s) with busy := false }) ∨
      (j ≠ .clear ∧ ∃ out x, out.length ≤ s.cfg.obufSize ∧ x.inv ∧
        exec j s = .next (complete out { beginCommand s with sess := x })) := by
    intro b j hj hc hn h
    rw [hj, hc]
    exact h.imp id (fun h => .inr ⟨hn, h⟩)
  have wrap : ∀ {b : State → BodyResult} {j : Instr},
      exec j s = runCommand .keyWrap b s → classOf j = .keyWrap → j ≠ .clear → P .keyWrap b →
      (∃ e, e ≠ .ok ∧ exec j s = .next (failCommand (classOf j) e s)) ∨
      (j = .clear ∧ exec j s = .next { clearAll (beginCommand s) with busy := false }) ∨
      (j ≠ .clear ∧ ∃ out x, out.length ≤ s.cfg.obufSize ∧ x.inv ∧
        exec j s = .next (complete out { beginCommand s with sess := x })) := by
    intro b j hj hc hn h
    rw [hj, hc]
    exact h.imp id (fun h => .inr ⟨hn, h⟩)
  have hlen := seenInput_length s
  cases i with
  | encinitEcb => exact mode rfl rfl (by simp) (init .encrypt .ecb)
  | encinitCbc => exact mode rfl rfl (by simp) (init .encrypt .cbc)
  | decinitEcb => exact mode rfl rfl (by simp) (init .decrypt .ecb)
  | decinitCbc => exact mode rfl rfl (by simp) (init .decrypt .cbc)
  | encupd =>
    refine mode rfl rfl (by simp) (upd .encrypt encStream (fun hd hf => ⟨?_, ?_⟩))
    · have := encStream_length_le s.cfg.prim s.sess (seenInput s) s.cfg.ibufSize (hsess.2.2.1 hd.1 hd.2) hb1 (by omega)
      omega
    · rw [encStream_eq]
      exact streamOver_inv (encBlock_frame _) _ _ _ hsess hd.1 (fun _ => by simp only [List.length_drop]; omega)
        (fun hdd => absurd (hd.2.symm.trans hdd) (by decide))
  | decupd =>
    refine mode rfl rfl (by simp) (upd .decrypt decStream (fun hd hf => ⟨?_, ?_⟩))
    · have := decStream_length_le s.cfg.prim s.sess (seenInput s) s.cfg.ibufSize (hsess.2.2.2.1 hd.1 hd.2).1 (by omega)
      omega
    · rw [decStream_eq]
      exact streamOver_inv (decBlock_frame _) _ _ _ hsess hd.1 (fun hde => absurd (hd.2.symm.trans hde) (by decide))
        (fun _ => by simp only [List.length_drop]; omega)
  | encfin =>
    refine mode rfl rfl (by simp) ?_
    have h := run_encFinalBody s
    split at h
    · exact fail h (by decide)
    · exact done _ _ h (by rw [(encBlock s.cfg.prim s.sess (pad s.sess.pend)).1.2]; omega) finalized_inv
  | decfin =>
    refine mode rfl rfl (by simp) ?_
    have h := run_decFinalBody s
    split at h
    · exact fail h (by decide)
    · split at h
      · exact fail h (by decide)
      · split at h
        · exact fail h (by decide)
        · split at h
          · rename_i out ho
            exact done _ _ h (by have := unpad_length ho; omega) finalized_inv
          · rename_i e he
            refine fail h ?_
            rintro rfl
            exact unpad_error_ne_ok _ he
  | wrapKw =>
    refine wrap rfl rfl (by simp) ?_
    have h := run_wrapKwBody s
    rw [hwipe] at h
    split at h
    · exact fail h (by decide)
    · split at h
      · exact fail h (by decide)
      · have hfit : s.inputFits := not_not.1 ‹_›
        split at h
        · exact fail h (by decide)
        · refine done _ _ h ?_ hsess
          simp only [output_length, w3394_length, loaded, pieces_length]
          omega
  | wrapKwp =>
    refine wrap rfl rfl (by simp) ?_
    have h := run_wrapKwpBody s
    rw [hwipe] at h
    split at h
    · exact fail h (by decide)
    · split at h
      · exact fail h (by decide)
      · have hfit : s.inputFits := not_not.1 ‹_›
        split at h
        · exact fail h (by decide)
        · refine done _ _ h ?_ hsess
          rw [wrapPadded_length _ _ _ _ (by rw [padKeyData_length]; omega), padKeyData_length]
          omega
  | unwrapKw =>
    refine wrap rfl rfl (by simp) ?_
    have h := run_unwrapKwBody s
    rw [hwipe] at h
    split at h
    · exact fail h (by decide)
    · split at h
      · exact fail h (by decide)
      · have hfit : s.inputFits := not_not.1 ‹_›
        split at h
        · exact fail h (by decide)
        · split at h
          · exact fail h (by decide)
          · refine done _ _ h ?_ hsess
            simp only [unwrapped, joinPieces_length, u3394_length, loaded, pieces_length]
            omega
  | unwrapKwp =>
    refine wrap rfl rfl (by simp) ?_
    have h := run_unwrapKwpBody s
    rw [hwipe] at h
    split at h
    · exact fail h (by decide)
    · split at h
      · exact fail h (by decide)
      · have hfit : s.inputFits := not_not.1 ‹_›
        split at h
        · exact fail h (by decide)
        · have hl : s.inlen.toNat % 8 = 0 ∧ 16 ≤ s.inlen.toNat := not_not.1 ‹_›
          dsimp only at h
          split at h
          · exact fail h (by decide)
          · split at h
            · refine done _ _ h ?_ hsess
              rw [List.length_take]
              have := unwrapPadded_length s.keyOf (seenInput s) s (by omega) (by omega)
              omega
            · rename_i e he
              refine fail h ?_
              rintro rfl
              exact mliCheck_error_ne_ok _ _ he
  | clear => exact .inr (.inl ⟨rfl, rfl⟩)
  | encinitBadalg alg => exact mode rfl rfl (by simp) bad
  | decinitBadalg alg => exact mode rfl rfl (by simp) bad
  | wrapBadalg alg => exact wrap rfl rfl (by simp) (fail (run_raiseBody .keyWrap .invalidMode s) (by decide))
  | unwrapBadalg alg => exact wrap rfl rfl (by simp) (fail (run_raiseBody .keyWrap .invalidMode s) (by decide))
  | illegal w => exact .inl ⟨.illegalCommand, by decide, run_raiseBody .control .illegalCommand s⟩

/-! ## The model's own fields -/

theorem failCommand_arrivals (cls : CmdClass) (e : ErrCode) (s : State) (a : List Event) :
    failCommand cls e { s with arrivals := a } = { failCommand cls e s with arrivals := a } := by
  rw [failCommand_eq, failCommand_eq]
  rfl

/-- A command does the same whatever is still to arrive. -/
theorem exec_arrivals (i : Instr) (s : State) (a : List Event) {t : State} (h : exec i s = .next t) :
    exec i { s with arrivals := a } = .next { t with arrivals := a } := by
  have ite_eq : ∀ {c : Prop} [Decidable c] {x y x' y' : State},
      { x with arrivals := a } = x' → { y with arrivals := a } = y' →
      { (if c then x else y) with arrivals := a } = (if c then x' else y') := by
    intro c _ x y x' y' hx hy
    split
    · exact hx
    · exact hy
  have fa : ∀ cls e, { failCommand cls e s with arrivals := a } = failCommand cls e { s with arrivals := a } :=
    fun cls e => (failCommand_arrivals cls e s a).symm
  have go : ∀ {cls} {b : State → BodyResult} {u u' : State}, runCommand cls b s = .next t → runCommand cls b s = .next u →
      runCommand cls b { s with arrivals := a } = .next u' → { u with arrivals := a } = u' →
      runCommand cls b { s with arrivals := a } = .next { t with arrivals := a } := by
    intro cls b u u' h1 h2 h3 h4
    rw [h3, ← h4, ← Outcome.next.inj (h1.symm.trans h2)]
  cases i with
  | encinitEcb => exact go h (run_initSession_ecb _ _) (run_initSession_ecb _ _) (ite_eq (fa _ _) (ite_eq (fa _ _) rfl))
  | encinitCbc =>
    exact go h (run_initSession_cbc _ _) (run_initSession_cbc _ _)
      (ite_eq (fa _ _) (ite_eq (fa _ _) (ite_eq (fa _ _) rfl)))
  | decinitEcb => exact go h (run_initSession_ecb _ _) (run_initSession_ecb _ _) (ite_eq (fa _ _) (ite_eq (fa _ _) rfl))
  | decinitCbc =>
    exact go h (run_initSession_cbc _ _) (run_initSession_cbc _ _)
      (ite_eq (fa _ _) (ite_eq (fa _ _) (ite_eq (fa _ _) rfl)))
  | encupd => exact go h (run_updateBody _ _ _) (run_updateBody _ _ _) (ite_eq (fa _ _) (ite_eq (fa _ _) rfl))
  | decupd => exact go h (run_updateBody _ _ _) (run_updateBody _ _ _) (ite_eq (fa _ _) (ite_eq (fa _ _) rfl))
  | encfin => exact go h (run_encFinalBody _) (run_encFinalBody _) (ite_eq (fa _ _) rfl)
  | decfin =>
    refine go h (run_decFinalBody _) (run_decFinalBody _) (ite_eq (fa _ _) (ite_eq (fa _ _) (ite_eq (fa _ _) ?_)))
    have hl : lastPlain { s with arrivals := a } = lastPlain s := rfl
    rw [hl]
    split
    · rfl
    · exact fa _ _
  | wrapKw =>
    exact go h (run_wrapKwBody _) (run_wrapKwBody _) (ite_eq (fa _ _) (ite_eq (fa _ _) (ite_eq (fa _ _) rfl)))
  | wrapKwp =>
    refine go h (run_wrapKwpBody _) (run_wrapKwpBody _) (ite_eq (fa _ _) (ite_eq (fa _ _) (ite_eq (fa _ _) ?_)))
    have hw : (wrapPadded s.keyOf s.inlen.toNat (padKeyData (seenInput s)) { s with arrivals := a }).2
        = (wrapPadded s.keyOf s.inlen.toNat (padKeyData (seenInput s)) s).2 := by
      unfold wrapPadded
      split <;> rfl
    show _ = complete (wrapPadded s.keyOf s.inlen.toNat (padKeyData (seenInput s)) { s with arrivals := a }).2 _
    rw [hw]
    rfl
  | unwrapKw =>
    exact go h (run_unwrapKwBody _) (run_unwrapKwBody _)
      (ite_eq (fa _ _) (ite_eq (fa _ _) (ite_eq (fa _ _) (ite_eq (fa _ _) rfl))))
  | unwrapKwp =>
    refine go h (run_unwrapKwpBody _) (run_unwrapKwpBody _) (ite_eq (fa _ _) (ite_eq (fa _ _) (ite_eq (fa _ _) ?_)))
    have hu : (unwrapPadded { s with arrivals := a }.keyOf (seenInput { s with arrivals := a }) { s with arrivals := a }).kw
        = (unwrapPadded s.keyOf (seenInput s) s).kw := by
      unfold unwrapPadded
      split <;> split <;> first | rfl | contradiction
    dsimp only
    rw [hu]
    refine ite_eq (fa _ _) ?_
    split
    · rfl
    · exact fa _ _
  | clear => rw [← Outcome.next.inj h]; rfl
  | encinitBadalg alg => exact go h (run_initBadMode _) (run_initBadMode _) (ite_eq (fa _ _) (fa _ _))
  | decinitBadalg alg => exact go h (run_initBadMode _) (run_initBadMode _) (ite_eq (fa _ _) (fa _ _))
  | wrapBadalg alg => exact go (cls := .keyWrap) (b := raiseBody .invalidMode) h (run_raiseBody _ _ _) (run_raiseBody _ _ _) (fa _ _)
  | unwrapBadalg alg => exact go (cls := .keyWrap) (b := raiseBody .invalidMode) h (run_raiseBody _ _ _) (run_raiseBody _ _ _) (fa _ _)
  | illegal w => exact go (cls := .control) (b := raiseBody .illegalCommand) h (run_raiseBody _ _ _) (run_raiseBody _ _ _) (fa _ _)

end Sys2Proof.Machine
end

