-- ==== Sys2Proof/Tests/Slice0.lean ====
section
/-! SUPPORT. The model's own tests: ill-formed terms, words written out from 30_encoding.md, single steps with the results of
95_test_vectors.md, and a state that meets the hypotheses of each statement. -/

namespace Sys2Proof.Tests

open Sys2Proof Sys2Proof.Machine Host

-- The kernel's checks follow one another; without this each theorem below would hold a thread while it waits for its turn.
set_option Elab.async false

/-! ## Well-formedness -/

theorem test_wf_refuses_mode_as_bad_enc : ([0, 1].map (fun a => (Instr.encinitBadalg a).wf)) = [false, false] := by decide
theorem test_wf_refuses_mode_as_bad_dec : ([0, 1].map (fun a => (Instr.decinitBadalg a).wf)) = [false, false] := by decide
theorem test_wf_refuses_kw_as_bad_wrap : ([2, 3].map (fun a => (Instr.wrapBadalg a).wf)) = [false, false] := by decide
theorem test_wf_refuses_kw_as_bad_unwrap : ([2, 3].map (fun a => (Instr.unwrapBadalg a).wf)) = [false, false] := by decide
theorem test_wf_refuses_legal_word_as_illegal :
    ([0x01, 0x37, 0x47, 0xF1, 0x09].map (fun w => (Instr.illegal w).wf)) = [false, false, false, false, false] := by decide

/-! ## Decoding: every row's word written out as RSV, ALG, OP (30_encoding.md R70, R72, R73) -/

theorem test_decode_encinitEcb : decode 0b000000000000000000000000_0000_0001 = .encinitEcb := by decide
theorem test_decode_encinitCbc : decode 0b000000000000000000000000_0001_0001 = .encinitCbc := by decide
theorem test_decode_decinitEcb : decode 0b000000000000000000000000_0000_0010 = .decinitEcb := by decide
theorem test_decode_decinitCbc : decode 0b000000000000000000000000_0001_0010 = .decinitCbc := by decide
theorem test_decode_encupd : decode 0b000000000000000000000000_0000_0011 = .encupd := by decide
theorem test_decode_decupd : decode 0b000000000000000000000000_0000_0100 = .decupd := by decide
theorem test_decode_encfin : decode 0b000000000000000000000000_0000_0101 = .encfin := by decide
theorem test_decode_decfin : decode 0b000000000000000000000000_0000_0110 = .decfin := by decide
theorem test_decode_wrapKw : decode 0b000000000000000000000000_0010_0111 = .wrapKw := by decide
theorem test_decode_wrapKwp : decode 0b000000000000000000000000_0011_0111 = .wrapKwp := by decide
theorem test_decode_unwrapKw : decode 0b000000000000000000000000_0010_1000 = .unwrapKw := by decide
theorem test_decode_unwrapKwp : decode 0b000000000000000000000000_0011_1000 = .unwrapKwp := by decide
theorem test_decode_clear : decode 0b000000000000000000000000_0000_1001 = .clear := by decide
theorem test_decode_encinitBadalg : decode 0b000000000000000000000000_0010_0001 = .encinitBadalg 2 := by decide
theorem test_decode_decinitBadalg : decode 0b000000000000000000000000_1111_0010 = .decinitBadalg 15 := by decide
theorem test_decode_wrapBadalg : decode 0b000000000000000000000000_0001_0111 = .wrapBadalg 1 := by decide
theorem test_decode_unwrapBadalg : decode 0b000000000000000000000000_0100_1000 = .unwrapBadalg 4 := by decide
theorem test_decode_illegal :
    [0x00000000, 0x0000000A, 0x00000013, 0x00000019, 0x00000101, 0x80000027].map decode =
      [.illegal 0x00000000, .illegal 0x0000000A, .illegal 0x00000013, .illegal 0x00000019, .illegal 0x00000101,
        .illegal 0x80000027] := by decide
theorem test_decode_table_word :
    decodeTableWord 32 0x00000027 = some .wrapKw ∧ decodeTableWord 8 0x27 = some .wrapKw := by decide
theorem test_decode_refuses_half_a_word : decodeBytes [0x27, 0x00] matches .error (.notOneWord 2) := by decide

/-! ## Small states -/

/-- The key of 95_test_vectors.md named k128. -/
def k128 : Bytes := bigEndian 16 0x000102030405060708090A0B0C0D0E0F

/-- The key of 95_test_vectors.md named kek5649. -/
def kek5649 : Bytes := bigEndian 24 0x5840DF6E29B02AF1AB493B705BF16EA1AE8338F4DCC176A8

/-- The key data of 44_keywrap_rfc3394.md R165. -/
def keyData : Bytes := bigEndian 16 0x00112233445566778899AABBCCDDEEFF

/-- The wrapped key data of 44_keywrap_rfc3394.md R165. -/
def wrapped : Bytes := bigEndian 24 0x1FA68B0A8112B447AEF34BD8FB5A7B829D3E862371D2CFE5

/-- The same with its last bit flipped (V-KW-3). -/
def tampered : Bytes := bigEndian 24 0x1FA68B0A8112B447AEF34BD8FB5A7B829D3E862371D2CFE4

/-- What SETKEY leaves. -/
def withKey (bits : Nat) (k : Bytes) (s : State) : State :=
  { s with mem := Memory.write s.mem keyBase k, keycfg := BitVec.ofNat 32 (bits + 65536 * k.length) }

/-- What SETIV leaves. -/
def withIv (b : Bytes) (s : State) : State :=
  { s with mem := Memory.write s.mem ivBase b, ivcfg := BitVec.ofNat 32 b.length }

/-- The reset state with k128 set. -/
def keyed : State := withKey 128 k128 State.reset

/-- The same with INLEN written. -/
def withLen (n : Word) : State := { keyed with inlen := n }

/-- The reset state with k128 and a 16-byte IV set (V-CBC-5). -/
def keyedIv : State := withIv (bigEndian 16 0x0F0E0D0C0B0A09080706050403020100) keyed

/-- The invariant as a check to evaluate. -/
def inOrder (s : State) : Bool := decide s.Inv

theorem inv_of_inOrder {s : State} (h : inOrder s = true) : s.Inv := of_decide_eq_true h

/-- A running session with k128; a CBC session's chaining block is all A6. -/
def inReady (d : Dir) (m : Mode) (pend : Bytes) : State :=
  { State.reset with
    sess :=
      { st := .ready, dir := d, mode := m, key := k128, pend := pend
        cb := match m with
          | .ecb => zeros 16
          | .cbc => ⟨List.replicate 16 0xA6, rfl⟩ } }

/-- A finished session. -/
def inFinalized : State := { State.reset with sess := Session.finalized }

/-- Other parameters: another base, the smallest IN window and a primitive of which only its laws are known. -/
def smallParams : Params := { base := 0xC0000, ibufSize := 32, prim := .uninterpreted 7 }

/-- The largest IN window. -/
def largeParams : Params := { base := 0x80000, ibufSize := 65520, prim := .fips197 }

/-- The reset state of the small parameters, with something on its way. -/
def coming (l : List Event) : State := { State.resetFor smallParams with arrivals := l }

/-- The same with a CLEAR running. -/
def busyComing (l : List Event) : State := { coming l with busy := true, cmd := 0x00000009 }

/-- STATUS, and the valid output, after a step that gives a next state. -/
def after : Outcome State Fault Refusal → Option (Word × Bytes)
  | .next t => some (statusWord t, outBytes t)
  | .fault _ => none
  | .refused _ => none

/-- The fault a step stops with. -/
def stops : Outcome State Fault Refusal → Option Fault
  | .next _ => none
  | .fault f => some f
  | .refused _ => none

/-- A step gives a next state of which a check holds. -/
def leads (o : Outcome State Fault Refusal) (p : State → Bool) : Bool :=
  match o with
  | .next t => p t
  | .fault _ => false
  | .refused _ => false

theorem next_of_leads {o : Outcome State Fault Refusal} {p : State → Bool} (h : leads o p = true) :
    ∃ t, o = .next t ∧ p t = true := by
  cases o with
  | next t => exact ⟨t, rfl, h⟩
  | fault f => cases h
  | refused r => cases h

/-- The word placed to be fetched runs and the step leaves this STATUS and output. -/
def ran (s : State) (w : Nat) : Option (Word × Bytes) := after (step (s.withFetchWord 32 w))

/-! ## Single steps: results from 95_test_vectors.md and the rules it names -/

-- V-INIT-1, V-INIT-2, V-INIT-3, V-INIT-5
theorem test_encinitEcb : ran keyed 0x01 = some (0x00000002, []) := by decide +kernel
theorem test_encinitCbc : ran keyedIv 0x11 = some (0x00000012, []) := by decide +kernel
theorem test_decinitEcb : ran keyed 0x02 = some (0x0000000A, []) := by decide +kernel
theorem test_decinitCbc : ran keyedIv 0x12 = some (0x0000001A, []) := by decide +kernel
-- V-INIT-7, V-INIT-9, V-INIT-14, V-INIT-13
theorem test_encinitCbc_without_iv : ran keyed 0x11 = some (0x00000300, []) := by decide +kernel
theorem test_encinitEcb_key_mismatch : ran { keyed with keycfg := 0x00180080 } 0x01 = some (0x00000100, []) := by
  decide +kernel
theorem test_decinitEcb_in_session : ran (inReady .encrypt .ecb []) 0x02 = some (0x00000404, []) := by decide +kernel
theorem test_encinitBadalg_before_key : ran { keyed with keycfg := 0x00100064 } 0x21 = some (0x00000200, []) := by
  decide +kernel
theorem test_decinitBadalg_finalized : ran inFinalized 0x22 = some (0x00000404, []) := by decide +kernel
-- V-ECB-1, V-CBC-5 (first block: AES of plaintext xor IV, then 2 bytes pending)
theorem test_encupd_ecb :
    ran ((inReady .encrypt .ecb []).withInput keyData) 0x03 =
      some (0x00000002, bigEndian 16 0x69C4E0D86A7B0430D8CDB78070B4C55A) := by decide +kernel
theorem test_encupd_cbc :
    (match exec .encinitCbc keyedIv with
      | .next t => ran (t.withInput (keyData ++ [0x01, 0x02])) 0x03
      | _ => none) =
      some (0x00020012, bigEndian 16 0x16628846F7334843BC7321CC79661680) := by decide +kernel
-- V-UPD-6; a second block releases the first (V-ECB-5's ciphertext decrypts to 0011223344 and its padding)
theorem test_decupd_withholds :
    ran ((inReady .decrypt .ecb []).withInput (List.replicate 20 0x00)) 0x04 = some (0x0014000A, []) := by decide +kernel
theorem test_decupd_releases :
    ran ((inReady .decrypt .ecb (bigEndian 16 0xA4566AA4F8AFBA6629D41A9FB0BD7F9A)).withInput keyData) 0x04 =
      some (0x0010000A, [0x00, 0x11, 0x22, 0x33, 0x44] ++ List.replicate 11 0x0B) := by decide +kernel
-- V-ECB-2, V-ECB-4
theorem test_encfin_without_data :
    ran (inReady .encrypt .ecb []) 0x05 = some (0x00000004, bigEndian 16 0x954F64F2E4E86E9EEE82D20216684899) := by
  decide +kernel
theorem test_encfin_one_pad_byte :
    ran (inReady .encrypt .ecb (keyData.take 15)) 0x05 =
      some (0x00000004, bigEndian 16 0x77A0785A36A150ED8831CE8AEF66DED4) := by decide +kernel
-- V-FIN-4, V-FIN-3
theorem test_decfin_good_padding :
    ran (inReady .decrypt .ecb (bigEndian 16 0xCBA7320D6382B39EB56248F2E6E897EE)) 0x06 =
      some (0x00000004, List.replicate 14 0x00) := by decide +kernel
theorem test_decfin_bad_padding :
    ran (inReady .decrypt .ecb (bigEndian 16 0xF662388A8A33596227D688D904BEAC4C)) 0x06 = some (0x00000804, []) := by
  decide +kernel
-- V-KW-1 (44_keywrap_rfc3394.md R165), V-KW-5, V-KW-2, V-KW-6
theorem test_wrapKw : ran (keyed.withInput keyData) 0x27 = some (0x00000000, wrapped) := by decide +kernel
theorem test_wrapKw_short : ran (keyed.withInput (keyData.take 12)) 0x27 = some (0x00000500, []) := by decide +kernel
theorem test_unwrapKw : ran (keyed.withInput wrapped) 0x28 = some (0x00000000, keyData) := by decide +kernel
theorem test_unwrapKw_short : ran (keyed.withInput (wrapped.take 16)) 0x28 = some (0x00000600, []) := by decide +kernel
-- V-KWP-1 (45_keywrap_rfc5649.md R185), V-KWP-13, V-KWP-2, V-KWP-7
theorem test_wrapKwp :
    ran ((withKey 192 kek5649 State.reset).withInput (bigEndian 7 0x466F7250617369)) 0x37 =
      some (0x00000000, bigEndian 16 0xAFBEB0F07DFBF5419200F2CCB50BB24F) := by decide +kernel
theorem test_wrapKwp_empty : ran (keyed.withInput []) 0x37 = some (0x00000500, []) := by decide +kernel
theorem test_unwrapKwp :
    ran ((withKey 192 kek5649 State.reset).withInput (bigEndian 16 0xAFBEB0F07DFBF5419200F2CCB50BB24F)) 0x38 =
      some (0x00000000, bigEndian 7 0x466F7250617369) := by decide +kernel
theorem test_unwrapKwp_bad_padding :
    ran ((withKey 192 kek5649 State.reset).withInput (bigEndian 16 0x4D88C10A7B078D93D10D71A0BF77F248)) 0x38 =
      some (0x00000800, []) := by decide +kernel
-- V-KW-8
theorem test_wrapBadalg : ran keyed 0x17 = some (0x00000200, []) := by decide +kernel
theorem test_unwrapBadalg_in_session : ran (inReady .encrypt .ecb [0x55]) 0x48 = some (0x00010202, []) := by decide +kernel
-- 46_control.md R205, and R206's worked example: STATUS 0x00050C12 in a Ready CBC session with 5 pending bytes
theorem test_clear : ran (inReady .decrypt .cbc k128) 0x09 = some (0x00000000, []) := by decide +kernel
theorem test_illegal : ran (inReady .encrypt .cbc (k128.take 5)) 0x0A = some (0x00050C12, []) := by decide +kernel

-- V-BUS-2, V-BUS-6, V-BUS-9, V-BUS-11
theorem test_half_write_lanes :
    leads (step { State.reset with arrivals := [.write 0x10006 .half 0xCDEF] })
      (fun t => t.mem == [(0x10006, 0xEF), (0x10007, 0xCD)]) = true := by decide +kernel
theorem test_keycfg_reserved_bits :
    leads (step { State.reset with arrivals := [.write 0x010 .word 0xFFFFFFFF] })
      (fun t => t.keycfg == 0x003FFFFF) = true := by decide +kernel
theorem test_narrow_register_write :
    stops (step { State.reset with arrivals := [.write 0x004 .byte 1] }) = some (.hostBusError 0x004 1) := by
  decide +kernel
theorem test_odd_half_read :
    stops (step { State.reset with arrivals := [.read 0x20001 .half] }) = some (.hostBusError 0x20001 2) := by
  decide +kernel
-- V-BUS-3; 20_memory.md R50: the block does not see an address outside its window, and a running command goes on
theorem test_caps_read :
    leads (step { State.reset with arrivals := [.read 0x018 .word] }) (fun t => t.replies == [0x00001000]) = true := by
  decide +kernel
theorem test_write_outside_window :
    leads (step (busyComing [.write 0xBFFFF .half 0x27, .write 0x100000 .word 0x27]))
      (fun t => t == busyComing [.write 0x100000 .word 0x27]) = true := by decide +kernel
-- 30_encoding.md R78: the read of a poll while CLEAR runs returns BUSY = 1, and the poll goes on after the engine's turn
theorem test_poll_reads_while_busy :
    leads (step (busyComing [.poll, .engine]))
      (fun t => t.arrivals == [.read 0xC0004 .word, .engine, .poll] && t.busy) = true := by decide +kernel

/-! ## Witnesses: a state and operands that meet the hypotheses of each statement, at the ends of their ranges -/

theorem witness_DecodeOfEncodeIsIdentity :
    ([.encinitEcb, .clear, .encinitBadalg 2, .decinitBadalg 15, .wrapBadalg 0, .wrapBadalg 1, .wrapBadalg 4,
      .unwrapBadalg 15, .illegal 0x00000000, .illegal 0x0000001A, .illegal 0x00000013, .illegal 0x00000100,
      .illegal 0xFFFFFFFF].all Instr.wf) = true := by decide

/-- The 13 legal words. -/
def legalWords : List Word :=
  [0x00000001, 0x00000011, 0x00000002, 0x00000012, 0x00000003, 0x00000004, 0x00000005, 0x00000006, 0x00000027,
    0x00000037, 0x00000028, 0x00000038, 0x00000009]

/-- A word of a group of bad selectors has OP in bits 3:0 and zeros in bits 31:8. -/
theorem group_bits :
    ∀ a : BitVec 4, commandWord 0x1 a &&& 0xFFFFFF0F = 0x1 ∧ commandWord 0x2 a &&& 0xFFFFFF0F = 0x2 ∧
      commandWord 0x7 a &&& 0xFFFFFF0F = 0x7 ∧ commandWord 0x8 a &&& 0xFFFFFF0F = 0x8 := by decide

theorem witness_OpcodeMapIsExactlyAsListed :
    ((2 : BitVec 4) ≠ 0 ∧ (2 : BitVec 4) ≠ 1) ∧ ((15 : BitVec 4) ≠ 0 ∧ (15 : BitVec 4) ≠ 1) ∧
    ((1 : BitVec 4) ≠ 2 ∧ (1 : BitVec 4) ≠ 3) ∧ ((4 : BitVec 4) ≠ 2 ∧ (4 : BitVec 4) ≠ 3) ∧
    ∀ w ∈ [(0x00000000 : Word), 0x0000000A, 0x00000013, 0x00000100],
      w ∉ legalWords ∧ ∀ a : BitVec 4, w ≠ 0x000000#24 ++ a ++ 0x1#4 ∧ w ≠ 0x000000#24 ++ a ++ 0x2#4 ∧
        w ≠ 0x000000#24 ++ a ++ 0x7#4 ∧ w ≠ 0x000000#24 ++ a ++ 0x8#4 := by
  refine ⟨by decide, by decide, by decide, by decide, fun w hw => ?_⟩
  have h : w ∉ legalWords ∧ w &&& 0xFFFFFF0F ≠ 0x1 ∧ w &&& 0xFFFFFF0F ≠ 0x2 ∧ w &&& 0xFFFFFF0F ≠ 0x7 ∧
      w &&& 0xFFFFFF0F ≠ 0x8 := by
    simp only [List.mem_cons, List.not_mem_nil, or_false] at hw
    obtain rfl | rfl | rfl | rfl := hw <;> refine ⟨?_, ?_, ?_, ?_, ?_⟩ <;> decide
  refine ⟨h.1, fun a => ?_⟩
  obtain ⟨h1, h2, h7, h8⟩ := group_bits a
  exact ⟨fun e => h.2.1 (e ▸ h1), fun e => h.2.2.1 (e ▸ h2), fun e => h.2.2.2.1 (e ▸ h7), fun e => h.2.2.2.2 (e ▸ h8)⟩

/-- A reset that arrives while a command runs. -/
theorem witness_ResetValuesAreTheSpecs :
    ∃ s, (busyComing [.reset]).arrivals = .reset :: [] ∧ step (busyComing [.reset]) = .next s ∧ s.cfg = smallParams :=
  ⟨_, rfl, rfl, rfl⟩

/-- A running command that a reset ends, and one that completes. -/
theorem witness_ResetStepDiscardsRunningCommand :
    (busyComing [.reset, .engine]).arrivals = .reset :: [.engine] ∧
    ∀ s ∈ [busyComing [.reset, .engine], busyComing [.engine]],
      s.busy = true ∧ ∃ t, step s = .next t ∧ (!t.busy) = true := by
  refine ⟨rfl, fun s hs => ⟨?_, next_of_leads ?_⟩⟩ <;> revert s <;> decide +kernel

theorem witness_StepRunsTheLatchedCommand :
    (busyComing [.engine, .poll]).busy = true ∧ (busyComing [.engine, .poll]).arrivals = .engine :: [.poll] ∧
    (busyComing []).busy = true ∧ (busyComing []).arrivals = [] := ⟨rfl, rfl, rfl, rfl⟩

/-- A host access, a host read-out, the platform, the engine and an idle block, all in good order and all moving. -/
theorem witness_EveryStepKeepsInvariant :
    ∀ s ∈ [coming [.write 0xD0000 .word 0xFFFFFFFF], coming [.write 0xC0000 .word 0x27], coming [.read 0xE0000 .byte],
        coming [.readOut], coming [.reset], coming [], busyComing [], inReady .decrypt .cbc k128],
      s.Inv ∧ ∃ t, step s = .next t := by
  have h : ∀ s ∈ [coming [.write 0xD0000 .word 0xFFFFFFFF], coming [.write 0xC0000 .word 0x27],
        coming [.read 0xE0000 .byte], coming [.readOut], coming [.reset], coming [], busyComing [],
        inReady .decrypt .cbc k128],
      inOrder s = true ∧ leads (step s) (fun _ => true) = true := by decide +kernel
  intro s hs
  obtain ⟨t, ht, -⟩ := next_of_leads (h s hs).2
  exact ⟨inv_of_inOrder (h s hs).1, t, ht⟩

theorem witness_EveryCommandCompletes :
    Instr.encupd ≠ .clear ∧ classOf .encupd ≠ .keyWrap ∧ Instr.wrapKw ≠ .clear ∧ classOf .wrapKw = .keyWrap := by decide

theorem witness_StepKeepsParameters : ∃ t, step (busyComing []) = .next t ∧ t.cfg = smallParams := by
  obtain ⟨t, ht, h⟩ := next_of_leads (o := step (busyComing [])) (p := fun t => t.cfg == smallParams) (by decide +kernel)
  exact ⟨t, ht, by simpa using h⟩

theorem witness_CanonicalMemoriesReadingAlikeAreEqual :
    Memory.wf [(0x100, 0x01), (0x20000, 0xFF)] ∧
    Memory.wf (Memory.write (Memory.write [] 0x20000 [0xFF]) 0x100 [0x01]) ∧
    (∀ a, Memory.read [(0x100, 0x01), (0x20000, 0xFF)] a =
      Memory.read (Memory.write (Memory.write [] 0x20000 [0xFF]) 0x100 [0x01]) a) :=
  ⟨by decide, by decide, fun _ => rfl⟩

theorem witness_BusErrorsAreExactlyTheForbiddenAccesses :
    (∀ x ∈ [(0x100, Width.word, 3), (0x11E, .half, 1), (0x12F, .byte, 0), (0x10000, .word, 3), (0x2FFFC, .word, 3),
        (0x3FFFE, .half, 1)],
      largeParams.ok ∧ 0x100 ≤ x.1 ∧ accessLegal x.1 x.2.1 = true ∧ x.2.2 < x.2.1.bytes) ∧
    (∀ x ∈ [(0x000, Width.half, false), (0x000, .word, true), (0x0FC, .word, true), (0x0FF, .byte, false),
        (0x100, .byte, true), (0x102, .word, false), (0x20001, .half, false), (0x3FFFF, .half, false),
        (0x3FFFF, .byte, true)],
      x.1 < 0x40000 ∧ accessLegal x.1 x.2.1 = x.2.2 ∧
      (coming [.write (smallParams.base + x.1) x.2.1 0]).arrivals = .write (smallParams.base + x.1) x.2.1 0 :: [] ∧
      (busyComing [.read (smallParams.base + x.1) x.2.1]).arrivals = .read (smallParams.base + x.1) x.2.1 :: []) ∧
    (∀ a ∈ [0, 0xBFFFF, 0x100000],
      (a < smallParams.base ∨ smallParams.base + 0x40000 ≤ a) ∧
      (busyComing [.write a .byte 0]).arrivals = .write a .byte 0 :: [] ∧
      (busyComing [.read a .byte]).arrivals = .read a .byte :: []) ∧
    stops (step (busyComing [.write 0xC0004 .byte 1])) = some (.hostBusError 0x004 1) := by decide +kernel

theorem witness_WritesWhileBusyOnlySetBusywr :
    ∀ x ∈ [(0x000, Width.word), (0x004, .byte), (0x100, .word), (0x3FFFC, .word), (0x3FFFF, .half)],
      let s := busyComing [.write (smallParams.base + x.1) x.2 0x27, .engine]
      s.busy = true ∧ x.1 < 0x40000 ∧ s.arrivals = .write (s.cfg.base + x.1) x.2 0x27 :: [.engine] := by decide

theorem witness_CommandWriteIsAccepted :
    let s := coming [.write 0xC0000 .word 0xFFFFFFFF]
    s.busy = false ∧ s.arrivals = .write s.cfg.base .word 0xFFFFFFFF :: [] := by decide

theorem witness_RegisterWritesStoreTheirFields :
    ∀ off ∈ [0x004, 0x008, 0x00C, 0x010, 0x014, 0x018, 0x01C, 0x0FC],
      let s := coming [.write (smallParams.base + off) .word 0xFFFFFFFF]
      s.busy = false ∧ off < 0x100 ∧ off % 4 = 0 ∧ off ≠ 0 ∧
      s.arrivals = .write (s.cfg.base + off) .word 0xFFFFFFFF :: [] := by decide

/-- The first and last bytes of every region, and the reserved offsets between. -/
def windowAccesses : List (Nat × Width) :=
  [(0x100, .word), (0x11F, .byte), (0x120, .half), (0x12C, .word), (0x12F, .byte), (0x130, .word), (0x0FFFE, .half),
    (0x10000, .word), (0x1001F, .byte), (0x10020, .word), (0x20000, .word), (0x2002F, .byte), (0x20030, .word),
    (0x3FFFC, .word), (0x3FFFF, .byte)]

theorem witness_WindowWritesUseLittleEndianLanes :
    ∀ x ∈ windowAccesses,
      let s := coming [.write (smallParams.base + x.1) x.2 0x12345678]
      s.busy = false ∧ 0x100 ≤ x.1 ∧ x.1 < 0x40000 ∧ accessLegal x.1 x.2 = true ∧
      s.arrivals = .write (s.cfg.base + x.1) x.2 0x12345678 :: [] := by decide

/-- Every register and reserved offsets, from an idle block and while a command runs. -/
theorem witness_RegisterReadsReturnTheirValue :
    ∀ off ∈ [0x000, 0x004, 0x008, 0x00C, 0x010, 0x014, 0x018, 0x01C, 0x0FC],
      off < 0x100 ∧ off % 4 = 0 ∧ (coming []).busy = false ∧ (busyComing []).busy = true ∧
      ∀ s ∈ [coming [.read (smallParams.base + off) .word], busyComing [.read (smallParams.base + off) .word]],
        s.arrivals = .read (s.cfg.base + off) .word :: [] := by decide +kernel

/-- Every region, from an idle block and while a command runs. -/
theorem witness_WindowReadsReturnOnlyOutput :
    (∀ x ∈ windowAccesses,
      0x100 ≤ x.1 ∧ x.1 < 0x40000 ∧ accessLegal x.1 x.2 = true ∧ (coming []).busy = false ∧ (busyComing []).busy = true ∧
      ∀ s ∈ [coming [.read (smallParams.base + x.1) x.2], busyComing [.read (smallParams.base + x.1) x.2]],
        s.arrivals = .read (s.cfg.base + x.1) x.2 :: []) ∧
    regionOf smallParams 0x100 ≠ .output ∧ regionOf smallParams 0x12F ≠ .output ∧ regionOf smallParams 0x1001F ≠ .output ∧
    regionOf smallParams 0x20030 ≠ .output ∧ regionOf smallParams 0x20000 = .output ∧
    regionOf smallParams 0x2002F = .output := by decide +kernel

theorem witness_ReadsAreIdempotent :
    (∀ x ∈ windowAccesses ++ [(0x000, .word), (0x00C, .word), (0x0FC, .word)],
      let l : List Event := [.read (smallParams.base + x.1) x.2, .read (smallParams.base + x.1) x.2]
      x.1 < 0x40000 ∧ accessLegal x.1 x.2 = true ∧ (coming l).arrivals = l ∧ (busyComing l).arrivals = l) ∧
    (busyComing []).busy = true ∧ regionOf smallParams 0x20000 = .output ∧ regionOf smallParams 0x2002F = .output ∧
    regionOf smallParams 0x20030 = .reserved := by decide

theorem witness_StatusFieldsReadTheirState :
    (inReady .decrypt .cbc (List.replicate 31 0x00)).sess.pend.length = 31 := by decide

/-- Two blocks with different keys, pending bytes and KEY windows, about to answer the same read. -/
theorem witness_SecretsAreNeverReadable :
    let s := coming [.read 0xE0000 .word]
    let s' := { s with mem := [(0x100, 0x55)], sess := { s.sess with key := k128, cb := zeros 16, pend := [] } }
    s' ≠ s ∧ ([] : Bytes).length = s.sess.pend.length ∧
    (∀ k < s.cfg.obufSize, Memory.read [(0x100, 0x55)] (outBase + k) = Memory.read s.mem (outBase + k)) ∧ s.cfg.ok ∧
    s.arrivals = .read 0xE0000 .word :: [] ∧ ∃ t, step s = .next t := by
  refine ⟨by decide, by decide, by decide +kernel, by decide, by decide, ?_⟩
  obtain ⟨t, ht, -⟩ := next_of_leads (o := step (coming [.read 0xE0000 .word])) (p := fun _ => true) (by decide +kernel)
  exact ⟨t, ht⟩

/-- A poll of an idle block, of a command with and without a place for the engine's turn, and of a command that a reset ends. -/
theorem witness_PollSeesTheCompletedCommand :
    (∀ l ∈ [[.poll, .readOut], runWord smallParams 0x27 ++ [.readOut], runWord smallParams 0x27 ++ [],
        wr32 smallParams 0x000 0x27 :: .engine :: .poll :: [.readOut], runWord smallParams 0x27 ++ .engine :: [.readOut]],
      (coming l).busy = false ∧ (coming l).arrivals = l) ∧
    (∀ r : List Event, [.readOut] ≠ .engine :: r ∧ [.readOut] ≠ .reset :: r) ∧
    (∀ r : List Event, [] ≠ .engine :: r ∧ [] ≠ .reset :: r) ∧
    (busyComing [.poll, .reset, .readOut]).busy = true ∧
    (busyComing [.poll, .reset, .readOut]).arrivals = .poll :: .reset :: [.readOut] :=
  ⟨by decide, by simp, by simp, rfl, rfl⟩

theorem witness_SetInPlacesTheInput :
    ∀ n ∈ [0, 1, 2, 3, 4, 31, 32],
      let b : Bytes := List.replicate n 0xC3
      let s := coming (setIn smallParams b ++ [.poll])
      s.cfg.ok ∧ s.busy = false ∧ b.length ≤ s.cfg.ibufSize ∧ s.arrivals = setIn s.cfg b ++ [.poll] := by decide

theorem witness_ReadOutReturnsTheOutput :
    ∀ s ∈ [coming (rdOut ++ [.poll]), { coming (rdOut ++ [.poll]) with outlen := 1 },
        { coming (rdOut ++ [.poll]) with outlen := 48 }],
      s.cfg.ok ∧ s.busy = false ∧ s.outlen.toNat ≤ s.cfg.obufSize ∧ s.arrivals = rdOut ++ [.poll] := by decide +kernel

/-- Keys of each length a key may have. -/
theorem witness_PrimitiveIsASymmetricInverse :
    k128.length = 16 ∧ kek5649.length = 24 ∧ (k128 ++ keyData).length = 32 := by decide

/-- No string padded to a block ends in a byte 0, so a block that does is no padded string. -/
theorem not_padded_of_last_zero {x : Bytes} (h : x.getLast? = some 0x00) :
    ¬ ∃ b : Bytes, b.length ≤ 15 ∧ x = padded b := by
  rintro ⟨b, hb, rfl⟩
  have hn : 16 - b.length ≠ 0 := by omega
  rw [padded, List.getLast?_append, List.getLast?_replicate, if_neg hn] at h
  have h' : (BitVec.ofNat 8 (16 - b.length)) = 0x00 := by simpa using h
  have := congrArg BitVec.toNat h'
  simp at this
  omega

theorem witness_UnpadAcceptsExactlyPaddedBlocks :
    (∀ n ∈ [0, 1, 15], (List.replicate n (0x10 : Byte)).length ≤ 15 ∧
      unpad (fitBytes 16 (padded (List.replicate n 0x10))) = .ok (List.replicate n 0x10)) ∧
    unpad (zeros 16) = .error .paddingError ∧ unpad ⟨List.replicate 16 0x11, rfl⟩ = .error .paddingError := by decide +kernel

theorem witness_KeyCheckAcceptsAesLengths :
    keyCheck 128 16 = .ok () ∧ keyCheck 192 24 = .ok () ∧ keyCheck 256 32 = .ok () ∧ keyCheck 128 24 ≠ .ok () ∧
    keyCheck 100 16 ≠ .ok () ∧ keyCheck 0 0 ≠ .ok () := by decide

theorem witness_InitBindsKeyModeAndIv :
    ∀ s ∈ [keyedIv, withKey 192 kek5649 keyedIv, withKey 256 (k128 ++ keyData) keyedIv],
      s.sess.st = .idle ∧ s.keyOk ∧ ivBytes s = 16 := by decide +kernel

theorem witness_InitWithBadSelectorReportsInvalidMode : State.reset.sess.st = .idle := rfl

/-- INIT from Finalized, with no key, with a key and no IV, with an IV of 15 and of 255 bytes, and with all it needs. -/
theorem witness_InitReportsItsFirstError :
    ∀ x ∈ [(Instr.encinitEcb, inFinalized, ErrCode.invalidState), (.decinitEcb, State.reset, .invalidKeyLength),
        (.encinitEcb, keyed, .ok), (.decinitCbc, inReady .encrypt .ecb [], .invalidState),
        (.encinitCbc, State.reset, .invalidKeyLength), (.decinitCbc, keyed, .invalidIVLength),
        (.encinitCbc, { keyedIv with ivcfg := 15 }, .invalidIVLength),
        (.encinitCbc, { keyedIv with ivcfg := 255 }, .invalidIVLength), (.decinitCbc, keyedIv, .ok),
        (.encinitBadalg 2, State.reset, .invalidMode), (.decinitBadalg 15, inFinalized, .invalidState)],
      ∃ t, exec x.1 x.2.1 = .next t ∧ (t.err == x.2.2) = true := by
  intro x hx
  apply next_of_leads
  revert x
  decide +kernel

/-- An INIT that succeeds, on its own and as the running command; and INITs that fail. -/
theorem witness_OnlyInitEntersReady :
    (∀ x ∈ [(Instr.encinitEcb, keyed), (.decinitEcb, keyed), (.encinitCbc, keyedIv), (.decinitCbc, keyedIv)],
      x.2.sess.st ≠ .ready ∧ ∃ t, exec x.1 x.2 = .next t ∧ (t.sess.st == .ready) = true) ∧
    (∀ x ∈ [(Instr.encinitCbc, keyed), (.decinitEcb, inReady .encrypt .ecb []), (.encinitBadalg 2, keyed)],
      classOf x.1 = .modeEngine ∧ ∃ t, exec x.1 x.2 = .next t ∧ (t.err != .ok) = true) ∧
    ∃ t, step { keyedIv with cmd := 0x00000012, busy := true } = .next t ∧ (t.sess.st == .ready) = true := by
  refine ⟨fun x hx => ⟨?_, next_of_leads ?_⟩, fun x hx => ⟨?_, next_of_leads ?_⟩, next_of_leads (by decide +kernel)⟩
  all_goals (revert x; decide +kernel)

theorem witness_SessionIgnoresLaterKeyAndIvWrites :
    ∀ s ∈ [inReady .encrypt .ecb [0x01], inReady .decrypt .cbc k128],
      s.Inv ∧ ∀ a, 0x10000 ≤ a → Memory.read [(0x100, 0xFF), (0x12F, 0x0F)] a = Memory.read s.mem a := by
  intro s hs
  refine ⟨?_, fun a ha => ?_⟩
  · exact inv_of_inOrder (by revert s; decide +kernel)
  · have hm : s.mem = [] := by revert s; decide +kernel
    have h1 : (a == 0x100) = false := by simp; omega
    have h2 : (a == 0x12F) = false := by simp; omega
    simp [hm, Memory.read, List.lookup, h1, h2]

/-- No block, one block after 15 pending bytes, several blocks; both modes. -/
theorem witness_EncupdEncryptsEveryCompleteBlock :
    ∀ s ∈ [(inReady .encrypt .ecb []).withInput [], (inReady .encrypt .cbc (List.replicate 15 0x01)).withInput [0x02],
        (inReady .encrypt .cbc [0x01]).withInput (List.replicate 64 0x03)],
      s.Inv ∧ s.inSession .encrypt ∧ s.inputFits := by
  refine fun s hs => ⟨inv_of_inOrder ?_, ?_⟩ <;> revert s <;> decide +kernel

/-- No block, one withheld block, a block released by the next, 31 pending bytes; both modes. -/
theorem witness_DecupdWithholdsTheLastCompleteBlock :
    ∀ s ∈ [(inReady .decrypt .ecb []).withInput [], (inReady .decrypt .cbc []).withInput (List.replicate 16 0x02),
        (inReady .decrypt .ecb k128).withInput (List.replicate 16 0x02),
        (inReady .decrypt .cbc (List.replicate 31 0x01)).withInput (List.replicate 33 0x03)],
      s.Inv ∧ s.inSession .decrypt ∧ s.inputFits := by
  refine fun s hs => ⟨inv_of_inOrder ?_, ?_⟩ <;> revert s <;> decide +kernel

theorem witness_UpdateReportsItsFirstError :
    ∀ x ∈ [(Instr.encupd, State.reset, ErrCode.invalidState), (.encupd, inReady .decrypt .ecb [], .invalidState),
        (.encupd, { inReady .encrypt .ecb [] with inlen := 4097 }, .inputTooLong), (.encupd, inReady .encrypt .ecb [], .ok),
        (.decupd, inFinalized, .invalidState), (.decupd, inReady .encrypt .ecb [], .invalidState),
        (.decupd, { inReady .decrypt .cbc [] with inlen := 0xFFFFFFFF }, .inputTooLong),
        (.decupd, inReady .decrypt .cbc [], .ok)],
      ∃ t, exec x.1 x.2.1 = .next t ∧ (t.err == x.2.2) = true := by
  intro x hx
  apply next_of_leads
  revert x
  decide +kernel

theorem witness_EncfinPadsAndEndsTheSession :
    ∀ s ∈ [inReady .encrypt .ecb [], inReady .encrypt .cbc [], inReady .encrypt .ecb (keyData.take 15),
        inReady .encrypt .cbc (keyData.take 15)],
      s.inSession .encrypt ∧ s.sess.pend.length ≤ 15 := by decide +kernel

/-- A block that decrypts to a padded string (V-ECB-5) and one that decrypts to a block ending in 0 (V-FIN-1), in ECB; in CBC
the second one, whose plaintext is xored with the chaining block. -/
theorem witness_DecfinStripsPaddingAndEndsTheSession :
    (let c := fitBytes 16 (bigEndian 16 0xA4566AA4F8AFBA6629D41A9FB0BD7F9A)
     let s := inReady .decrypt .ecb c.1
     s.inSession .decrypt ∧ s.sess.pend = c.1 ∧ s.sess.mode = .ecb ∧
      (aesDec s.cfg.prim s.sess.key c).1 = padded [0x00, 0x11, 0x22, 0x33, 0x44]) ∧
    (let c := fitBytes 16 (bigEndian 16 0xC6A13B37878F5B826F4F8162A1C8D879)
     let s := inReady .decrypt .ecb c.1
     s.inSession .decrypt ∧ s.sess.pend = c.1 ∧ s.sess.mode = .ecb ∧
      ¬ ∃ b : Bytes, b.length ≤ 15 ∧ (aesDec s.cfg.prim s.sess.key c).1 = padded b) ∧
    let c := fitBytes 16 (bigEndian 16 0xC6A13B37878F5B826F4F8162A1C8D879)
    let s := inReady .decrypt .cbc c.1
    s.inSession .decrypt ∧ s.sess.pend = c.1 ∧ s.sess.mode = .cbc ∧
      (bxor (aesDec s.cfg.prim s.sess.key c) s.sess.cb).1 = List.replicate 16 0xA6 := by
  refine ⟨by decide +kernel, ⟨by decide +kernel, by decide +kernel, rfl, ?_⟩, by decide +kernel⟩
  exact not_padded_of_last_zero (by decide +kernel)

theorem witness_FinalReportsItsFirstError :
    ∀ x ∈ [(Instr.encfin, State.reset, ErrCode.invalidState), (.encfin, inReady .decrypt .ecb [], .invalidState),
        (.encfin, inReady .encrypt .cbc [0x01], .ok), (.decfin, inFinalized, .invalidState),
        (.decfin, inReady .encrypt .ecb [], .invalidState), (.decfin, inReady .decrypt .ecb [0x01], .invalidCiphertextLength),
        (.decfin, inReady .decrypt .cbc (k128 ++ [0x01]), .invalidCiphertextLength),
        (.decfin, inReady .decrypt .ecb [], .noDataProcessed), (.decfin, inReady .decrypt .ecb k128, .paddingError)],
      ∃ t, exec x.1 x.2.1 = .next t ∧ (t.err == x.2.2) = true := by
  intro x hx
  apply next_of_leads
  revert x
  decide +kernel

/-- A final command and an error in Ready; a finished session; the two ways out of it. -/
theorem witness_SessionsAreOneShot :
    (∀ x ∈ [(Instr.encfin, inReady .encrypt .ecb []), (.decupd, inReady .encrypt .ecb []),
        (.encinitBadalg 2, inReady .decrypt .cbc k128)],
      x.2.sess.st = .ready ∧ classOf x.1 = .modeEngine ∧
      ∃ t, exec x.1 x.2 = .next t ∧ (t.err != .ok || x.1 == .encfin || x.1 == .decfin) = true) ∧
    (inFinalized.sess.st = .finalized ∧ classOf .decinitCbc = .modeEngine) ∧
    ∀ s ∈ [{ inFinalized with arrivals := [.reset] }, { inFinalized with busy := true, cmd := 0x00000009 }],
      s.sess.st = .finalized ∧ ∃ t, step s = .next t ∧ (t.sess.st != .finalized) = true := by
  refine ⟨fun x hx => ⟨?_, ?_, next_of_leads ?_⟩, by decide, fun s hs => ⟨?_, next_of_leads ?_⟩⟩
  all_goals first | (revert x; decide +kernel) | (revert s; decide +kernel)

/-- One input cut in two ways, with empty chunks and with none. -/
theorem witness_EncryptionIsIndependentOfChunking :
    let s := inReady .encrypt .cbc [0x77]
    let xs : List Bytes := [keyData.take 5, [], keyData.drop 5 ++ k128]
    let ys : List Bytes := [keyData ++ k128]
    s.Inv ∧ s.inSession .encrypt ∧ chunksFit s xs ∧ chunksFit s ys ∧ chunksFit s [] ∧ xs.flatten = ys.flatten ∧
      ([[]] : List Bytes).flatten = ([] : List Bytes).flatten :=
  ⟨inv_of_inOrder (by decide +kernel), by decide +kernel⟩

theorem witness_DecryptionIsIndependentOfChunking :
    let s := inReady .decrypt .cbc (List.replicate 31 0x77)
    let xs : List Bytes := [keyData.take 5, [], keyData.drop 5 ++ k128]
    let ys : List Bytes := [keyData ++ k128]
    s.Inv ∧ s.inSession .decrypt ∧ chunksFit s xs ∧ chunksFit s ys ∧ xs.flatten = ys.flatten :=
  ⟨inv_of_inOrder (by decide +kernel), by decide +kernel⟩

/-- Two sessions with one key; the chunks are those of V-ECB-3 and V-ECB-5. -/
theorem witness_DecryptionInvertsEncryption :
    let s := inReady .encrypt .ecb []
    let d := inReady .decrypt .ecb []
    let ps : List Bytes := [[0x00, 0x11], [0x22, 0x33, 0x44]]
    let cs : List Bytes := [bigEndian 5 0xA4566AA4F8, bigEndian 11 0xAFBA6629D41A9FB0BD7F9A]
    s.Inv ∧ d.Inv ∧ s.inSession .encrypt ∧ d.inSession .decrypt ∧ s.sess.pend = [] ∧ d.sess.pend = [] ∧
      d.cfg.prim = s.cfg.prim ∧ d.sess.key = s.sess.key ∧ d.sess.mode = s.sess.mode ∧ d.sess.cb = s.sess.cb ∧
      chunksFit s ps ∧ chunksFit d cs ∧ (runSession .encupd .encfin s ps).map (·.2) = some cs.flatten :=
  ⟨inv_of_inOrder (by decide +kernel), inv_of_inOrder (by decide +kernel), by decide +kernel⟩

theorem witness_UnwrapLoopInvertsWrapLoop :
    k128.length = 16 ∧ kek5649.length = 24 ∧ (k128 ++ keyData).length = 32 := by decide

theorem witness_WrapKwOutputsTheWrappedKey :
    ∀ s ∈ [keyed.withInput keyData, withLen 4096],
      s.cfg.ok ∧ s.keyOk ∧ s.inputFits ∧ s.inlen.toNat % 8 = 0 ∧ 16 ≤ s.inlen.toNat := by decide +kernel

/-- The wrapped key data and the tampered one (V-KW-2, V-KW-3). -/
theorem witness_UnwrapKwChecksIntegrity :
    (∀ s ∈ [keyed.withInput wrapped, keyed.withInput tampered],
      s.cfg.ok ∧ s.keyOk ∧ s.inputFits ∧ s.inlen.toNat % 8 = 0 ∧ 24 ≤ s.inlen.toNat) ∧
    (recovered .fips197 k128 wrapped).1.1 = List.replicate 8 0xA6 ∧
    (recovered .fips197 k128 tampered).1.1 ≠ List.replicate 8 0xA6 := by decide +kernel

theorem witness_WrapKwpOutputsTheWrappedKey :
    ∀ s ∈ [withLen 1, withLen 8, withLen 9, withLen 4096],
      s.cfg.ok ∧ s.keyOk ∧ s.inputFits ∧ 1 ≤ s.inlen.toNat := by decide +kernel

/-- A || P as UNWRAP.KWP recovers them under kek5649, the column "decoded" of 95_test_vectors.md 3.8. -/
def decoded (c : Nat) : Bytes :=
  let x := recoveredPadded .fips197 kek5649 (bigEndian 16 c)
  x.1.1 ++ x.2

/-- V-KWP-6, V-KWP-7 and V-KWP-2: a wrong high half, a padding byte that is not 0, and a string that passes. -/
theorem witness_UnwrapKwpChecksIntegrityAndPadding :
    (∀ s ∈ [withLen 16, withLen 24], s.cfg.ok ∧ s.keyOk ∧ s.inputFits ∧ s.inlen.toNat % 8 = 0 ∧ 16 ≤ s.inlen.toNat) ∧
    decoded 0xAF64C9AA7C06F5DAB35B57F0D18B07AD = bigEndian 16 0xA65959A700000007466F725061736900 ∧
    decoded 0x4D88C10A7B078D93D10D71A0BF77F248 = bigEndian 16 0xA65959A600000007466F725061736901 ∧
    decoded 0xAFBEB0F07DFBF5419200F2CCB50BB24F = bigEndian 16 0xA65959A600000007466F725061736900 ∧
    high32 (fitBytes 8 (bigEndian 8 0xA65959A700000007)) ≠ 0xA65959A6 ∧
    high32 (fitBytes 8 (bigEndian 8 0xA65959A600000007)) = 0xA65959A6 ∧
    low32 (fitBytes 8 (bigEndian 8 0xA65959A600000007)) = 7 ∧
    mliCheck 7 (bigEndian 8 0x466F725061736901) = .error .paddingError ∧
    mliCheck 7 (bigEndian 8 0x466F725061736900) = .ok () := by decide +kernel

theorem witness_MliCheckIsTheSpecs :
    mliCheck 1 (0xAA :: List.replicate 7 0x00) = .ok () ∧ mliCheck 8 (k128.take 8) = .ok () ∧
    mliCheck 0 (List.replicate 8 0x00) ≠ .ok () ∧ mliCheck 9 (List.replicate 8 0x00) ≠ .ok () ∧
    mliCheck 8 (List.replicate 16 0x00) ≠ .ok () ∧ 8 ≤ (List.replicate 8 (0x00 : Byte)).length ∧
    (List.replicate 8 (0x00 : Byte)).length < 9 := by decide

/-- Every error of the key-wrap commands, with the success of WRAP.KWP for the least key data. -/
theorem witness_KeyWrapReportsItsFirstError :
    (∀ x ∈ [(Instr.wrapBadalg 1, State.reset, ErrCode.invalidMode), (.unwrapBadalg 4, keyed, .invalidMode),
        (.wrapKw, State.reset, .invalidKeyLength), (.unwrapKwp, State.reset, .invalidKeyLength),
        (.wrapKwp, withLen 4097, .inputTooLong), (.unwrapKw, withLen 5000, .inputTooLong),
        (.wrapKw, withLen 8, .invalidKeyDataLength), (.wrapKw, withLen 17, .invalidKeyDataLength),
        (.wrapKwp, keyed, .invalidKeyDataLength), (.wrapKwp, withLen 1, .ok),
        (.unwrapKw, withLen 16, .invalidWrappedLength),
        (.unwrapKw, withLen 23, .invalidWrappedLength),
        (.unwrapKwp, withLen 8, .invalidWrappedLength),
        (.unwrapKwp, withLen 16, .integrityCheckFailed)],
      classOf x.1 = .keyWrap ∧ ∃ t, exec x.1 x.2.1 = .next t ∧ (t.err == x.2.2) = true) ∧
    (¬ State.reset.keyOk ∧ keyed.keyOk ∧ keyed.inputFits ∧ ¬ (withLen 4097).inputFits) := by
  refine ⟨fun x hx => ⟨?_, next_of_leads ?_⟩, by decide +kernel⟩
  all_goals (revert x; decide +kernel)

/-- An idle block and one in the middle of a session, with different outputs, but the same key-wrap operands. -/
theorem witness_KeyWrapIsStateless :
    let s := { State.resetFor smallParams with inlen := 16, keycfg := 0x00100080 }
    let s' := { s with mem := [(0x20000, 0x99)], sess := (inReady .decrypt .cbc k128).sess, outlen := 1, err := .ok }
    classOf .wrapKw = .keyWrap ∧ s.cfg.ok ∧ s'.cfg = s.cfg ∧ s'.keycfg = s.keycfg ∧ s'.inlen = s.inlen ∧
      (∀ k < 32, Memory.read s'.mem (keyBase + k) = Memory.read s.mem (keyBase + k)) ∧
      ∀ k < s.cfg.ibufSize, Memory.read s'.mem (inBase + k) = Memory.read s.mem (inBase + k) := by decide +kernel

theorem witness_UnwrapKwInvertsWrapKw :
    ∀ s ∈ [withLen 16, withLen 4088],
      s.cfg.ok ∧ s.keyOk ∧ s.inlen.toNat % 8 = 0 ∧ 16 ≤ s.inlen.toNat ∧ s.inlen.toNat + 8 ≤ s.cfg.ibufSize := by
  decide +kernel

theorem witness_UnwrapKwpInvertsWrapKwp :
    ∀ s ∈ [withLen 1, withLen 8, withLen 9, withLen 4088],
      s.cfg.ok ∧ s.keyOk ∧ 1 ≤ s.inlen.toNat ∧ s.inlen.toNat + 8 ≤ s.cfg.ibufSize := by decide +kernel

theorem witness_ClearEqualsResetButForCmd :
    decode 0x00000009 = .clear ∧ inFinalized.sess.st = .finalized ∧
    ∃ t, exec .clear inFinalized = .next t ∧ (t.sess.st != .finalized) = true :=
  ⟨by decide, rfl, next_of_leads (by decide +kernel)⟩

/-- Errors of each class in each session state. -/
theorem witness_ErrorEffectsAreByClassAndState :
    ∀ x ∈ [(Instr.encinitEcb, State.reset), (.encupd, inReady .decrypt .ecb [0x01]), (.decfin, inReady .decrypt .cbc [0x01]),
        (.encfin, inFinalized), (.wrapKw, inReady .encrypt .ecb []), (.illegal 0x00000000, inReady .encrypt .cbc [0x01])],
      ∃ t, exec x.1 x.2 = .next t ∧ (t.err != .ok) = true := by
  intro x hx
  apply next_of_leads
  revert x
  decide +kernel

/-- An old output as long as the OUT window, where nothing may be left of it. -/
theorem witness_OutputDoesNotSurviveTheNextCommand :
    (coming []).Inv ∧ (List.replicate 48 (0xEE : Byte)).length ≤ (coming []).cfg.obufSize ∧
    (inReady .encrypt .cbc [0x01]).Inv ∧ ([] : Bytes).length ≤ (inReady .encrypt .cbc [0x01]).cfg.obufSize ∧
    ∃ t, exec .wrapKw (coming []) = .next t ∧ (t.err != .ok) = true :=
  ⟨inv_of_inOrder (by decide +kernel), by decide, inv_of_inOrder (by decide +kernel), by decide,
    next_of_leads (by decide +kernel)⟩

end Sys2Proof.Tests
end

section
/-! The host's bus: which accesses are faults of a step, and that nothing else is (20_memory.md R50 to R56,
60_exceptions.md R223). -/

namespace Sys2Proof.Machine

open Sys2Proof Host

/-! ## Accesses -/

/-- The widths and alignments of 20_memory.md R53 (registers) and R54 (windows). -/
theorem accessLegal_iff (off : Nat) (w : Width) :
    accessLegal off w = true ↔ if off < 0x100 then w = .word ∧ off % 4 = 0 else off % w.bytes = 0 := by
  unfold accessLegal
  split
  · rw [Bool.and_eq_true, beq_iff_eq, beq_iff_eq]
  · rw [beq_iff_eq]

theorem offsetOf_eq_none {s : State} {a : Nat} (h : a < s.cfg.base ∨ s.cfg.base + 0x40000 ≤ a) : offsetOf s a = none := by
  unfold offsetOf windowSize
  exact if_neg (by omega)

/-- An access that stops is to an offset of the window, at a width or alignment that is not legal there. -/
theorem access_fault {a : Nat} {w : Width} {effect : Nat → State → State} {s : State} {f : Fault}
    (h : access a w effect s = .fault f) :
    ∃ off, a = s.cfg.base + off ∧ off < 0x40000 ∧ accessLegal off w = false ∧ f = .hostBusError off w.bytes := by
  unfold access at h
  split at h
  case h_1 => cases h
  case h_2 off hoff =>
    obtain ⟨ha, hlt⟩ := offsetOf_some hoff
    split at h
    case isTrue => cases h
    case isFalse hl => exact ⟨off, ha, hlt, Bool.eq_false_iff.2 hl, (Outcome.fault.inj h).symm⟩

/-- The read of STATUS that POLL makes is legal (20_memory.md R53), so it never stops. -/
theorem hostRead_status_ne_fault (s : State) (f : Fault) : hostRead (s.cfg.base + 0x004) .word s ≠ .fault f := by
  intro h
  obtain ⟨off, ha, -, hl, -⟩ := access_fault h
  obtain rfl : 0x004 = off := Nat.add_left_cancel ha
  exact absurd hl (by decide)

/-! ## Steps that stop -/

theorem exec_ne_fault (i : Instr) (s : State) (f : Fault) : exec i s ≠ .fault f := by
  intro hf
  obtain ⟨_, -, h⟩ | ⟨-, h⟩ | ⟨-, _, _, _, h, -⟩ := exec_forms i s <;> cases h.symm.trans hf

/-- Of the turns that are not the engine's only the host's own reads and writes can stop: reset, an idle block's turn,
RDOUT's expansion and POLL all go on. -/
theorem nextTurn_fault {s : State} {f : Fault} (h : nextTurn s = .other (.fault f)) :
    (∃ a w v rest, s.arrivals = .write a w v :: rest ∧ hostWrite a w v { s with arrivals := rest } = .fault f) ∨
    (∃ a w rest, s.arrivals = .read a w :: rest ∧ hostRead a w { s with arrivals := rest } = .fault f) := by
  unfold nextTurn at h
  split at h
  case h_1 => split at h <;> cases h
  case h_2 => split at h <;> cases h
  case h_3 rest _ =>
    have hpoll := Turn.other.inj h
    split at hpoll
    case isTrue => cases hpoll
    case isFalse => exact absurd hpoll (hostRead_status_ne_fault { s with arrivals := rest } f)
  case h_4 => cases h
  case h_5 => cases h
  case h_6 a w rest he => exact .inr ⟨a, w, rest, he, Turn.other.inj h⟩
  case h_7 a w v rest he => exact .inl ⟨a, w, v, rest, he, Turn.other.inj h⟩

/-- The one fault of a step is the bus error of the access that stands next (20_memory.md R56, 60_exceptions.md R223). -/
theorem step_fault {s : State} {f : Fault} (h : step s = .fault f) :
    ∃ off w, off < 0x40000 ∧ accessLegal off w = false ∧ f = .hostBusError off w.bytes ∧
      ((∃ rest v, s.arrivals = .write (s.cfg.base + off) w v :: rest) ∨
        ∃ rest, s.arrivals = .read (s.cfg.base + off) w :: rest) := by
  have hturn : nextTurn s = .other (.fault f) := by
    unfold step at h
    split at h
    case h_1 => exact absurd h (exec_ne_fault _ _ _)
    case h_2 hn => rw [hn, h]
  obtain ⟨a, w, v, rest, he, ha⟩ | ⟨a, w, rest, he, ha⟩ := nextTurn_fault hturn
  · obtain ⟨off, rfl, hlt, hl, hf⟩ := access_fault ha
    exact ⟨off, w, hlt, hl, hf, .inl ⟨rest, v, he⟩⟩
  · obtain ⟨off, rfl, hlt, hl, hf⟩ := access_fault ha
    exact ⟨off, w, hlt, hl, hf, .inr ⟨rest, he⟩⟩

/-- Settles O14: the rules for legality, regions and single accesses, and the inversion of a step that stops. -/
theorem busErrorsAreExactlyTheForbiddenAccesses : Obligations.BusErrorsAreExactlyTheForbiddenAccesses := by
  refine ⟨accessLegal_iff, fun p off w k hp h hl hk => regionOf_add hp h hl hk, ?inWindow, ?outside,
    fun s f h => step_fault h⟩
  case inWindow =>
    intro s rest off w v ho he
    obtain ⟨t, ht⟩ : ∃ t, step s = if accessLegal off w then .next t else .fault (.hostBusError off w.bytes) :=
      he.elim (fun hw => ⟨_, step_write ho hw⟩) (fun hr => ⟨_, step_read ho hr⟩)
    split
    case isTrue hl => exact ⟨t, by rw [ht, if_pos hl]⟩
    case isFalse hl => rw [ht, if_neg hl]
  case outside =>
    intro s rest a w v ha he
    exact he.elim (step_write_outside (offsetOf_eq_none ha)) (step_read_outside (offsetOf_eq_none ha))

end Sys2Proof.Machine
end

section
/-! The single-block padding and the key check (40_primitive_and_key.md R92, R93, R96). -/

namespace Sys2Proof.Machine

open Sys2Proof

/-! ## Padding -/

/-- Padding fills the block (40_primitive_and_key.md R92). -/
theorem padded_length {b : Bytes} (hb : b.length ≤ 15) : (padded b).length = 16 := by
  rw [padded, List.length_append, List.length_replicate]
  omega

theorem pad_val {b : Bytes} (hb : b.length ≤ 15) : (pad b).1 = padded b :=
  fitBytes_val_eq 16 (padded b) (padded_length hb)

/-- The last byte of a padded block is the padding length. -/
theorem padded_last_toNat {b : Bytes} (hb : b.length ≤ 15) : ((padded b).getD 15 0).toNat = 16 - b.length := by
  have hlt : 15 - b.length < 16 - b.length := by omega
  rw [padded, List.getD_append_right b _ 0 15 hb, List.getD_replicate _ hlt, BitVec.toNat_ofNat]
  omega

/-- What a success of the padding check says: the length `p` in the last byte is in range, the last `p` bytes all have the
value `p`, and the bytes before them are the result (40_primitive_and_key.md R93). -/
theorem unpad_eq_ok_iff (x : Block) (b : Bytes) :
    unpad x = .ok b ↔ ∃ p, (x.1.getD 15 0).toNat = p ∧ 1 ≤ p ∧ p ≤ 16 ∧
      x.1.drop (16 - p) = List.replicate p (BitVec.ofNat 8 p) ∧ x.1.take (16 - p) = b := by
  rw [exists_eq_left', unpad]
  split
  case isTrue hp => exact ⟨nofun, fun ⟨h1, h16, _⟩ => by omega⟩
  case isFalse hp =>
    split
    case isTrue ht =>
      exact ⟨fun h => ⟨by omega, by omega, ht, Except.ok.inj h⟩, fun ⟨_, _, _, h⟩ => congrArg Except.ok h⟩
    case isFalse ht => exact ⟨nofun, fun ⟨_, _, h, _⟩ => absurd h ht⟩

theorem unpad_eq_ok_iff_padded (x : Block) (b : Bytes) : unpad x = .ok b ↔ b.length ≤ 15 ∧ x.1 = padded b := by
  rw [unpad_eq_ok_iff]
  constructor
  · rintro ⟨p, -, h1, h16, htail, rfl⟩
    have hlen : (x.1.take (16 - p)).length = 16 - p := by rw [List.length_take, x.2]; omega
    have hp : 16 - (16 - p) = p := by omega
    refine ⟨by omega, ?_⟩
    rw [padded, hlen, hp, ← htail, List.take_append_drop]
  · rintro ⟨hb, hx⟩
    have hp : 16 - (16 - b.length) = b.length := by omega
    refine ⟨16 - b.length, by rw [hx, padded_last_toNat hb], by omega, by omega, ?_, ?_⟩
    · rw [hp, hx, padded, List.drop_left]
    · rw [hp, hx, padded, List.take_left]

/-- The padding check has one error (40_primitive_and_key.md R93). -/
theorem unpad_error {x : Block} {e : ErrCode} (h : unpad x = .error e) : e = .paddingError := by
  unfold unpad at h
  dsimp only at h
  split at h
  case isTrue => exact (Except.error.inj h).symm
  case isFalse =>
    split at h
    case isTrue => cases h
    case isFalse => exact (Except.error.inj h).symm

/-- Settles O27: the padding lemmas, for the padding, for the check's success and for its failure. -/
theorem unpadAcceptsExactlyPaddedBlocks : Obligations.UnpadAcceptsExactlyPaddedBlocks :=
  ⟨fun _ hb => pad_val hb, unpad_eq_ok_iff_padded, fun _ _ h => unpad_error h⟩

/-! ## The key check -/

theorem keyCheckPasses_iff (bits len : Nat) :
    keyCheckPasses bits len = true ↔
      (bits = 128 ∧ len = 16) ∨ (bits = 192 ∧ len = 24) ∨ (bits = 256 ∧ len = 32) := by
  simp only [keyCheckPasses, Bool.and_eq_true, Bool.or_eq_true, beq_iff_eq]
  omega

/-- Settles O28: by whether the check passes. -/
theorem keyCheckAcceptsAesLengths : Obligations.KeyCheckAcceptsAesLengths := by
  intro bits len
  rw [← keyCheckPasses_iff, keyCheck]
  split
  case isTrue hk => exact ⟨⟨fun _ => hk, fun _ => rfl⟩, fun hne => absurd rfl hne⟩
  case isFalse hk => exact ⟨⟨nofun, fun h => absurd h hk⟩, fun _ => rfl⟩

end Sys2Proof.Machine
end

section
/-! How a session becomes Ready: by a successful INIT and by nothing else (41_mode_init.md R110, R111, R114). -/

namespace Sys2Proof.Machine

open Sys2Proof Host

/-! ## Errors -/

theorem failCommand_ne_ready (cls : CmdClass) (e : ErrCode) {s : State} (hs : s.sess.st ≠ .ready) :
    (failCommand cls e s).sess.st ≠ .ready := by
  rw [failCommand_sess, if_neg (fun h => hs h.2)]
  exact hs

/-- An error of a mode-engine command ends a Ready session (60_exceptions.md R224). -/
theorem failCommand_modeEngine_ne_ready (e : ErrCode) (s : State) : (failCommand .modeEngine e s).sess.st ≠ .ready := by
  by_cases hs : s.sess.st = .ready
  · rw [failCommand_sess, if_pos ⟨rfl, hs⟩]
    decide
  · exact failCommand_ne_ready .modeEngine e hs

/-- A command that reports an error is one that ended by its error completion. -/
theorem exec_err_ne_ok {i : Instr} {s t : State} (h : exec i s = .next t) (he : t.err ≠ .ok) :
    ∃ e, t = failCommand (classOf i) e s := by
  obtain ⟨e, -, hf⟩ | ⟨-, hf⟩ | ⟨-, _, _, _, hf, -⟩ := exec_forms i s <;> obtain rfl := Outcome.next.inj (hf.symm.trans h)
  · exact ⟨e, rfl⟩
  · exact absurd rfl he
  · exact absurd rfl he

/-! ## Commands that bind no session -/

/-- Key wrap leaves the session alone, in success and in failure (44_keywrap_rfc3394.md R164). -/
theorem exec_keyWrap_sess {i : Instr} {s t : State} (hc : classOf i = .keyWrap) (h : exec i s = .next t) :
    t.sess = s.sess := by
  obtain ⟨e, -, hf⟩ | ⟨hi, -⟩ | ⟨-, _, _, _, hf, -, hkw⟩ := exec_forms i s
  · rw [← Outcome.next.inj (hf.symm.trans h), hc, failCommand_sess, if_neg (fun hk => nomatch hk.1)]
  · exact absurd (hi ▸ hc) (by decide)
  · rw [← Outcome.next.inj (hf.symm.trans h)]
    exact (hkw hc).2

/-- Outside a Ready session UPD and FIN report InvalidState (42_mode_update.md R120, R121; 43_mode_final.md R140, R141). -/
theorem exec_updateOrFinal_of_ne_ready {i : Instr} {s : State} (hi : i = .encupd ∨ i = .decupd ∨ i = .encfin ∨ i = .decfin)
    (hs : s.sess.st ≠ .ready) : exec i s = .next (failCommand .modeEngine .invalidState s) := by
  have hno : ∀ d, ¬ s.inSession d := fun _ h => hs h.1
  obtain rfl | rfl | rfl | rfl := hi
  · exact (run_updateBody .encrypt encStream s).trans (by rw [if_pos (hno _)])
  · exact (run_updateBody .decrypt decStream s).trans (by rw [if_pos (hno _)])
  · exact (run_encFinalBody s).trans (by rw [if_pos (hno _)])
  · exact (run_decFinalBody s).trans (by rw [if_pos (hno _)])

/-! ## INIT -/

/-- INIT with ECB leaves a Ready session only if it found an Idle one and reports no error (41_mode_init.md R110, R111). -/
theorem initSession_ecb_ready {dir : Dir} {s t : State} (h : runCommand .modeEngine (initSession dir .ecb) s = .next t)
    (ht : t.sess.st = .ready) : s.sess.st = .idle ∧ t.err = .ok := by
  obtain rfl := Outcome.next.inj ((run_initSession_ecb dir s).symm.trans h)
  split_ifs at ht ⊢ with hst hkey
  · exact absurd ht (failCommand_modeEngine_ne_ready .invalidState s)
  · exact ⟨not_not.1 hst, rfl⟩
  · exact absurd ht (failCommand_modeEngine_ne_ready .invalidKeyLength s)

/-- INIT with CBC likewise, and then the first chaining block is the IV (41_mode_init.md R112). -/
theorem initSession_cbc_ready {dir : Dir} {s t : State} (h : runCommand .modeEngine (initSession dir .cbc) s = .next t)
    (ht : t.sess.st = .ready) : s.sess.st = .idle ∧ t.err = .ok ∧ t.sess.cb = ivWindow s := by
  obtain rfl := Outcome.next.inj ((run_initSession_cbc dir s).symm.trans h)
  split_ifs at ht ⊢ with hst hkey hiv
  · exact absurd ht (failCommand_modeEngine_ne_ready .invalidState s)
  · exact absurd ht (failCommand_modeEngine_ne_ready .invalidIVLength s)
  · exact ⟨not_not.1 hst, rfl, rfl⟩
  · exact absurd ht (failCommand_modeEngine_ne_ready .invalidKeyLength s)

theorem initBadMode_ne_ready {s t : State} (h : runCommand .modeEngine initBadMode s = .next t) : t.sess.st ≠ .ready := by
  obtain rfl := Outcome.next.inj ((run_initBadMode s).symm.trans h)
  split_ifs
  · exact failCommand_modeEngine_ne_ready .invalidState s
  · exact failCommand_modeEngine_ne_ready .invalidMode s

/-! ## Every command and every step -/

/-- The one way into Ready is an INIT with a mode, from Idle, without an error; CBC seeds the chaining block from the IV
(41_mode_init.md R114). -/
theorem exec_enters_ready {i : Instr} {s t : State} (h : exec i s = .next t) (hs : s.sess.st ≠ .ready)
    (ht : t.sess.st = .ready) :
    s.sess.st = .idle ∧ t.err = .ok ∧
      (i = .encinitEcb ∨ i = .decinitEcb ∨ ((i = .encinitCbc ∨ i = .decinitCbc) ∧ t.sess.cb = ivWindow s)) := by
  have notFail : ∀ cls e, exec i s ≠ .next (failCommand cls e s) := fun cls e hf =>
    failCommand_ne_ready cls e hs (Outcome.next.inj (h.symm.trans hf) ▸ ht)
  have notUpdateOrFinal := fun hi => notFail .modeEngine .invalidState (exec_updateOrFinal_of_ne_ready hi hs)
  have notKeyWrap : classOf i ≠ .keyWrap := fun hc => hs (exec_keyWrap_sess hc h ▸ ht)
  cases i with
  | encinitEcb =>
    obtain ⟨hidle, hok⟩ := initSession_ecb_ready h ht
    exact ⟨hidle, hok, .inl rfl⟩
  | decinitEcb =>
    obtain ⟨hidle, hok⟩ := initSession_ecb_ready h ht
    exact ⟨hidle, hok, .inr (.inl rfl)⟩
  | encinitCbc =>
    obtain ⟨hidle, hok, hcb⟩ := initSession_cbc_ready h ht
    exact ⟨hidle, hok, .inr (.inr ⟨.inl rfl, hcb⟩)⟩
  | decinitCbc =>
    obtain ⟨hidle, hok, hcb⟩ := initSession_cbc_ready h ht
    exact ⟨hidle, hok, .inr (.inr ⟨.inr rfl, hcb⟩)⟩
  | encinitBadalg | decinitBadalg => exact absurd ht (initBadMode_ne_ready h)
  | encupd | decupd | encfin | decfin => exact absurd (by decide) notUpdateOrFinal
  | wrapKw | wrapKwp | unwrapKw | unwrapKwp | wrapBadalg | unwrapBadalg => exact absurd rfl notKeyWrap
  | clear =>
    obtain rfl := Outcome.next.inj h
    exact nomatch ht
  | illegal => exact absurd (run_raiseBody .control .illegalCommand s) (notFail _ _)

theorem doRead_sess (off : Nat) (w : Width) (s : State) : (doRead off w s).sess = s.sess := by
  obtain ⟨_, h, -⟩ := doRead_form off w s
  rw [h]

theorem doWrite_sess (off : Nat) (w : Width) (v : Word) (s : State) : (doWrite off w v s).sess = s.sess := by
  obtain ⟨-, h⟩ | ⟨-, h⟩ | ⟨-, h⟩ | ⟨-, h⟩ | ⟨-, h⟩ | ⟨-, -, -, h⟩ | ⟨-, h⟩ := doWrite_cases off w v s <;> rw [h]

theorem startReadOut_sess (s : State) : (startReadOut s).sess = s.sess := doRead_sess 0x00C .word s

/-- The session changes by a completing command and by reset, and by no other step. -/
theorem step_sess {s t : State} (h : step s = .next t) :
    (∃ r, s.busy = true ∧ exec (decode s.cmd) { s with arrivals := r } = .next t) ∨
      t.sess = s.sess ∨ t.sess = Session.reset := by
  obtain hexec | ⟨r, rfl⟩ | ⟨r, off, w, -, -, rfl⟩ | ⟨r, off, w, v, -, -, rfl⟩ | ⟨r, rfl⟩ | ⟨r, -, rfl⟩ | ⟨r, -, rfl⟩ :=
    step_cases h
  · exact .inl hexec
  · exact .inr (.inl rfl)
  · exact .inr (.inl (doRead_sess off w _))
  · exact .inr (.inl (doWrite_sess off w v _))
  · exact .inr (.inl (startReadOut_sess _))
  · exact .inr (.inl rfl)
  · exact .inr (.inr rfl)

/-- Settles O32: the only command into Ready, the error completions, and the steps that leave the session alone or reset it. -/
theorem onlyInitEntersReady : Obligations.OnlyInitEntersReady := by
  refine ⟨fun i s t h hs ht => exec_enters_ready h hs ht, ?failed, ?steps⟩
  case failed =>
    intro i s t h hc he
    obtain ⟨e, rfl⟩ := exec_err_ne_ok h he
    rw [hc]
    exact failCommand_modeEngine_ne_ready e s
  case steps =>
    intro s t h hs ht
    obtain ⟨r, hb, hexec⟩ | hkeep | hreset := step_sess h
    · obtain ⟨hidle, hok, hi⟩ := exec_enters_ready hexec hs ht
      refine ⟨hb, hidle, hok, ?_⟩
      obtain hi | hi | ⟨hi | hi, -⟩ := hi <;> simp [hi]
    · exact absurd (hkeep ▸ ht) hs
    · exact absurd (hreset ▸ ht) (by decide)

end Sys2Proof.Machine
end

section
/-! How a session ends and how a finished one is left: a final command or an error finalizes it, and from there lead only CLEAR
and reset (43_mode_final.md R142). -/

namespace Sys2Proof.Machine

open Sys2Proof Host

/-! ## Into Finalized -/

theorem failCommand_sess_of_ready (e : ErrCode) {s : State} (hs : s.sess.st = .ready) :
    (failCommand .modeEngine e s).sess = Session.finalized := by
  rw [failCommand_sess, if_pos ⟨rfl, hs⟩]

theorem failCommand_sess_of_ne_ready (cls : CmdClass) (e : ErrCode) {s : State} (hs : s.sess.st ≠ .ready) :
    (failCommand cls e s).sess = s.sess := by
  rw [failCommand_sess, if_neg (fun h => hs h.2)]

/-- ENCFIN ends a Ready session, of whichever direction (43_mode_final.md R140). -/
theorem exec_encfin_finalizes {s t : State} (h : exec .encfin s = .next t) (hs : s.sess.st = .ready) :
    t.sess = Session.finalized := by
  obtain rfl := Outcome.next.inj ((run_encFinalBody s).symm.trans h)
  split_ifs
  · rfl
  · exact failCommand_sess_of_ready .invalidState hs

/-- DECFIN ends a Ready session, of whichever direction and whatever its last block (43_mode_final.md R141). -/
theorem exec_decfin_finalizes {s t : State} (h : exec .decfin s = .next t) (hs : s.sess.st = .ready) :
    t.sess = Session.finalized := by
  obtain rfl := Outcome.next.inj ((run_decFinalBody s).symm.trans h)
  split_ifs
  · exact failCommand_sess_of_ready .invalidCiphertextLength hs
  · exact failCommand_sess_of_ready .noDataProcessed hs
  · cases unpad (lastPlain s) with
    | ok out => rfl
    | error e => exact failCommand_sess_of_ready e hs
  · exact failCommand_sess_of_ready .invalidState hs

/-! ## In Finalized -/

/-- Outside Idle every INIT reports InvalidState, whatever its ALG (41_mode_init.md R110, R111). -/
theorem exec_init_of_ne_idle {i : Instr} {s : State} (hc : classOf i = .modeEngine)
    (hi : ¬ (i = .encupd ∨ i = .decupd ∨ i = .encfin ∨ i = .decfin)) (hs : s.sess.st ≠ .idle) :
    exec i s = .next (failCommand .modeEngine .invalidState s) := by
  cases i with
  | encinitEcb => exact (run_initSession_ecb .encrypt s).trans (by rw [if_pos hs])
  | decinitEcb => exact (run_initSession_ecb .decrypt s).trans (by rw [if_pos hs])
  | encinitCbc => exact (run_initSession_cbc .encrypt s).trans (by rw [if_pos hs])
  | decinitCbc => exact (run_initSession_cbc .decrypt s).trans (by rw [if_pos hs])
  | encinitBadalg | decinitBadalg => exact (run_initBadMode s).trans (by rw [if_pos hs])
  | encupd | decupd | encfin | decfin => exact absurd (by decide) hi
  | wrapKw | wrapKwp | unwrapKw | unwrapKwp | wrapBadalg | unwrapBadalg | clear | illegal => exact nomatch hc

/-- A finished session takes neither INIT, which needs Idle, nor UPD and FIN, which need Ready (43_mode_final.md R142). -/
theorem exec_modeEngine_of_finalized {i : Instr} {s : State} (hc : classOf i = .modeEngine)
    (hs : s.sess.st = .finalized) : exec i s = .next (failCommand .modeEngine .invalidState s) := by
  by_cases hi : i = .encupd ∨ i = .decupd ∨ i = .encfin ∨ i = .decfin
  · exact exec_updateOrFinal_of_ne_ready hi (by simp [hs])
  · exact exec_init_of_ne_idle hc hi (by simp [hs])

/-! ## Out of Finalized -/

/-- The only command that takes a session out of Finalized is CLEAR (43_mode_final.md R142). -/
theorem exec_leaves_finalized {i : Instr} {s t : State} (h : exec i s = .next t) (hs : s.sess.st = .finalized)
    (ht : t.sess.st ≠ .finalized) : i = .clear ∧ t.sess = Session.reset := by
  have notKept : t.sess ≠ s.sess := fun hk => ht (hk ▸ hs)
  have notFail : ∀ cls e, exec i s ≠ .next (failCommand cls e s) := fun cls e hf =>
    notKept (Outcome.next.inj (h.symm.trans hf) ▸ failCommand_sess_of_ne_ready cls e (by simp [hs]))
  cases hc : classOf i with
  | modeEngine => exact absurd (exec_modeEngine_of_finalized hc hs) (notFail _ _)
  | keyWrap => exact absurd (exec_keyWrap_sess hc h) notKept
  | control =>
    cases i with
    | clear =>
      obtain rfl := Outcome.next.inj h
      exact ⟨rfl, rfl⟩
    | illegal => exact absurd (run_raiseBody .control .illegalCommand s) (notFail _ _)
    | _ => exact nomatch hc

/-- A step that changes the session is the completion of the running command or a reset that has arrived. -/
theorem step_changes_sess {s t : State} (h : step s = .next t) (hn : t.sess ≠ s.sess) :
    (∃ r, s.busy = true ∧ exec (decode s.cmd) { s with arrivals := r } = .next t) ∨
      ((∃ rest, s.arrivals = .reset :: rest) ∧ t.sess = Session.reset) := by
  obtain hexec | ⟨r, rfl⟩ | ⟨r, off, w, -, -, rfl⟩ | ⟨r, off, w, v, -, -, rfl⟩ | ⟨r, rfl⟩ | ⟨r, -, rfl⟩ | ⟨r, hr, rfl⟩ :=
    step_cases h
  · exact .inl hexec
  · exact absurd rfl hn
  · exact absurd (doRead_sess off w _) hn
  · exact absurd (doWrite_sess off w v _) hn
  · exact absurd (startReadOut_sess _) hn
  · exact absurd rfl hn
  · exact .inr ⟨⟨r, hr⟩, rfl⟩

/-- Settles O40: the ways into Finalized from Ready, what a mode-engine command does there, and the two ways out. -/
theorem sessionsAreOneShot : Obligations.SessionsAreOneShot := by
  refine ⟨?into, ?inside, ?out⟩
  case into =>
    rintro i s t h hs hc (herr | rfl | rfl)
    · obtain ⟨e, rfl⟩ := exec_err_ne_ok h herr
      rw [hc, failCommand_sess_of_ready e hs]
      rfl
    · rw [exec_encfin_finalizes h hs]
      rfl
    · rw [exec_decfin_finalizes h hs]
      rfl
  case inside =>
    intro i s hs hc
    exact ⟨_, exec_modeEngine_of_finalized hc hs, completed_failCommand .modeEngine .invalidState s,
      failCommand_sess_of_ne_ready _ _ (by simp [hs]), failCommand_kw _ _ _⟩
  case out =>
    intro s t h hs ht
    obtain ⟨r, hb, hexec⟩ | ⟨hreset, hsess⟩ := step_changes_sess h (fun hk => ht (hk ▸ hs))
    · obtain ⟨hclear, hsess⟩ := exec_leaves_finalized hexec hs ht
      exact ⟨hsess ▸ rfl, .inr ⟨hb, hclear⟩⟩
    · exact ⟨hsess ▸ rfl, .inl hreset⟩

end Sys2Proof.Machine
end

section
/-! The check of the message length indicator (45_keywrap_rfc5649.md R184). -/

namespace Sys2Proof.Machine

open Sys2Proof

/-- From index `m` on there are only zero bytes. -/
theorem drop_eq_replicate_zero_iff (m : Nat) (p : Bytes) :
    p.drop m = List.replicate (p.length - m) 0x00 ↔ ∀ k, m ≤ k → k < p.length → p.getD k 0x00 = 0x00 := by
  rw [List.eq_replicate_iff]
  constructor
  · rintro ⟨-, hzero⟩ k hmk hk
    rw [List.getD_eq_getElem _ _ hk]
    exact hzero _ (List.mem_drop_iff_getElem.2 ⟨k - m, by omega, by simp only [Nat.add_sub_cancel' hmk]⟩)
  · intro hzero
    refine ⟨List.length_drop, fun b hb => ?_⟩
    obtain ⟨j, hj, rfl⟩ := List.mem_drop_iff_getElem.1 hb
    rw [← List.getD_eq_getElem p 0x00]
    exact hzero (m + j) (Nat.le_add_right m j) (by omega)

/-- The two checks of R184 as one: first the length, then the padding, with the same error. -/
theorem mliCheck_eq_ite (mli : Nat) (p : Bytes) :
    mliCheck mli p = if (mli ≤ p.length ∧ p.length ≤ mli + 7) ∧ p.drop mli = List.replicate (p.length - mli) 0x00
      then .ok () else .error .paddingError := by
  by_cases hlen : mli ≤ p.length ∧ p.length ≤ mli + 7
  · simp only [mliCheck, require, hlen, decide_true, Bool.and_self, if_true, bind, Except.bind, beq_iff_eq, true_and]
  · rw [if_neg (fun h => hlen h.1), mliCheck, ← Bool.decide_and, decide_eq_false hlen]
    rfl

theorem mliCheck_eq_ok_iff (mli : Nat) (p : Bytes) : mliCheck mli p = .ok () ↔ mliPasses mli p := by
  rw [mliCheck_eq_ite, mliPasses, ← drop_eq_replicate_zero_iff, ← and_assoc]
  split
  case isTrue h => exact iff_of_true rfl h
  case isFalse h => exact iff_of_false nofun h

theorem mliCheck_of_ne_ok {mli : Nat} {p : Bytes} (h : mliCheck mli p ≠ .ok ()) :
    mliCheck mli p = .error .paddingError := by
  rw [mliCheck_eq_ite] at h ⊢
  exact if_neg (fun hp => h (if_pos hp))

/-- Recovered data has at least one register, too long for MLI = 0 (45_keywrap_rfc5649.md R184). -/
theorem not_mliPasses_zero {p : Bytes} (hp : 8 ≤ p.length) : ¬ mliPasses 0 p := by
  rintro ⟨-, hle, -⟩
  omega

theorem not_mliPasses_of_length_lt {mli : Nat} {p : Bytes} (h : p.length < mli) : ¬ mliPasses mli p :=
  fun ⟨hle, _⟩ => Nat.not_le.2 h hle

/-- Settles O50: the check's success and failure, and the two lengths that never pass. -/
theorem mliCheckIsTheSpecs : Obligations.MliCheckIsTheSpecs :=
  ⟨fun mli p => ⟨mliCheck_eq_ok_iff mli p, mliCheck_of_ne_ok⟩,
    fun _ hp => ⟨not_mliPasses_zero hp, fun _ => not_mliPasses_of_length_lt⟩⟩

end Sys2Proof.Machine
end

section
/-! The control commands and what they leave: CLEAR, illegal words, writes while a command runs, and what becomes of an earlier
output (46_control.md R204 to R207). -/

namespace Sys2Proof.Machine

open Sys2Proof Host

/-! ## Writes while a command runs -/

/-- While BUSY = 1 a legal write sets BUSYWR, wherever it goes and whatever it carries (46_control.md R207). -/
theorem doWrite_of_busy (off : Nat) (w : Width) (v : Word) {s : State} (hb : s.busy = true) :
    doWrite off w v s = { s with busywr := true } :=
  if_pos hb

/-- Settles O15: the step of a host write, with the write while BUSY = 1 in it. -/
theorem writesWhileBusyOnlySetBusywr : Obligations.WritesWhileBusyOnlySetBusywr := by
  intro s rest off w v hb ho ha
  rw [step_write ho ha, doWrite_of_busy off w v (s := { s with arrivals := rest }) hb]

/-! ## Illegal words -/

/-- Settles O57: ILLEGAL is an error completion of the control class, which wipes nothing. -/
theorem illegalWordLeavesTheSession : Obligations.IllegalWordLeavesTheSession :=
  ⟨fun s _ => ⟨failCommand .control .illegalCommand s, run_raiseBody .control .illegalCommand s,
    completed_failCommand .control .illegalCommand s, rfl, failCommand_sess .control .illegalCommand s,
    failCommand_kw .control .illegalCommand s⟩, by decide⟩

/-! ## CLEAR -/

/-- What CLEAR leaves: the reset state, but for the CMD read value and the model's own fields (46_control.md R205). -/
theorem exec_clear (s : State) :
    exec .clear s = .next
      { State.resetFor s.cfg with
        cmd := s.cmd, arrivals := s.arrivals, replies := s.replies, freeCount := s.freeCount } := rfl

/-- STATUS of an idle block with the session of reset, no error and no ignored write (10_state.md R24). -/
theorem statusWord_eq_zero {s : State} (hsess : s.sess = Session.reset) (herr : s.err = .ok) (hbusywr : s.busywr = false)
    (hbusy : s.busy = false) : statusWord s = 0x00000000 := by
  rw [statusWord, hsess, herr, hbusywr, hbusy]
  decide

/-- A command word is its three fields (30_encoding.md R70). -/
theorem rsv_alg_op_append (w : Word) : rsvField w ++ algField w ++ opField w = w := by
  have hhigh : rsvField w ++ algField w = w.extractLsb' 4 28 := BitVec.extractLsb'_append_extractLsb'_eq_extractLsb' rfl
  have hall : w.extractLsb' 4 28 ++ opField w = w.extractLsb' 0 32 :=
    BitVec.extractLsb'_append_extractLsb'_eq_extractLsb' rfl
  rw [hhigh, hall, BitVec.extractLsb'_eq_self]

/-- An OP with a selector decodes to none but its own three rows. -/
theorem decodeSelected_ne {alg first second : BitVec 4} {i j x : Instr} {bad : BitVec 4 → Instr} (hi : i ≠ x) (hj : j ≠ x)
    (hbad : bad alg ≠ x) : decodeSelected alg first second i j bad ≠ x := by
  unfold decodeSelected
  split_ifs
  · exact hi
  · exact hj
  · exact hbad

/-- An OP without a selector decodes to its row only where ALG is 0 (30_encoding.md R75). -/
theorem decodePlain_eq_clear {w : Word} {i : Instr} (h : decodePlain w i = .clear) : algField w = 0x0 ∧ i = .clear := by
  unfold decodePlain at h
  split at h
  case isTrue halg => exact ⟨halg, h⟩
  case isFalse => cases h

/-- CLEAR has OP 9, which takes no selector (30_encoding.md R72, R75). -/
theorem fields_of_decode_eq_clear {w : Word} (h : decode w = .clear) :
    rsvField w = 0 ∧ algField w = 0x0 ∧ opField w = 0x9 := by
  unfold decode at h
  split at h
  case isTrue => cases h
  case isFalse hrsv =>
    split at h
    case h_9 hop =>
      obtain ⟨halg, -⟩ := decodePlain_eq_clear h
      exact ⟨not_not.1 hrsv, halg, BitVec.eq_of_toNat_eq hop⟩
    case h_1 | h_2 | h_7 | h_8 => exact absurd h (decodeSelected_ne nofun nofun nofun)
    case h_3 | h_4 | h_5 | h_6 => exact nomatch (decodePlain_eq_clear h).2
    case h_10 => cases h

/-- 0x00000009 is CLEAR's one word (30_encoding.md R77). -/
theorem decode_eq_clear_iff (w : Word) : decode w = .clear ↔ w = 0x00000009 := by
  constructor
  · intro h
    obtain ⟨hrsv, halg, hop⟩ := fields_of_decode_eq_clear h
    rw [← rsv_alg_op_append w, hrsv, halg, hop]
    rfl
  · rintro rfl
    decide

/-- Settles O56: CLEAR's effect, what STATUS and the windows then read, its one word, and the one way out of Finalized. -/
theorem clearEqualsResetButForCmd : Obligations.ClearEqualsResetButForCmd := by
  refine fun s => ⟨exec_clear s, ?reads, decode_eq_clear_iff, fun i t h hs ht => (exec_leaves_finalized h hs ht).1⟩
  case reads =>
    intro t h
    obtain rfl := Outcome.next.inj ((exec_clear s).symm.trans h)
    exact ⟨statusWord_eq_zero rfl rfl rfl rfl, read_nil⟩

/-! ## An earlier output -/

/-- Memories in offset order with the same cells are the same list. -/
theorem memory_eq_of_mem_iff {m m' : Memory} (h : (m.map (·.1)).Pairwise (· < ·)) (h' : (m'.map (·.1)).Pairwise (· < ·))
    (hmem : ∀ c, c ∈ m ↔ c ∈ m') : m = m' := by
  have irrefl : Std.Irrefl (fun c d : Cell => c.1 < d.1) := ⟨fun c => Nat.lt_irrefl c.1⟩
  have antisymm : Std.Antisymm (fun c d : Cell => c.1 < d.1) := ⟨fun _ _ hcd hdc => absurd hcd (Nat.lt_asymm hdc)⟩
  exact (List.pairwise_map.1 h).eq_of_mem_iff (List.pairwise_map.1 h') hmem

theorem mem_erase_iff (m : Memory) (off n : Nat) (c : Cell) :
    c ∈ Memory.erase m off n ↔ c ∈ m ∧ (c.1 < off ∨ off + n ≤ c.1) := by
  simp [Memory.erase]

/-- A store keeps every cell outside the stored range. -/
theorem mem_write_of_mem {m : Memory} {off : Nat} (bs : Bytes) {c : Cell} (hc : c ∈ m)
    (hout : c.1 < off ∨ off + bs.length ≤ c.1) : c ∈ Memory.write m off bs := by
  simp only [Memory.write, List.mem_append, List.mem_filter, decide_eq_true_eq]
  exact hout.elim (fun hlt => .inl (.inl ⟨hc, hlt⟩)) (fun hge => .inr ⟨hc, hge⟩)

/-- An erasure leaves nothing of a string stored in the erased range. -/
theorem erase_write {m : Memory} (hm : Memory.wf m) (off : Nat) {bs : Bytes} {n : Nat} (hn : bs.length ≤ n) :
    Memory.erase (Memory.write m off bs) off n = Memory.erase m off n := by
  obtain ⟨hsorted, -⟩ := erase_wf _ off n (write_wf m off bs hm)
  obtain ⟨hsorted', -⟩ := erase_wf m off n hm
  refine memory_eq_of_mem_iff hsorted hsorted' (fun c => ?_)
  rw [mem_erase_iff, mem_erase_iff]
  refine and_congr_left (fun hout => ⟨fun hc => ?_, fun hc => mem_write_of_mem bs hc (by omega)⟩)
  obtain ⟨_, _, -⟩ | ⟨hold, -⟩ := mem_write m off bs c hc
  · omega
  · exact hold

/-- A command begins alike whatever OUT and OUTLEN held (46_control.md R204). -/
theorem beginCommand_withOutput {s : State} (hm : Memory.wf s.mem) {old : Bytes} (hold : old.length ≤ s.cfg.obufSize)
    (len : Word) : beginCommand { s with mem := Memory.write s.mem outBase old, outlen := len } = beginCommand s := by
  simp only [beginCommand, erase_write hm outBase hold]

theorem runCommand_congr {cls : CmdClass} {body : State → BodyResult} {s s' : State}
    (h : beginCommand s' = beginCommand s) : runCommand cls body s' = runCommand cls body s := by
  simp only [runCommand, failCommand, h]

/-- No command sees more of the state than its beginning leaves (46_control.md R204). -/
theorem exec_congr_beginCommand (i : Instr) {s s' : State} (h : beginCommand s' = beginCommand s) :
    exec i s' = exec i s := by
  cases i with
  | clear => exact congrArg (fun t => Outcome.next { clearAll t with busy := false }) h
  | wrapBadalg | unwrapBadalg => exact runCommand_congr (body := raiseBody .invalidMode) h
  | illegal => exact runCommand_congr (body := raiseBody .illegalCommand) h
  | _ => exact runCommand_congr h

theorem outHolds_clearAll (s : State) : outHolds { clearAll s with busy := false } [] :=
  ⟨rfl, fun _ _ => rfl⟩

theorem read_of_outHolds {t : State} {out : Bytes} (h : outHolds t out) {k : Nat} (hk : t.outlen.toNat ≤ k)
    (hsize : k < t.cfg.obufSize) : Memory.read t.mem (outBase + k) = 0x00 := by
  obtain ⟨hlen, hread⟩ := h
  rw [hread k hsize, List.getD_eq_default _ _ (hlen ▸ hk)]

/-- After a command OUT holds that command's output padded with zeros, and none if it failed (46_control.md R204). -/
theorem exec_outHolds (i : Instr) {s : State} (hs : s.Inv) :
    ∃ t out, exec i s = .next t ∧ t.cfg = s.cfg ∧ outHolds t out ∧ (t.err ≠ .ok → out = []) := by
  obtain ⟨e, -, h⟩ | ⟨-, h⟩ | ⟨-, out, x, hlen, -, h⟩ := exec_forms_inv i s hs
  · obtain ⟨-, -, hout, ⟨hcfg, -⟩, -⟩ := completed_failCommand (classOf i) e s
    exact ⟨_, [], h, hcfg, hout, fun _ => rfl⟩
  · exact ⟨_, [], h, rfl, outHolds_clearAll _, fun _ => rfl⟩
  · obtain ⟨⟨-, -, -, hmax⟩, -⟩ := hs
    have hfit : out.length < 2 ^ 32 := by simp only [Params.obufSize] at hlen; omega
    obtain ⟨-, -, hout, ⟨hcfg, -⟩, -⟩ := completed_complete s { beginCommand s with sess := x } out rfl
      ⟨rfl, rfl, rfl, rfl, rfl, rfl, rfl, rfl, rfl⟩ hlen hfit
    exact ⟨_, out, h, hcfg, hout, fun herr => absurd rfl herr⟩

/-- Settles O59: both commands begin in the same state, so they end in the same one, whose OUT holds one output. -/
theorem outputDoesNotSurviveTheNextCommand : Obligations.OutputDoesNotSurviveTheNextCommand := by
  intro i s old len hs hold
  obtain ⟨t, out, h, hcfg, hout, hfail⟩ := exec_outHolds i hs
  obtain ⟨-, ⟨hwf, -⟩, -⟩ := hs
  have hsame := exec_congr_beginCommand i (beginCommand_withOutput hwf hold len)
  refine ⟨t, t, h, hsame.trans h, rfl, rfl, rfl, fun herr => ?_, fun _ => rfl, fun k hk hsize => ?_⟩
  · obtain ⟨hlen, -⟩ := hout
    exact BitVec.eq_of_toNat_eq (by rw [hlen, hfail herr]; rfl)
  · exact read_of_outHolds hout hk (hcfg ▸ hsize)

end Sys2Proof.Machine
end

section
/-! Error completion: what a failed command leaves, by its class and the session's state (60_exceptions.md R224). -/

namespace Sys2Proof.Machine

open Sys2Proof

/-- STATUS shows nothing of a session that an error or a final command has ended (10_state.md R24). -/
theorem fields_finalized :
    dirField Session.finalized = 0 ∧ modeField Session.finalized = 0 ∧ plenField Session.finalized = 0 :=
  ⟨rfl, rfl, rfl⟩

/-- Only the mode engine's errors touch the session, and only a Ready one (60_exceptions.md R224). -/
theorem failCommand_sess_of_kept {cls : CmdClass} {s : State} (hkept : s.sess.st ≠ .ready ∨ cls ≠ .modeEngine)
    (e : ErrCode) : (failCommand cls e s).sess = s.sess := by
  obtain hready | hcls := hkept
  · exact failCommand_sess_of_ne_ready cls e hready
  · rw [failCommand_sess, if_neg (fun h => hcls h.1)]

/-- Settles O58: a command that reports an error ended by the one error completion of its class. -/
theorem errorEffectsAreByClassAndState : Obligations.ErrorEffectsAreByClassAndState := by
  intro i s t h he
  obtain ⟨e, rfl⟩ := exec_err_ne_ok h he
  refine ⟨completed_failCommand (classOf i) e s, fun hready hcls => ?_, fun hkept => failCommand_sess_of_kept hkept e,
    failCommand_kw (classOf i) e s⟩
  have hsess : (failCommand (classOf i) e s).sess = Session.finalized := hcls ▸ failCommand_sess_of_ready e hready
  rw [hsess]
  exact ⟨rfl, fields_finalized⟩

end Sys2Proof.Machine
end

section
/-! Reset: the values it leaves, and what can end a running command (70_reset_and_hazards.md R250, R251). -/

namespace Sys2Proof.Machine

open Sys2Proof Host

/-! ## The reset step -/

theorem step_reset {s : State} {rest : List Event} (h : s.arrivals = .reset :: rest) :
    step s = .next (platformReset { s with arrivals := rest }) := by
  simp only [step, nextTurn, h]

theorem session_reset_empty : Session.reset.empty := ⟨rfl, rfl, rfl, rfl, rfl⟩

/-- The states of R250: the machine's start, and what a reset step leaves. They differ in the model's own fields alone. -/
theorem eq_resetFor_of_start_or_step_reset {s : State}
    (h : (∃ p, s = State.resetFor p) ∨ ∃ u rest, u.arrivals = .reset :: rest ∧ step u = .next s) :
    ∃ p l r n, s = { State.resetFor p with arrivals := l, replies := r, freeCount := n } := by
  obtain ⟨p, rfl⟩ | ⟨u, rest, hu, hs⟩ := h
  · exact ⟨p, [], [], 0, rfl⟩
  · obtain rfl := Outcome.next.inj ((step_reset hu).symm.trans hs)
    exact ⟨u.cfg, rest, u.replies, u.freeCount, rfl⟩

/-! ## What ends a running command -/

theorem doRead_busy (off : Nat) (w : Width) (s : State) : (doRead off w s).busy = s.busy := by
  obtain ⟨_, h, -⟩ := doRead_form off w s
  rw [h]

theorem startReadOut_busy (s : State) : (startReadOut s).busy = s.busy := doRead_busy 0x00C .word s

/-- A write cannot stop a running command either: it is ignored and sets BUSYWR (46_control.md R207). -/
theorem doWrite_busy_of_busy (off : Nat) (w : Width) (v : Word) {s : State} (hb : s.busy = true) :
    (doWrite off w v s).busy = true := by
  rw [doWrite_of_busy off w v hb]
  exact hb

/-- Of the steps of a busy block, only the completion of its command and a reset do not leave it busy. -/
theorem step_of_busy {s t : State} (hb : s.busy = true) (h : step s = .next t) :
    (∃ l, exec (decode s.cmd) { s with arrivals := l } = .next t) ∨ (∃ rest, s.arrivals = .reset :: rest) ∨
      t.busy = true := by
  obtain ⟨l, -, hexec⟩ | ⟨l, rfl⟩ | ⟨l, off, w, -, -, rfl⟩ | ⟨l, off, w, v, -, -, rfl⟩ | ⟨l, rfl⟩ | ⟨l, -, rfl⟩ |
    ⟨rest, hreset, -⟩ := step_cases h
  · exact .inl ⟨l, hexec⟩
  · exact .inr (.inr hb)
  · exact .inr (.inr ((doRead_busy off w _).trans hb))
  · exact .inr (.inr (doWrite_busy_of_busy off w v hb))
  · exact .inr (.inr ((startReadOut_busy _).trans hb))
  · exact .inr (.inr hb)
  · exact .inr (.inl ⟨rest, hreset⟩)

/-! ## The obligations -/

/-- Settles O7: the reset step as a whole state, and the only two ways from BUSY = 1 to BUSY = 0. -/
theorem resetStepDiscardsRunningCommand : Obligations.ResetStepDiscardsRunningCommand := by
  refine ⟨fun s rest h => step_reset h, fun s t hb h hidle => ?_⟩
  obtain hexec | hreset | hbusy := step_of_busy hb h
  · exact .inr hexec
  · exact .inl hreset
  · exact absurd (hidle.symm.trans hbusy) Bool.false_ne_true

/-- Settles O5: each value of R250, read off the one form that the start and every reset step share. -/
theorem resetValuesAreTheSpecs : Obligations.ResetValuesAreTheSpecs := by
  intro s h
  obtain ⟨p, l, r, n, rfl⟩ := eq_resetFor_of_start_or_step_reset h
  have hstatus := statusWord_eq_zero (s := { State.resetFor p with arrivals := l, replies := r, freeCount := n })
    rfl rfl rfl rfl
  exact ⟨hstatus, rfl, rfl, rfl, rfl, rfl, rfl, rfl, rfl, rfl, read_nil, rfl, session_reset_empty, rfl, rfl,
    fun _ => rfl⟩

end Sys2Proof.Machine
end

section
/-! The decoder and the encoder are inverse to each other, and the opcode map that follows from it (30_encoding.md R70 to
R77). -/

namespace Sys2Proof

open Sys2Proof.Machine (rsv_alg_op_append)

/-! ## Fields of a command word -/

@[simp] theorem opField_append (rsv : BitVec 24) (alg op : BitVec 4) : opField (rsv ++ alg ++ op) = op :=
  BitVec.extractLsb'_append_eq_right

@[simp] theorem algField_append (rsv : BitVec 24) (alg op : BitVec 4) : algField (rsv ++ alg ++ op) = alg := by
  rw [algField, BitVec.extractLsb'_append_eq_of_le (by decide)]
  exact BitVec.extractLsb'_append_eq_right

@[simp] theorem rsvField_append (rsv : BitVec 24) (alg op : BitVec 4) : rsvField (rsv ++ alg ++ op) = rsv := by
  rw [rsvField, BitVec.extractLsb'_append_eq_of_le (by decide)]
  exact BitVec.extractLsb'_append_eq_left

/-- A word with RSV = 0 is the command word of its other two fields (30_encoding.md R70). -/
theorem commandWord_of_rsv_eq_zero {w : Word} (h : rsvField w = 0) : commandWord (opField w) (algField w) = w := by
  conv_rhs => rw [← rsv_alg_op_append w, h]
  rfl

/-! ## The branches of the decoder -/

theorem decodeSelected_of_ne {alg first second : BitVec 4} {i j : Instr} {bad : BitVec 4 → Instr} (h1 : alg ≠ first)
    (h2 : alg ≠ second) : decodeSelected alg first second i j bad = bad alg := by
  rw [decodeSelected, if_neg h1, if_neg h2]

theorem decodePlain_of_ne {w : Word} {i : Instr} (h : algField w ≠ 0x0) : decodePlain w i = .illegal w := if_neg h

theorem not_isModeAlg_iff (alg : BitVec 4) : (!isModeAlg alg) = true ↔ alg ≠ 0x0 ∧ alg ≠ 0x1 := by simp [isModeAlg]

theorem not_isWrapAlg_iff (alg : BitVec 4) : (!isWrapAlg alg) = true ↔ alg ≠ 0x2 ∧ alg ≠ 0x3 := by simp [isWrapAlg]

theorem isReservedOp_iff (op : BitVec 4) : isReservedOp op = true ↔ op.toNat = 0 ∨ 10 ≤ op.toNat := by revert op; decide

theorem isPlainOp_iff (op : BitVec 4) :
    isPlainOp op = true ↔ op.toNat = 3 ∨ op.toNat = 4 ∨ op.toNat = 5 ∨ op.toNat = 6 ∨ op.toNat = 9 := by revert op; decide

theorem isIllegalWord_iff (w : Word) :
    isIllegalWord w = true ↔ rsvField w ≠ 0 ∨ isReservedOp (opField w) = true ∨
      (isPlainOp (opField w) = true ∧ algField w ≠ 0x0) := by
  simp [isIllegalWord, rsvField, opField, algField, or_assoc]

/-- R76's illegal words are rejected by the decoder: by RSV, by OP, or by the selector of an OP that takes none. -/
theorem decode_of_isIllegalWord {w : Word} (h : isIllegalWord w = true) : decode w = .illegal w := by
  rw [isIllegalWord_iff] at h
  by_cases hrsv : rsvField w = 0
  · rw [decode, if_neg (not_not.2 hrsv)]
    obtain h | hop | ⟨hop, halg⟩ := h
    · exact absurd hrsv h
    · rw [isReservedOp_iff] at hop
      split
      case h_10 => rfl
      all_goals omega
    · rw [isPlainOp_iff] at hop
      split
      case h_3 | h_4 | h_5 | h_6 | h_9 => exact decodePlain_of_ne halg
      case h_10 => rfl
      all_goals omega
  · exact if_pos hrsv

/-! ## The instruction of a word -/

/-- `i` is well formed and its word is `w`. -/
def Instr.standsFor (i : Instr) (w : Word) : Prop := i.wf = true ∧ encode i = w

theorem illegal_standsFor {w : Word} (h : isIllegalWord w = true) : (Instr.illegal w).standsFor w := ⟨h, rfl⟩

/-- An OP with a selector: each row stands for the words with its ALG. -/
theorem decodeSelected_standsFor {w : Word} {alg first second : BitVec 4} {i j : Instr} {bad : BitVec 4 → Instr}
    (hi : alg = first → i.standsFor w) (hj : alg = second → j.standsFor w)
    (hbad : alg ≠ first → alg ≠ second → (bad alg).standsFor w) :
    (decodeSelected alg first second i j bad).standsFor w := by
  unfold decodeSelected
  split_ifs with h1 h2
  · exact hi h1
  · exact hj h2
  · exact hbad h1 h2

/-- An OP without a selector: its row stands for the word with ALG 0, and every other word is illegal. -/
theorem decodePlain_standsFor {w : Word} {i : Instr} (hop : isPlainOp (opField w) = true)
    (hi : algField w = 0x0 → i.standsFor w) : (decodePlain w i).standsFor w := by
  unfold decodePlain
  split_ifs with halg
  · exact hi halg
  · exact illegal_standsFor ((isIllegalWord_iff w).2 (.inr (.inr ⟨hop, halg⟩)))

theorem decode_standsFor (w : Word) : (decode w).standsFor w := by
  unfold decode
  split_ifs with hrsv
  · exact illegal_standsFor ((isIllegalWord_iff w).2 (.inl hrsv))
  · have hword : ∀ op alg, (opField w).toNat = op.toNat → algField w = alg → commandWord op alg = w := by
      rintro op _ hop rfl
      rw [← BitVec.eq_of_toNat_eq hop]
      exact commandWord_of_rsv_eq_zero (not_not.1 hrsv)
    split
    case h_1 hop | h_2 hop =>
      exact decodeSelected_standsFor (fun h => ⟨rfl, hword _ _ hop h⟩) (fun h => ⟨rfl, hword _ _ hop h⟩)
        (fun h1 h2 => ⟨(not_isModeAlg_iff _).2 ⟨h1, h2⟩, hword _ _ hop rfl⟩)
    case h_7 hop | h_8 hop =>
      exact decodeSelected_standsFor (fun h => ⟨rfl, hword _ _ hop h⟩) (fun h => ⟨rfl, hword _ _ hop h⟩)
        (fun h1 h2 => ⟨(not_isWrapAlg_iff _).2 ⟨h1, h2⟩, hword _ _ hop rfl⟩)
    case h_3 hop | h_4 hop | h_5 hop | h_6 hop | h_9 hop =>
      exact decodePlain_standsFor ((isPlainOp_iff _).2 (by omega)) (fun h => ⟨rfl, hword _ _ hop h⟩)
    case h_10 h1 h2 h3 h4 h5 h6 h7 h8 h9 =>
      have hop : isReservedOp (opField w) = true := by
        rw [isReservedOp_iff]
        by_contra hlow
        have hcases : ∀ n : Nat, ¬ (n = 0 ∨ 10 ≤ n) → n = 1 ∨ n = 2 ∨ n = 3 ∨ n = 4 ∨ n = 5 ∨ n = 6 ∨ n = 7 ∨ n = 8 ∨ n = 9 := by
          omega
        obtain h | h | h | h | h | h | h | h | h := hcases _ hlow
        all_goals contradiction
      exact illegal_standsFor ((isIllegalWord_iff w).2 (.inr (.inl hop)))

/-! ## The obligations -/

/-- Settles O1: the rows by evaluation, a bad selector by its field, an illegal word by the reason it is illegal. -/
theorem decodeOfEncodeIsIdentity : Obligations.DecodeOfEncodeIsIdentity := by
  intro i hwf
  cases i with
  | encinitBadalg alg =>
    obtain ⟨h1, h2⟩ := (not_isModeAlg_iff alg).1 hwf
    calc decode (commandWord 0x1 alg)
        = decodeSelected alg 0x0 0x1 .encinitEcb .encinitCbc .encinitBadalg := by simp [decode, commandWord]
      _ = .encinitBadalg alg := decodeSelected_of_ne h1 h2
  | decinitBadalg alg =>
    obtain ⟨h1, h2⟩ := (not_isModeAlg_iff alg).1 hwf
    calc decode (commandWord 0x2 alg)
        = decodeSelected alg 0x0 0x1 .decinitEcb .decinitCbc .decinitBadalg := by simp [decode, commandWord]
      _ = .decinitBadalg alg := decodeSelected_of_ne h1 h2
  | wrapBadalg alg =>
    obtain ⟨h1, h2⟩ := (not_isWrapAlg_iff alg).1 hwf
    calc decode (commandWord 0x7 alg)
        = decodeSelected alg 0x2 0x3 .wrapKw .wrapKwp .wrapBadalg := by simp [decode, commandWord]
      _ = .wrapBadalg alg := decodeSelected_of_ne h1 h2
  | unwrapBadalg alg =>
    obtain ⟨h1, h2⟩ := (not_isWrapAlg_iff alg).1 hwf
    calc decode (commandWord 0x8 alg)
        = decodeSelected alg 0x2 0x3 .unwrapKw .unwrapKwp .unwrapBadalg := by simp [decode, commandWord]
      _ = .unwrapBadalg alg := decodeSelected_of_ne h1 h2
  | illegal w => exact decode_of_isIllegalWord hwf
  | _ => decide

/-- Settles O2: branch by branch of the decoder. -/
theorem everyWordIsTheWordOfItsInstruction : Obligations.EveryWordIsTheWordOfItsInstruction := decode_standsFor

/-- Settles O3: the listed words by evaluation, the groups by the first round trip, and the rest by the second, which leaves
an unlisted word no instruction but ILLEGAL. -/
theorem opcodeMapIsExactlyAsListed : Obligations.OpcodeMapIsExactlyAsListed := by
  refine ⟨by decide, by decide, by decide, by decide, by decide, by decide, by decide, by decide, by decide, by decide,
    by decide, by decide, by decide, ?enc, ?dec, ?wrap, ?unwrap, ?rest⟩
  case enc => exact fun a h0 h1 => decodeOfEncodeIsIdentity (.encinitBadalg a) ((not_isModeAlg_iff a).2 ⟨h0, h1⟩)
  case dec => exact fun a h0 h1 => decodeOfEncodeIsIdentity (.decinitBadalg a) ((not_isModeAlg_iff a).2 ⟨h0, h1⟩)
  case wrap => exact fun a h2 h3 => decodeOfEncodeIsIdentity (.wrapBadalg a) ((not_isWrapAlg_iff a).2 ⟨h2, h3⟩)
  case unwrap => exact fun a h2 h3 => decodeOfEncodeIsIdentity (.unwrapBadalg a) ((not_isWrapAlg_iff a).2 ⟨h2, h3⟩)
  case rest =>
    intro w hlisted hgroup
    obtain ⟨-, hw⟩ := decode_standsFor w
    cases hi : decode w <;> rw [hi] at hw
    case illegal v => exact congrArg Instr.illegal hw
    case encinitBadalg a => exact absurd hw.symm (hgroup a).1
    case decinitBadalg a => exact absurd hw.symm (hgroup a).2.1
    case wrapBadalg a => exact absurd hw.symm (hgroup a).2.2.1
    case unwrapBadalg a => exact absurd hw.symm (hgroup a).2.2.2
    all_goals exact absurd (by rw [← hw]; decide) hlisted

/-- Settles O4: by evaluation of the decoder. -/
theorem sampleWordsDecode : Obligations.SampleWordsDecode := by
  refine ⟨?_, ?_, ?_, ?_, ?_, ?_⟩ <;> decide

end Sys2Proof
end

section
/-! What every step leaves as it was and what it keeps true: the completions' frame, the parameters, and the invariant of
10_state.md R35. -/

namespace Sys2Proof.Machine

open Sys2Proof Host

/-! ## The engine's step -/

/-- Settles O8: the two places of the engine's turn. -/
theorem stepRunsTheLatchedCommand : Obligations.StepRunsTheLatchedCommand := by
  refine fun s hb => ⟨fun rest h => ?placed, fun h => ?idle⟩
  case placed => simp only [step, nextTurn, h, hb, if_true]
  case idle => simp only [step, nextTurn, h, hb, if_true]

/-- Settles O9: the engine's turn stands first and BUSY is set, so the step is the engine's. -/
theorem placedWordRunsNext : Obligations.PlacedWordRunsNext := fun s n w =>
  (stepRunsTheLatchedCommand (s.withFetchWord n w) rfl).1 s.arrivals rfl

/-! ## The frame of a command -/

theorem keepsRegisters_complete (out : Bytes) (s : State) (x : Session) (w : KeyWrapTemps) :
    keepsRegisters s (complete out { beginCommand s with sess := x, kw := w }) :=
  ⟨rfl, rfl, rfl, rfl, rfl, rfl, rfl, rfl, rfl⟩

/-- Every command but CLEAR completes, with this frame (46_control.md R201, R203; 60_exceptions.md R224). -/
theorem exec_frame {i : Instr} (hi : i ≠ .clear) (s : State) :
    ∃ t, exec i s = .next t ∧ t.busy = false ∧ keepsRegisters s t ∧ (classOf i ≠ .keyWrap → t.kw = s.kw) ∧
      (classOf i = .keyWrap → t.kw = KeyWrapTemps.zero ∧ t.sess = s.sess) := by
  obtain ⟨e, -, h⟩ | ⟨hclear, -⟩ | ⟨-, out, x, w, h, hkw, hwrap⟩ := exec_forms i s
  · refine ⟨_, h, rfl, failCommand_keepsRegisters _ e s, fun hc => ?_, fun hc => ⟨?_, exec_keyWrap_sess hc h⟩⟩
    · rw [failCommand_kw, if_neg hc]
    · rw [failCommand_kw, if_pos hc]
  · exact absurd hclear hi
  · exact ⟨_, h, rfl, keepsRegisters_complete out s x w, hkw, hwrap⟩

/-- Settles O11: CLEAR by its one form, every other command by the common frame. -/
theorem everyCommandCompletes : Obligations.EveryCommandCompletes := by
  intro i s
  by_cases hi : i = .clear
  · subst hi
    exact ⟨_, rfl, rfl, rfl, rfl, rfl, rfl, rfl, fun h => absurd rfl h, fun _ h => absurd rfl h, nofun⟩
  · obtain ⟨t, h, hbusy, hregs, hkw, hwrap⟩ := exec_frame hi s
    have hkeeps := hregs
    obtain ⟨hcfg, hcmd, -, -, -, -, harr, hrep, hfree⟩ := hregs
    exact ⟨t, h, hbusy, hcfg, hcmd, harr, hrep, hfree, fun _ => hkeeps, fun hc _ => hkw hc, hwrap⟩

theorem exec_cfg {i : Instr} {s t : State} (h : exec i s = .next t) : t.cfg = s.cfg := by
  obtain ⟨u, hu, -, hcfg, -⟩ := everyCommandCompletes i s
  rw [Outcome.next.inj (h.symm.trans hu), hcfg]

/-! ## The parameters -/

theorem doRead_cfg (off : Nat) (w : Width) (s : State) : (doRead off w s).cfg = s.cfg := by
  obtain ⟨_, h, -⟩ := doRead_form off w s
  rw [h]

theorem doWrite_cfg (off : Nat) (w : Width) (v : Word) (s : State) : (doWrite off w v s).cfg = s.cfg := by
  obtain ⟨-, h⟩ | ⟨-, h⟩ | ⟨-, h⟩ | ⟨-, h⟩ | ⟨-, h⟩ | ⟨-, -, -, h⟩ | ⟨-, h⟩ := doWrite_cases off w v s <;> rw [h]

/-- Settles O12: no kind of step writes the parameters. -/
theorem stepKeepsParameters : Obligations.StepKeepsParameters := by
  intro s t h
  obtain ⟨r, -, hexec⟩ | ⟨r, rfl⟩ | ⟨r, off, w, -, -, rfl⟩ | ⟨r, off, w, v, -, -, rfl⟩ | ⟨r, rfl⟩ | ⟨r, -, rfl⟩ | ⟨r, -, rfl⟩ :=
    step_cases h
  · exact exec_cfg (s := { s with arrivals := r }) hexec
  · rfl
  · exact doRead_cfg off w _
  · exact doWrite_cfg off w v _
  · exact doRead_cfg 0x00C .word _
  · rfl
  · rfl

/-! ## Canonical memories -/

/-- Of a canonical memory the cells are the bytes that do not read as an unlisted one. -/
theorem mem_iff_read {m : Memory} (hm : Memory.wf m) (c : Cell) :
    c ∈ m ↔ Memory.read m c.1 = c.2 ∧ c.2 ≠ Memory.unlisted := by
  induction m with
  | nil => exact ⟨nofun, fun ⟨hread, hne⟩ => absurd hread.symm hne⟩
  | cons d m ih =>
    obtain ⟨hsorted, hlisted⟩ := hm
    obtain ⟨hbelow, hsorted'⟩ := List.pairwise_cons.1 hsorted
    have hih := ih ⟨hsorted', fun e he => hlisted e (List.mem_cons_of_mem d he)⟩
    rw [List.mem_cons, read_cons]
    split_ifs with hc
    · have hout : c ∉ m := fun hmem => (hbelow c.1 (List.mem_map_of_mem hmem)).ne hc.symm
      constructor
      · rintro (rfl | hmem)
        · exact ⟨rfl, hlisted c List.mem_cons_self⟩
        · exact absurd hmem hout
      · exact fun ⟨hval, _⟩ => .inl (Prod.ext hc hval.symm)
    · rw [← hih]
      exact or_iff_right (fun heq => hc (congrArg Prod.fst heq))

/-- Settles O13: their cells are the same, and a canonical memory is its cells in order. -/
theorem canonicalMemoriesReadingAlikeAreEqual : Obligations.CanonicalMemoriesReadingAlikeAreEqual := by
  intro m m' hm hm' hread
  refine memory_eq_of_mem_iff hm.1 hm'.1 (fun c => ?_)
  rw [mem_iff_read hm, mem_iff_read hm', hread]

/-! ## The invariant: windows -/

/-- KEY, IV and IN lie below OUT. -/
theorem lt_outBase_of_writable {p : Params} (hp : p.ok) {off : Nat} (h : (regionOf p off).writable = true) :
    off < outBase := by
  obtain ⟨-, -, -, hmax⟩ := hp
  unfold regionOf at h
  split_ifs at h with hkey hiv hin
  · obtain ⟨-, hlt⟩ := (inRange_iff _ _ _).1 hkey
    simp only [keyBase, keySize, outBase] at *; omega
  · obtain ⟨-, hlt⟩ := (inRange_iff _ _ _).1 hiv
    simp only [ivBase, ivSize, outBase] at *; omega
  · obtain ⟨-, hlt⟩ := (inRange_iff _ _ _).1 hin
    simp only [inBase, outBase] at *; omega
  · cases h
  · cases h

/-- What lies in a window and not in KEY, IV or IN lies in OUT. -/
theorem region_cases {p : Params} (hp : p.ok) {off : Nat} (h : regionOf p off ≠ .reserved) :
    off < outBase ∨ (outBase ≤ off ∧ off < outBase + p.obufSize) := by
  cases hr : regionOf p off with
  | reserved => exact absurd hr h
  | output => exact .inr (regionOf_output hr)
  | key | iv | input => exact .inl (lt_outBase_of_writable hp (by rw [hr]; rfl))

/-- Where no cell lies in OUT, any OUTLEN fits. -/
theorem windowsInv_of_below {t : State} (hwf : Memory.wf t.mem) (hin : ∀ c ∈ t.mem, cellInWindow t.cfg c)
    (hlow : ∀ c ∈ t.mem, c.1 < outBase) : windowsInv t :=
  ⟨hwf, hin, fun c hc hge => absurd (hlow c hc) (not_lt.2 hge)⟩

/-- After a command's beginning no cell lies in OUT (46_control.md R204). -/
theorem mem_beginCommand {s : State} (hs : s.Inv) {c : Cell} (hc : c ∈ (beginCommand s).mem) :
    c ∈ s.mem ∧ c.1 < outBase := by
  obtain ⟨hcfg, ⟨-, hin, -⟩, -⟩ := hs
  obtain ⟨hmem, hout⟩ := mem_erase _ _ _ c hc
  obtain hlt | ⟨hge, hlt⟩ := region_cases hcfg (hin c hmem).2
  · exact ⟨hmem, hlt⟩
  · exact ⟨hmem, by omega⟩

theorem windowsInv_beginCommand {s t : State} (hs : s.Inv) (hmem : t.mem = (beginCommand s).mem) (hcfg : t.cfg = s.cfg) :
    windowsInv t := by
  have hlow := fun c => mem_beginCommand hs (c := c)
  obtain ⟨-, ⟨hwf, hin, -⟩, -⟩ := hs
  refine windowsInv_of_below (hmem ▸ erase_wf _ _ _ hwf) (fun c hc => ?_) (fun c hc => (hlow c (hmem ▸ hc)).2)
  rw [hcfg]
  exact hin c (hlow c (hmem ▸ hc)).1

/-- An output that fits OUT stands in it, up to OUTLEN (46_control.md R203). -/
theorem windowsInv_complete {s : State} (hs : s.Inv) {out : Bytes} (hlen : out.length ≤ s.cfg.obufSize) (x : Session) :
    windowsInv (complete out { beginCommand s with sess := x }) := by
  have hlow := fun c => mem_beginCommand hs (c := c)
  obtain ⟨hcfg, ⟨hwf, hin, -⟩, -⟩ := hs
  have hfit : (BitVec.ofNat 32 out.length).toNat = out.length := by
    obtain ⟨-, -, -, hmax⟩ := hcfg
    simp only [Params.obufSize] at hlen
    rw [BitVec.toNat_ofNat]
    omega
  refine ⟨write_wf _ _ _ (erase_wf _ _ _ hwf), fun c hc => ?_, fun c hc hge => ?_⟩
  · obtain ⟨hge, hlt, -⟩ | ⟨hold, -⟩ := mem_write _ _ _ c hc
    · refine ⟨by simp only [outBase] at hge; omega, ?_⟩
      show regionOf s.cfg c.1 ≠ .reserved
      rw [regionOf_out hcfg hge (by omega)]
      decide
    · exact hin c (hlow c hold).1
  · obtain ⟨-, hlt, -⟩ | ⟨hold, -⟩ := mem_write _ _ _ c hc
    · rw [complete_outlen, hfit]
      exact hlt
    · exact absurd (hlow c hold).2 (not_lt.2 hge)

/-- A legal window write stores in KEY, IV or IN alone. -/
theorem windowsInv_write {s : State} (hs : s.Inv) {off : Nat} {w : Width} {v : Word} (hoff : 0x100 ≤ off)
    (hlegal : accessLegal off w = true) (hreg : (regionOf s.cfg off).writable = true) :
    windowsInv { s with mem := Memory.write s.mem off (wordToLanes w.bytes v) } := by
  obtain ⟨hcfg, ⟨hwf, hin, hout⟩, -⟩ := hs
  have hstored : ∀ a, off ≤ a → a < off + w.bytes → regionOf s.cfg a = regionOf s.cfg off := by
    intro a hge hlt
    have := regionOf_add hcfg (k := a - off) hoff hlegal (by omega)
    rwa [Nat.add_sub_cancel' hge] at this
  refine ⟨write_wf _ _ _ hwf, fun c hc => ?_, fun c hc hge => ?_⟩
  · obtain ⟨hge, hlt, -⟩ | ⟨hold, -⟩ := mem_write _ _ _ c hc
    · rw [wordToLanes_length] at hlt
      refine ⟨by omega, fun hres => ?_⟩
      rw [← hstored c.1 hge hlt, hres] at hreg
      cases hreg
    · exact hin c hold
  · obtain ⟨hge', hlt, -⟩ | ⟨hold, -⟩ := mem_write _ _ _ c hc
    · rw [wordToLanes_length] at hlt
      rw [← hstored c.1 hge' hlt] at hreg
      exact absurd (lt_outBase_of_writable hcfg hreg) (not_lt.2 hge)
    · exact hout c hold hge

/-! ## The invariant: states -/

theorem inv_of_wiped {t : State} (hcfg : t.cfg.ok) (hmem : t.mem = []) (houtlen : t.outlen = 0) (hkey : t.keycfg = 0)
    (hiv : t.ivcfg = 0) (hsess : t.sess = Session.reset) (hkw : t.kw = KeyWrapTemps.zero) : t.Inv := by
  have hnone : ∀ c : Cell, c ∉ t.mem := fun c => hmem ▸ List.not_mem_nil
  refine ⟨hcfg, windowsInv_of_below (hmem ▸ nil_wf) (fun c hc => absurd hc (hnone c)) (fun c hc => absurd hc (hnone c)),
    ⟨?_, ?_, ?_, fun _ => houtlen⟩, ?_, hkw⟩
  · rw [houtlen]; exact Nat.zero_le _
  · rw [hkey]; decide
  · rw [hiv]; decide
  · rw [hsess]; decide

theorem inv_failCommand {s : State} (hs : s.Inv) (cls : CmdClass) (e : ErrCode) : (failCommand cls e s).Inv := by
  have hwin := windowsInv_beginCommand (t := failCommand cls e s) hs (failCommand_mem cls e s)
    (failCommand_keepsRegisters cls e s).1
  obtain ⟨hcfg, -, ⟨-, hkey, hiv, -⟩, hsess, hkw⟩ := hs
  obtain ⟨hc, -, -, -, hk, hi, -⟩ := failCommand_keepsRegisters cls e s
  refine ⟨hc ▸ hcfg, hwin, ⟨?_, hk ▸ hkey, hi ▸ hiv, fun _ => failCommand_outlen cls e s⟩, ?_, ?_⟩
  · rw [failCommand_outlen]; exact Nat.zero_le _
  · rw [failCommand_sess]
    split_ifs
    · exact finalized_inv
    · exact hsess
  · rw [failCommand_kw, hkw, ite_self]

theorem inv_complete {s : State} (hs : s.Inv) {out : Bytes} (hlen : out.length ≤ s.cfg.obufSize) {x : Session}
    (hx : x.inv) : (complete out { beginCommand s with sess := x }).Inv := by
  have hwin := windowsInv_complete hs hlen x
  obtain ⟨hcfg, -, ⟨-, hkey, hiv, -⟩, -, hkw⟩ := hs
  refine ⟨hcfg, hwin, ⟨?_, hkey, hiv, fun herr => absurd rfl herr⟩, hx, hkw⟩
  rw [complete_outlen, BitVec.toNat_ofNat]
  exact (Nat.mod_le _ _).trans hlen

theorem exec_keeps_inv {i : Instr} {s t : State} (hs : s.Inv) (h : exec i s = .next t) : t.Inv := by
  obtain ⟨e, -, hf⟩ | ⟨-, hf⟩ | ⟨-, out, x, hlen, hx, hf⟩ := exec_forms_inv i s hs <;>
    obtain rfl := Outcome.next.inj (hf.symm.trans h)
  · exact inv_failCommand hs (classOf i) e
  · exact inv_of_wiped hs.1 rfl rfl rfl rfl rfl rfl
  · exact inv_complete hs hlen hx

theorem doRead_keeps_inv {s : State} (hs : s.Inv) (off : Nat) (w : Width) : (doRead off w s).Inv := by
  obtain ⟨_, h, -⟩ := doRead_form off w s
  rw [h]
  exact hs

theorem doWrite_keeps_inv {s : State} (hs : s.Inv) {off : Nat} {w : Width} (hlegal : accessLegal off w = true) (v : Word) :
    (doWrite off w v s).Inv := by
  have hs' := hs
  obtain ⟨hcfg, hwin, ⟨hout, hkey, hiv, herr⟩, hsess, hkw⟩ := hs
  obtain ⟨-, h⟩ | ⟨-, h⟩ | ⟨-, h⟩ | ⟨-, h⟩ | ⟨-, h⟩ | ⟨-, hoff, hreg, h⟩ | ⟨-, h⟩ := doWrite_cases off w v s <;> rw [h]
  case inr.inr.inr.inl =>
    refine ⟨hcfg, hwin, ⟨hout, ?_, hiv, herr⟩, hsess, hkw⟩
    exact Nat.and_lt_two_pow v.toNat (by decide : keycfgMask.toNat < 2 ^ 22)
  case inr.inr.inr.inr.inl =>
    refine ⟨hcfg, hwin, ⟨hout, hkey, ?_, herr⟩, hsess, hkw⟩
    exact Nat.and_lt_two_pow v.toNat (by decide : ivcfgMask.toNat < 2 ^ 8)
  case inr.inr.inr.inr.inr.inl => exact ⟨hcfg, windowsInv_write hs' hoff hlegal hreg, ⟨hout, hkey, hiv, herr⟩, hsess, hkw⟩
  all_goals exact hs'

/-- Settles O10: every kind of step, by what it writes. -/
theorem everyStepKeepsInvariant : Obligations.EveryStepKeepsInvariant := by
  intro s t hs h
  obtain ⟨r, -, hexec⟩ | ⟨r, rfl⟩ | ⟨r, off, w, -, -, rfl⟩ | ⟨r, off, w, v, -, hl, rfl⟩ | ⟨r, rfl⟩ | ⟨r, -, rfl⟩ |
    ⟨r, -, rfl⟩ := step_cases h
  · exact exec_keeps_inv (s := { s with arrivals := r }) hs hexec
  · exact hs
  · exact doRead_keeps_inv (s := { s with arrivals := r }) hs off w
  · exact doWrite_keeps_inv (s := { s with arrivals := r }) hs hl v
  · exact doRead_keeps_inv (s := { s with arrivals := r }) hs 0x00C .word
  · exact hs
  · exact inv_of_wiped hs.1 rfl rfl rfl rfl rfl rfl

/-- Settles O6: reset wipes everything and its parameters are legal. -/
theorem resetMeetsInvariant : Obligations.ResetMeetsInvariant :=
  inv_of_wiped (by decide) rfl rfl rfl rfl rfl rfl

end Sys2Proof.Machine
end

section
/-! The host's accesses: what each register and window takes from a write and gives to a read (10_state.md R22 to R32,
20_memory.md R51 to R57). -/

namespace Sys2Proof.Machine

open Sys2Proof Host

/-! ## Legal accesses -/

theorem accessLegal_register {off : Nat} (hoff : off < 0x100) (halign : off % 4 = 0) : accessLegal off .word = true :=
  (accessLegal_iff off .word).2 (by rw [if_pos hoff]; exact ⟨rfl, halign⟩)

theorem step_legal_write {s : State} {rest : List Event} {off : Nat} {w : Width} {v : Word} (ho : off < 0x40000)
    (hl : accessLegal off w = true) (h : s.arrivals = .write (s.cfg.base + off) w v :: rest) :
    step s = .next (doWrite off w v { s with arrivals := rest }) := by
  rw [step_write ho h, if_pos hl]

theorem step_legal_read {s : State} {rest : List Event} {off : Nat} {w : Width} (ho : off < 0x40000)
    (hl : accessLegal off w = true) (h : s.arrivals = .read (s.cfg.base + off) w :: rest) :
    step s = .next (doRead off w { s with arrivals := rest }) := by
  rw [step_read ho h, if_pos hl]

/-! ## Writes of an idle block -/

theorem doWrite_register {s : State} {off : Nat} (w : Width) (v : Word) (hb : s.busy = false) (hoff : off < 0x100) :
    doWrite off w v s = writeRegister off v s := by
  simp [doWrite, hb, hoff]

theorem doWrite_window {s : State} {off : Nat} (w : Width) (v : Word) (hb : s.busy = false) (hoff : 0x100 ≤ off) :
    doWrite off w v s = writeWindow off w v s := by
  simp [doWrite, hb, not_lt.2 hoff]

/-- A mask of the low `n` bits is a cut to `n` bits. -/
theorem and_mask_eq_setWidth (v mask : Word) (n : Nat) (hmask : mask.toNat = 2 ^ n - 1) (hn : n ≤ 32) :
    v &&& mask = BitVec.setWidth 32 (v.extractLsb' 0 n) := by
  apply BitVec.eq_of_toNat_eq
  have hle : 2 ^ n ≤ 2 ^ 32 := Nat.pow_le_pow_right (by decide) hn
  have hlt : v.toNat % 2 ^ n < 2 ^ 32 := lt_of_lt_of_le (Nat.mod_lt _ (Nat.two_pow_pos n)) hle
  rw [BitVec.toNat_and, hmask, Nat.and_two_pow_sub_one_eq_mod, BitVec.toNat_setWidth, BitVec.extractLsb'_toNat,
    Nat.shiftRight_zero, Nat.mod_eq_of_lt hlt]

theorem writeRegister_eq_ite {off : Nat} (v : Word) (s : State) (hoff : off ≠ 0) :
    writeRegister off v s =
      if off = 0x008 then { s with inlen := v }
      else if off = 0x010 then { s with keycfg := BitVec.setWidth 32 (v.extractLsb' 0 22) }
      else if off = 0x014 then { s with ivcfg := BitVec.setWidth 32 (v.extractLsb' 0 8) }
      else s := by
  unfold writeRegister
  split
  case h_1 => exact absurd rfl hoff
  case h_2 => rfl
  case h_3 => rw [and_mask_eq_setWidth v keycfgMask 22 rfl (by decide)]; rfl
  case h_4 => rw [and_mask_eq_setWidth v ivcfgMask 8 rfl (by decide)]; rfl
  case h_5 h1 h2 h3 => rw [if_neg h1, if_neg h2, if_neg h3]

/-- Settles O17: the register write, field by field. -/
theorem registerWritesStoreTheirFields : Obligations.RegisterWritesStoreTheirFields := by
  intro s rest off v hb hoff halign hne h
  rw [step_legal_write (by omega) (accessLegal_register hoff halign) h,
    doWrite_register .word v (s := { s with arrivals := rest }) hb hoff, writeRegister_eq_ite v _ hne]

/-- The bits of STATUS above BUSY. -/
theorem statusWord_busy (s : State) (c : Word) :
    statusWord { s with cmd := c, busy := true } = statusWord { s with busy := false } ||| 0x00000001 := by
  have hbit : ∀ high : BitVec 31, high ++ BitVec.ofBool true = (high ++ BitVec.ofBool false) ||| 0x00000001#32 := by
    intro high
    have hone : 0x00000001#32 = 0#31 ++ 1#1 := rfl
    rw [hone, BitVec.or_append, BitVec.or_zero]
    rfl
  exact hbit _

/-- Settles O16: the write to CMD, and the one bit of STATUS that it changes. -/
theorem commandWriteIsAccepted : Obligations.CommandWriteIsAccepted := by
  intro s rest v hb h
  constructor
  · rw [step_legal_write (off := 0) (by decide) (accessLegal_register (by decide) rfl) h,
      doWrite_register .word v (s := { s with arrivals := rest }) hb (by decide)]
    rfl
  · have hs : statusWord s = statusWord { s with busy := false, arrivals := rest } := by rw [← hb]; rfl
    rw [hs]
    exact statusWord_busy { s with arrivals := rest } v

/-! ## Window writes -/

theorem writable_iff (r : Region) : r.writable = true ↔ r = .key ∨ r = .iv ∨ r = .input := by
  cases r <;> decide

theorem wordToLanes_getD {n k : Nat} (v : Word) (hk : k < n) : (wordToLanes n v).getD k 0x00 = v.extractLsb' (8 * k) 8 := by
  rw [List.getD_eq_getElem _ _ (by rwa [wordToLanes_length])]
  simp [wordToLanes]

theorem writeWindow_frame (off : Nat) (w : Width) (v : Word) (s : State) :
    writeWindow off w v s = { s with mem := (writeWindow off w v s).mem } := by
  unfold writeWindow
  split <;> rfl

/-- Every byte after a window write (20_memory.md R55, R57). -/
theorem read_writeWindow (off : Nat) (w : Width) (v : Word) (s : State) (a : Nat) :
    Memory.read (writeWindow off w v s).mem a =
      if (regionOf s.cfg off).writable = true ∧ off ≤ a ∧ a < off + w.bytes then v.extractLsb' (8 * (a - off)) 8
      else Memory.read s.mem a := by
  unfold writeWindow
  split_ifs with hreg hin hin
  · obtain ⟨-, hge, hlt⟩ := hin
    rw [read_write, wordToLanes_length, if_pos ⟨hge, hlt⟩]
    exact wordToLanes_getD v (by omega)
  · rw [read_write, wordToLanes_length, if_neg (fun h => hin ⟨hreg, h⟩)]
  · exact absurd hin.1 hreg
  · rfl

/-- Settles O18: the window write, byte by byte. -/
theorem windowWritesUseLittleEndianLanes : Obligations.WindowWritesUseLittleEndianLanes := by
  intro s rest off w v hb hoff ho hl h
  refine ⟨_, step_legal_write ho hl h, ?_, fun a => ?_⟩ <;>
    rw [doWrite_window w v (s := { s with arrivals := rest }) hb hoff]
  · exact writeWindow_frame off w v _
  · simp only [read_writeWindow, writable_iff]

/-! ## Reads -/

theorem isFreeRead_iff (s : State) (off : Nat) :
    isFreeRead s off = true ↔ s.busy = true ∧ (off = 0x00C ∨ (0x100 ≤ off ∧ regionOf s.cfg off = .output)) := by
  simp [isFreeRead]

/-- A legal read whose value is not free (20_memory.md R57). -/
theorem step_read_value {s : State} {rest : List Event} {off : Nat} {w : Width} (ho : off < 0x40000)
    (hl : accessLegal off w = true) (h : s.arrivals = .read (s.cfg.base + off) w :: rest) (hf : isFreeRead s off = false) :
    step s = .next { s with arrivals := rest, replies := readValue s off w :: s.replies } := by
  have hf' : isFreeRead { s with arrivals := rest } off = false := hf
  rw [step_legal_read ho hl h, doRead, hf']
  rfl

/-- A legal read whose value is free (70_reset_and_hazards.md R262). -/
theorem step_read_free {s : State} {rest : List Event} {off : Nat} {w : Width} (ho : off < 0x40000)
    (hl : accessLegal off w = true) (h : s.arrivals = .read (s.cfg.base + off) w :: rest) (hf : isFreeRead s off = true) :
    step s = .next
      { s with arrivals := rest, replies := freeReadValue s w :: s.replies, freeCount := s.freeCount + 1 } := by
  have hf' : isFreeRead { s with arrivals := rest } off = true := hf
  rw [step_legal_read ho hl h, doRead, hf']
  rfl

theorem readRegister_eq_ite (s : State) (off : Nat) :
    readRegister s off =
      if off = 0x000 then s.cmd else if off = 0x004 then statusWord s else if off = 0x008 then s.inlen
      else if off = 0x00C then s.outlen else if off = 0x010 then s.keycfg else if off = 0x014 then s.ivcfg
      else if off = 0x018 then BitVec.ofNat 32 s.cfg.ibufSize else 0x00000000 := by
  unfold readRegister
  split
  case h_8 h1 h2 h3 h4 h5 h6 h7 =>
    rw [if_neg h1, if_neg h2, if_neg h3, if_neg h4, if_neg h5, if_neg h6, if_neg h7]
  all_goals rfl

theorem readValue_register {off : Nat} (s : State) (w : Width) (h : off < 0x100) : readValue s off w = readRegister s off :=
  if_pos h

theorem readValue_window {off : Nat} (s : State) (w : Width) (h : 0x100 ≤ off) : readValue s off w = readWindow s off w :=
  if_neg (not_lt.2 h)

/-- Settles O60: a register read, free for OUTLEN while busy alone. -/
theorem registerReadsReturnTheirValue : Obligations.RegisterReadsReturnTheirValue := by
  intro s rest off hoff halign h
  have hfree := isFreeRead_iff s off
  have hl := accessLegal_register hoff halign
  constructor
  · intro hcase
    have hnot : isFreeRead s off = false := by
      rw [Bool.eq_false_iff, Ne, hfree]
      rintro ⟨hb, h0c | ⟨hge, -⟩⟩
      · obtain hidle | hne := hcase
        · exact absurd (hidle.symm.trans hb) Bool.false_ne_true
        · exact hne h0c
      · omega
    rw [step_read_value (by omega) hl h hnot, readValue_register s _ hoff, readRegister_eq_ite]
  · intro hb h0c
    exact ⟨_, step_read_free (by omega) hl h (hfree.2 ⟨hb, .inl h0c⟩)⟩

/-- The lanes of a window read: OUT's bytes, and zero elsewhere (10_state.md R32, 20_memory.md R52, R55). -/
theorem readWindow_lane (s : State) (off : Nat) (w : Width) {k : Nat} (hk : k < 4) :
    (readWindow s off w).extractLsb' (8 * k) 8 =
      if regionOf s.cfg off = .output ∧ k < w.bytes then Memory.read s.mem (off + k) else 0x00 := by
  have hw : w.bytes ≤ 4 := by cases w <;> decide
  unfold readWindow
  split
  case h_1 hout =>
    rw [lanesToWord_lane _ (by rwa [readRange_length]) k hk]
    split_ifs with hin
    · rw [List.getD_eq_getElem _ _ (by rw [readRange_length]; exact hin.2)]
      simp [Memory.readRange]
    · exact List.getD_eq_default _ _ (by rw [readRange_length]; exact not_lt.1 (fun hlt => hin ⟨hout, hlt⟩))
  case h_2 hout =>
    rw [if_neg (fun hin => hout hin.1)]
    exact BitVec.extractLsb'_zero

theorem freeReadValue_lane (s : State) (w : Width) {k : Nat} (hk : k < 4) (hw : w.bytes ≤ k) :
    (freeReadValue s w).extractLsb' (8 * k) 8 = 0x00 := by
  have hlen := wordToLanes_length w.bytes (Config.busyRead s.freeCount)
  rw [freeReadValue, lanesToWord_lane _ (by omega) k hk, List.getD_eq_default _ _ (by omega)]

/-- Settles O19: a window read, free in OUT while busy alone. -/
theorem windowReadsReturnOnlyOutput : Obligations.WindowReadsReturnOnlyOutput := by
  intro s rest off w hoff ho hl h
  have hfree := isFreeRead_iff s off
  constructor
  · intro hcase
    have hnot : isFreeRead s off = false := by
      rw [Bool.eq_false_iff, Ne, hfree]
      rintro ⟨hb, h0c | ⟨-, hout⟩⟩
      · omega
      · obtain hidle | hne := hcase
        · exact absurd (hidle.symm.trans hb) Bool.false_ne_true
        · exact hne hout
    refine ⟨_, step_read_value ho hl h hnot, fun k hk => ?_⟩
    rw [readValue_window s w hoff]
    exact readWindow_lane s off w hk
  · intro hb hout
    exact ⟨_, step_read_free ho hl h (hfree.2 ⟨hb, .inr ⟨hoff, hout⟩⟩), fun k hk hw => freeReadValue_lane s w hk hw⟩

theorem run_two {s t u : State} (h1 : step s = .next t) (h2 : step t = .next u) : core.run 2 s = .next u := by
  rw [run_next h1, run_next h2]
  rfl

/-- Settles O20: the second read finds the block as the first one did, with the same value unless the value is free. -/
theorem readsAreIdempotent : Obligations.ReadsAreIdempotent := by
  intro s rest off w ho hl h
  have hfree := isFreeRead_iff s off
  cases hf : isFreeRead s off with
  | true =>
    refine ⟨_, _, 2, run_two (step_read_free ho hl h hf) (step_read_free ho hl rfl hf), ?_⟩
    rw [if_pos (hfree.1 hf)]
  | false =>
    refine ⟨_, _, 0, run_two (step_read_value ho hl h hf) (step_read_value ho hl rfl hf), ?_⟩
    rw [if_neg (fun hb => absurd (hfree.2 hb) (by simp [hf]))]
    exact ⟨rfl, rfl⟩

/-! ## STATUS -/

/-- STATUS as its fields in a row, from bit 31 down, and each cut out of it (10_state.md R24). -/
theorem statusFields (plen : BitVec 6) (err : BitVec 8) (busywr mode dir : BitVec 1) (st : BitVec 2) (busy : BitVec 1) :
    let w := 0#10 ++ plen ++ err ++ 0#2 ++ busywr ++ mode ++ dir ++ st ++ busy
    w.extractLsb' 0 1 = busy ∧ w.extractLsb' 1 2 = st ∧ w.extractLsb' 3 1 = dir ∧ w.extractLsb' 4 1 = mode ∧
    w.extractLsb' 5 1 = busywr ∧ w.extractLsb' 6 2 = 0#2 ∧ w.extractLsb' 8 8 = err ∧ w.extractLsb' 16 6 = plen ∧
    w.extractLsb' 22 10 = 0#10 := by
  refine ⟨?_, ?_, ?_, ?_, ?_, ?_, ?_, ?_, ?high⟩
  case high =>
    repeat rw [BitVec.extractLsb'_append_eq_of_le (by decide)]
    rfl
  all_goals
    repeat rw [BitVec.extractLsb'_append_eq_of_le (by decide)]
    exact BitVec.extractLsb'_append_eq_right

/-- Settles O21: the fields' places, and what DIR, MODE and PLEN are. -/
theorem statusFieldsReadTheirState : Obligations.StatusFieldsReadTheirState := by
  intro s w
  obtain ⟨hbusy, hst, hdir, hmode, hbusywr, hlow, herr, hplen, hhigh⟩ :=
    statusFields (plenField s.sess) s.err.code (BitVec.ofBool s.busywr) (modeField s.sess) (dirField s.sess)
      (stateField s.sess) (BitVec.ofBool s.busy)
  refine ⟨hbusy, hst, hdir.trans ?_, hmode.trans ?_, hbusywr, hlow, herr, fun hp => ?_, hhigh⟩
  · unfold dirField
    split
    case h_1 h1 h2 => rw [if_pos ⟨h1, h2⟩]
    case h_2 h => rw [if_neg (fun ⟨h1, h2⟩ => h h1 h2)]
  · unfold modeField
    split
    case h_1 h1 h2 => rw [if_pos ⟨h1, h2⟩]
    case h_2 h => rw [if_neg (fun ⟨h1, h2⟩ => h h1 h2)]
  · calc ((statusWord s).extractLsb' 16 6).toNat = (plenField s.sess).toNat := congrArg BitVec.toNat hplen
      _ = s.sess.pend.length % 2 ^ 6 := BitVec.toNat_ofNat _ _
      _ = s.sess.pend.length := by omega

/-! ## Secrets -/

theorem doRead_replies (off : Nat) (w : Width) (s : State) :
    (doRead off w s).replies = (if isFreeRead s off then freeReadValue s w else readValue s off w) :: s.replies := by
  unfold doRead
  split <;> rfl

/-- What the session shows of itself in STATUS: not its key, its chaining block or the bytes that are pending. -/
theorem statusWord_congr_secrets (s : State) (mem : Memory) (key : Bytes) (cb : Block) {pend : Bytes}
    (hpend : pend.length = s.sess.pend.length) :
    statusWord { s with mem := mem, sess := { s.sess with key := key, cb := cb, pend := pend } } = statusWord s := by
  have hplen : plenField { s.sess with key := key, cb := cb, pend := pend } = plenField s.sess := by
    rw [plenField, hpend]; rfl
  simp only [statusWord, hplen]
  rfl

/-- A legal window read returns bytes of OUT only. -/
theorem readWindow_congr_out {s s' : State} (hcfg : s.cfg.ok) (hc : s'.cfg = s.cfg) {off : Nat} {w : Width}
    (hoff : 0x100 ≤ off) (hl : accessLegal off w = true)
    (hmem : ∀ k < s.cfg.obufSize, Memory.read s'.mem (outBase + k) = Memory.read s.mem (outBase + k)) :
    readWindow s' off w = readWindow s off w := by
  rw [readWindow, readWindow, hc]
  split
  case h_1 hout =>
    refine congrArg lanesToWord (readRange_congr _ _ _ _ (fun k hk => ?_))
    obtain ⟨hge, hlt⟩ := regionOf_output ((regionOf_add hcfg hoff hl hk).trans hout)
    have := hmem (off + k - outBase) (by omega)
    rwa [Nat.add_sub_cancel' hge] at this
  case h_2 => rfl

/-- Settles O22: the value of every read, register or window, is the same in both states. -/
theorem secretsAreNeverReadable : Obligations.SecretsAreNeverReadable := by
  rintro s _ a w rest ⟨key, cb, pend, mem, rfl, hpend, hmem⟩ hcfg h t ht
  cases hoff : offsetOf s a with
  | none =>
    obtain rfl := Outcome.next.inj ((step_read_outside hoff h).symm.trans ht)
    exact ⟨_, step_read_outside hoff h, rfl⟩
  | some off =>
    obtain ⟨rfl, ho⟩ := offsetOf_some hoff
    have hl : accessLegal off w = true := by
      by_contra hl
      rw [step_read ho h, if_neg hl] at ht
      cases ht
    obtain rfl := Outcome.next.inj ((step_legal_read ho hl h).symm.trans ht)
    refine ⟨_, step_legal_read ho hl h, ?_⟩
    have hvalue : readValue { s with mem := mem, sess := { s.sess with key := key, cb := cb, pend := pend } } off w
        = readValue s off w := by
      by_cases hreg : off < 0x100
      · rw [readValue_register _ _ hreg, readValue_register _ _ hreg, readRegister_eq_ite, readRegister_eq_ite,
          statusWord_congr_secrets s mem key cb hpend]
      · rw [readValue_window _ _ (not_lt.1 hreg), readValue_window _ _ (not_lt.1 hreg)]
        exact readWindow_congr_out (s' := { s with mem := mem, sess := _ }) hcfg rfl (not_lt.1 hreg) hl hmem
    rw [doRead_replies, doRead_replies]
    exact congrArg (fun v => (if isFreeRead s off then freeReadValue s w else v) :: s.replies) hvalue

end Sys2Proof.Machine
end

section
/-! The host's programs: POLL, SETIN and RDOUT as runs of steps (30_encoding.md R78, R79; 70_reset_and_hazards.md R261). -/

namespace Sys2Proof.Machine

open Sys2Proof Host

/-! ## Runs of reads -/

theorem run_cons {k : Nat} {s t : State} {o : Outcome State Fault Refusal} (h : step s = .next t)
    (hrun : core.run k t = o) : core.run (k + 1) s = o :=
  (run_next h).trans hrun

/-- Reads whose values are not free, one after the other: the block stays as it was and the replies come in order. -/
theorem run_reads {l : List (Nat × Width)} {s : State} {rest : List Event}
    (h : s.arrivals = l.map (fun x => .read (s.cfg.base + x.1) x.2) ++ rest)
    (hl : ∀ x ∈ l, x.1 < 0x40000 ∧ accessLegal x.1 x.2 = true ∧ isFreeRead s x.1 = false) :
    core.run l.length s = .next
      { s with arrivals := rest, replies := (l.map (fun x => readValue s x.1 x.2)).reverse ++ s.replies } := by
  induction l generalizing s with
  | nil =>
    obtain rfl : s.arrivals = rest := h
    rfl
  | cons x l ih =>
    obtain ⟨ho, hlegal, hfree⟩ := hl x List.mem_cons_self
    have h' : s.arrivals = .read (s.cfg.base + x.1) x.2 :: (l.map (fun x => .read (s.cfg.base + x.1) x.2) ++ rest) := h
    have hreplies : ∀ r : List Word, (l.map (fun x => readValue s x.1 x.2)).reverse ++ readValue s x.1 x.2 :: r
        = ((x :: l).map (fun x => readValue s x.1 x.2)).reverse ++ r := by simp
    rw [← hreplies]
    exact run_cons (step_read_value ho hlegal h' hfree)
      (ih (s := { s with arrivals := _ ++ rest, replies := readValue s x.1 x.2 :: s.replies }) rfl
        (fun y hy => hl y (List.mem_cons_of_mem x hy)))

/-! ## RDOUT -/

theorem isFreeRead_of_idle {s : State} (hb : s.busy = false) (off : Nat) : isFreeRead s off = false := by
  rw [isFreeRead, hb, Bool.false_and]

/-- The expansion of RDOUT in an idle block (30_encoding.md R79). -/
theorem step_readOut {s : State} {rest : List Event} (hb : s.busy = false) (h : s.arrivals = .readOut :: rest) :
    step s = .next { s with arrivals := outReads s s.outlen.toNat ++ rest, replies := s.outlen :: s.replies } := by
  have hfree : isFreeRead { s with arrivals := rest } 0x00C = false := isFreeRead_of_idle hb _
  simp only [step, nextTurn, h, startReadOut, doRead, hfree]
  rfl

theorem readWindow_byte {s : State} {off : Nat} (h : regionOf s.cfg off = .output) :
    readWindow s off .byte = BitVec.setWidth 32 (Memory.read s.mem off) := by
  apply BitVec.eq_of_toNat_eq
  simp [readWindow, h, lanesToWord, Memory.readRange, Width.bytes]

/-- Settles O25: the read of OUTLEN, and then the run of reads of OUT's bytes. -/
theorem readOutReturnsTheOutput : Obligations.ReadOutReturnsTheOutput := by
  intro s rest hcfg hb hlen h
  have hobuf : s.cfg.obufSize ≤ 65536 := by
    obtain ⟨-, -, -, hmax⟩ := hcfg
    simp only [Params.obufSize]
    omega
  have hreads := run_reads (s := { s with arrivals := outReads s s.outlen.toNat ++ rest, replies := s.outlen :: s.replies })
    (l := (List.range s.outlen.toNat).map (fun k => (outBase + k, .byte))) (rest := rest)
    (by simp [outReads, Function.comp_def, Nat.add_assoc]) (fun x hx => by
      obtain ⟨k, hk, rfl⟩ := List.mem_map.1 hx
      rw [List.mem_range] at hk
      refine ⟨by simp only [outBase]; omega, (accessLegal_iff _ _).2 ?_, isFreeRead_of_idle hb _⟩
      rw [if_neg (by simp only [outBase]; omega)]
      exact Nat.mod_one _)
  have hbytes : ∀ k ∈ List.range s.outlen.toNat,
      readValue s (outBase + k) .byte = BitVec.setWidth 32 (Memory.read s.mem (outBase + k)) := by
    intro k hk
    rw [List.mem_range] at hk
    rw [readValue_window _ _ (by simp only [outBase]; omega),
      readWindow_byte (regionOf_out hcfg (Nat.le_add_right _ _) (by omega))]
  have hreplies : ((List.range s.outlen.toNat).map (fun k => (outBase + k, Width.byte))).map (fun x => readValue s x.1 x.2)
      = (outBytes s).map (BitVec.setWidth 32) := by
    simp only [List.map_map, outBytes, Memory.readRange]
    exact List.map_congr_left hbytes
  rw [List.length_map, List.length_range] at hreads
  rw [Nat.add_comm, ← hreplies]
  exact run_cons (step_readOut hb h) hreads

/-! ## SETIN -/

/-- A run of `k` steps stores `b` from `off` on and does nothing else but consume its arrivals. -/
def storesIn (k : Nat) (s : State) (rest : List Event) (off : Nat) (b : Bytes) : Prop :=
  ∃ m, core.run k s = .next { s with mem := m, arrivals := rest } ∧
    ∀ a, Memory.read m a = Memory.read (Memory.write s.mem off b) a

theorem storesIn_nil {s : State} {rest : List Event} (h : s.arrivals = rest) (off : Nat) : storesIn 0 s rest off [] := by
  obtain rfl := h
  refine ⟨s.mem, rfl, fun a => ?_⟩
  rw [read_write, if_neg (by simp only [List.length_nil]; omega)]

/-- Two stores side by side are one. -/
theorem read_write_append (m : Memory) (off : Nat) (x y : Bytes) (a : Nat) :
    Memory.read (Memory.write (Memory.write m off x) (off + x.length) y) a = Memory.read (Memory.write m off (x ++ y)) a := by
  simp only [read_write, List.length_append]
  by_cases hy : off + x.length ≤ a
  · rw [List.getD_append_right _ _ _ _ (by omega), Nat.sub_sub]
    grind
  · by_cases hx : off ≤ a
    · rw [List.getD_append _ _ _ _ (by omega)]
      grind
    · grind

/-- A legal write to IN, and then the stores that follow it. -/
theorem storesIn_cons {k : Nat} {s : State} {more rest : List Event} {off : Nat} {w : Width} {v : Word} {x y : Bytes}
    (hcfg : s.cfg.ok) (hb : s.busy = false) (hlow : inBase ≤ off) (hhigh : off < inBase + s.cfg.ibufSize)
    (halign : off % w.bytes = 0) (hlanes : wordToLanes w.bytes v = x) (h : s.arrivals = .write (s.cfg.base + off) w v :: more)
    (hmore : ∀ m, storesIn k { s with mem := m, arrivals := more } rest (off + x.length) y) :
    storesIn (k + 1) s rest off (x ++ y) := by
  have hreg := regionOf_in hcfg hlow hhigh
  obtain ⟨-, -, -, hmax⟩ := hcfg
  simp only [inBase] at hlow hhigh
  have hl : accessLegal off w = true := (accessLegal_iff off w).2 (by rw [if_neg (by omega)]; exact halign)
  have hstep : step s = .next { s with mem := Memory.write s.mem off x, arrivals := more } := by
    rw [step_legal_write (by omega) hl h, doWrite_window w v (s := { s with arrivals := more }) hb (by omega), writeWindow,
      if_pos ((writable_iff _).2 (.inr (.inr hreg))), hlanes]
  obtain ⟨m, hrun, hread⟩ := hmore (Memory.write s.mem off x)
  refine ⟨m, by rw [run_next hstep, hrun], fun a => ?_⟩
  rw [hread, read_write_append]

theorem wordToLanes_wordOfLanes (b0 b1 b2 b3 : Byte) : wordToLanes 4 (wordOfLanes b0 b1 b2 b3) = [b0, b1, b2, b3] := by
  have h0 : (wordOfLanes b0 b1 b2 b3).extractLsb' 0 8 = b0 := BitVec.extractLsb'_append_eq_right
  have h1 : (wordOfLanes b0 b1 b2 b3).extractLsb' 8 8 = b1 := by
    rw [wordOfLanes, BitVec.extractLsb'_append_eq_of_le (by decide)]
    exact BitVec.extractLsb'_append_eq_right
  have h2 : (wordOfLanes b0 b1 b2 b3).extractLsb' 16 8 = b2 := by
    rw [wordOfLanes, BitVec.extractLsb'_append_eq_of_le (by decide), BitVec.extractLsb'_append_eq_of_le (by decide)]
    exact BitVec.extractLsb'_append_eq_right
  have h3 : (wordOfLanes b0 b1 b2 b3).extractLsb' 24 8 = b3 := by
    rw [wordOfLanes, BitVec.extractLsb'_append_eq_of_le (by decide), BitVec.extractLsb'_append_eq_of_le (by decide)]
    exact BitVec.extractLsb'_append_eq_left
  exact congrArg₂ List.cons h0 (congrArg₂ List.cons h1 (congrArg₂ List.cons h2 (congrArg₂ List.cons h3 rfl)))

theorem wordToLanes_byte (b : Byte) : wordToLanes 1 (b.setWidth 32) = [b] := by
  have h0 : (b.setWidth 32).extractLsb' 0 8 = b := by
    apply BitVec.eq_of_toNat_eq
    rw [BitVec.extractLsb'_toNat, BitVec.toNat_setWidth, Nat.shiftRight_zero, Nat.mod_mod_of_dvd _ (by decide),
      Nat.mod_eq_of_lt b.isLt]
  exact congrArg₂ List.cons h0 rfl

/-- One byte of WRBYTES' tail, and then the stores that follow it. -/
theorem storesIn_wr8_cons {k : Nat} {s : State} {more rest : List Event} {off : Nat} {b : Byte} {y : Bytes}
    (hcfg : s.cfg.ok) (hb : s.busy = false) (hlow : inBase ≤ off) (hhigh : off < inBase + s.cfg.ibufSize)
    (h : s.arrivals = wr8 s.cfg off (b.setWidth 32) :: more)
    (hmore : ∀ m, storesIn k { s with mem := m, arrivals := more } rest (off + 1) y) :
    storesIn (k + 1) s rest off (b :: y) :=
  storesIn_cons (w := .byte) (x := [b]) hcfg hb hlow hhigh (Nat.mod_one _) (wordToLanes_byte b) h hmore

/-- WRBYTES into IN stores its string (30_encoding.md R79). -/
theorem storesIn_wrBytes (b : Bytes) {s : State} {rest : List Event} {off : Nat} (hcfg : s.cfg.ok) (hb : s.busy = false)
    (halign : off % 4 = 0) (hlow : inBase ≤ off) (hhigh : off + b.length ≤ inBase + s.cfg.ibufSize)
    (h : s.arrivals = wrBytes s.cfg off b ++ rest) : storesIn (wrBytes s.cfg off b).length s rest off b := by
  induction off, b using wrBytes.induct generalizing s with
  | case1 off b0 b1 b2 b3 more ih =>
    simp only [List.length_cons] at hhigh
    exact storesIn_cons (w := .word) (x := [b0, b1, b2, b3]) hcfg hb hlow (by omega) halign (wordToLanes_wordOfLanes b0 b1 b2 b3) h
      (fun m => ih (s := { s with mem := m, arrivals := _ }) hcfg hb (by omega) (by omega) (by dsimp only; omega) rfl)
  | case2 off b0 b1 b2 =>
    simp only [List.length_cons, List.length_nil] at hhigh
    refine storesIn_wr8_cons hcfg hb hlow (by omega) h (fun m => ?_)
    refine storesIn_wr8_cons hcfg hb (by omega) (by dsimp only; omega) rfl (fun m => ?_)
    exact storesIn_wr8_cons hcfg hb (by omega) (by dsimp only; omega) rfl (fun m => storesIn_nil rfl _)
  | case3 off b0 b1 =>
    simp only [List.length_cons, List.length_nil] at hhigh
    refine storesIn_wr8_cons hcfg hb hlow (by omega) h (fun m => ?_)
    exact storesIn_wr8_cons hcfg hb (by omega) (by dsimp only; omega) rfl (fun m => storesIn_nil rfl _)
  | case4 off b0 =>
    simp only [List.length_cons, List.length_nil] at hhigh
    exact storesIn_wr8_cons hcfg hb hlow (by omega) h (fun m => storesIn_nil rfl _)
  | case5 off => exact storesIn_nil h off

/-- Settles O24: the run of WRBYTES, and then the write of INLEN. -/
theorem setInPlacesTheInput : Obligations.SetInPlacesTheInput := by
  intro s b rest hcfg hb hlen h
  rw [setIn, List.append_assoc] at h
  obtain ⟨m, hrun, hread⟩ := storesIn_wrBytes b hcfg hb rfl (le_refl inBase) (Nat.add_le_add_left hlen _) h
  have hlast := registerWritesStoreTheirFields
    { s with mem := m, arrivals := [wr32 s.cfg 0x008 (BitVec.ofNat 32 b.length)] ++ rest } rest 0x008 _ hb (by decide)
    (by decide) (by decide) rfl
  refine ⟨{ s with mem := m, inlen := BitVec.ofNat 32 b.length, arrivals := rest }, ?_, rfl, fun a => ?_⟩
  · rw [setIn, List.length_append]
    exact (run_add hrun).trans (run_cons hlast rfl)
  · rw [hread, read_write]
    rfl

/-! ## POLL -/

/-- A POLL that finds BUSY = 0 is one read of STATUS (30_encoding.md R78). -/
theorem step_poll_idle {s : State} {rest : List Event} (hb : s.busy = false) (h : s.arrivals = .poll :: rest) :
    step s = .next { s with arrivals := rest, replies := statusWord s :: s.replies } := by
  have hturn : step s = step { s with arrivals := readStatus s :: rest } := by
    simp only [step, nextTurn, h]
    rw [if_neg (by simp [hb])]
    rfl
  exact hturn.trans (step_read_value (s := { s with arrivals := readStatus s :: rest }) (off := 0x004) (by decide) (by decide)
    rfl (isFreeRead_of_idle hb _))

theorem step_poll_zero {s : State} {rest : List Event} (hstatus : statusWord s = 0x00000000) (hb : s.busy = false)
    (h : s.arrivals = .poll :: rest) : step s = .next { s with arrivals := rest, replies := 0x00000000 :: s.replies } :=
  (step_poll_idle hb h).trans (by rw [hstatus])

/-- A POLL that finds BUSY = 1 expands (30_encoding.md R78). -/
theorem step_poll_busy {s : State} {rest : List Event} (hb : s.busy = true) (h : s.arrivals = .poll :: rest) :
    step s = .next { s with arrivals := pollRounds s rest, freeCount := s.freeCount + 1 } := by
  simp only [step, nextTurn, h]
  rw [if_pos hb]
  rfl

/-- The engine's turn and the read that ends the poll: STATUS is that of the completed command. -/
theorem run_engine_poll {s : State} {rest : List Event} (hb : s.busy = true) (h : s.arrivals = .engine :: .poll :: rest) :
    ∃ t, core.run 2 s = .next { t with arrivals := rest, replies := statusWord t :: t.replies } ∧
      exec (decode s.cmd) { s with arrivals := .poll :: rest } = .next t := by
  obtain ⟨t, ht, hidle, -, -, harr, -⟩ := everyCommandCompletes (decode s.cmd) { s with arrivals := .poll :: rest }
  obtain ⟨hplaced, -⟩ := stepRunsTheLatchedCommand s hb
  exact ⟨t, run_two ((hplaced _ h).trans ht) (step_poll_idle hidle harr), ht⟩

/-- The state after a command word is accepted, with what is still to arrive (46_control.md R200). -/
def accepted (s : State) (w : Word) (l : List Event) : State := { s with cmd := w, busy := true, arrivals := l }

theorem step_accept {s : State} {w : Word} {l : List Event} (hb : s.busy = false)
    (h : s.arrivals = wr32 s.cfg 0x000 w :: l) : step s = .next (accepted s w l) :=
  (commandWriteIsAccepted s l w hb h).1

/-- STATUS of a block that has accepted a command reads as before but for BUSY. -/
theorem statusWord_accepted {s : State} (hb : s.busy = false) (w : Word) (l : List Event) :
    statusWord (accepted s w l) = statusWord s ||| 0x00000001 := by
  have hidle : statusWord s = statusWord { s with busy := false } := by rw [← hb]
  rw [hidle]
  exact statusWord_busy s w

/-- Reads of STATUS while a command runs: each returns the same value. -/
theorem run_status_reads {s : State} {l : List Event} (n : Nat)
    (h : s.arrivals = List.replicate n (readStatus s) ++ l) :
    core.run n s = .next { s with arrivals := l, replies := List.replicate n (statusWord s) ++ s.replies } := by
  have hreads := run_reads (s := s) (l := List.replicate n (0x004, .word)) (rest := l) (by rw [List.map_replicate]; exact h)
    (fun x hx => by
      obtain rfl := List.eq_of_mem_replicate hx
      exact ⟨by decide, by decide, Bool.eq_false_iff.2 (fun hf => by simpa using ((isFreeRead_iff _ _).1 hf).2)⟩)
  rw [List.length_replicate, List.map_replicate, List.reverse_replicate] at hreads
  exact hreads

/-- The rounds of a poll: `n` reads that find the command running, its completion, and the read that sees it. -/
theorem run_poll_rounds {s : State} {rest : List Event} (n : Nat) (hb : s.busy = true)
    (h : s.arrivals = List.replicate n (readStatus s) ++ .engine :: .poll :: rest) :
    ∃ t, core.run (n + 2) s = .next { t with arrivals := rest, replies := statusWord t :: t.replies } ∧
      exec (decode s.cmd)
        { s with arrivals := .poll :: rest, replies := List.replicate n (statusWord s) ++ s.replies } = .next t := by
  obtain ⟨t, hrun, hexec⟩ := run_engine_poll (rest := rest)
    (s := { s with arrivals := .engine :: .poll :: rest, replies := List.replicate n (statusWord s) ++ s.replies }) hb rfl
  exact ⟨t, (run_add (run_status_reads n h)).trans hrun, hexec⟩

/-- A command's write and the poll after it, whose rounds have `n` reads. -/
theorem run_command {s : State} {w : Word} {later rest : List Event} (n : Nat) (hb : s.busy = false)
    (h : s.arrivals = runWord s.cfg w ++ later)
    (hrounds : pollRounds (accepted s w (.poll :: later)) later
      = List.replicate n (readStatus s) ++ .engine :: .poll :: rest) :
    ∃ t, core.run (n + 4) s = .next { t with arrivals := rest, replies := statusWord t :: t.replies } ∧
      exec (decode w)
        { s with
          cmd := w, busy := true, arrivals := .poll :: rest, freeCount := s.freeCount + 1
          replies := List.replicate n (statusWord s ||| 0x00000001) ++ s.replies } = .next t := by
  have hpoll := step_poll_busy (s := accepted s w (.poll :: later)) rfl rfl
  rw [hrounds] at hpoll
  obtain ⟨t, hrun, hexec⟩ := run_poll_rounds n (rest := rest)
    (s := { accepted s w (List.replicate n (readStatus s) ++ .engine :: .poll :: rest) with freeCount := s.freeCount + 1 })
    rfl rfl
  rw [← statusWord_accepted hb w (.poll :: later)]
  exact ⟨t, run_cons (step_accept hb h) (run_cons hpoll hrun), hexec⟩

/-- A poll that a reset ends: one read of the running command's STATUS, the reset, and the read of zero after it. -/
theorem run_poll_reset {s : State} {rest : List Event} (hb : s.busy = true) (h : s.arrivals = .poll :: .reset :: rest) :
    core.run 4 s = .next
      { State.resetFor s.cfg with
        arrivals := rest, replies := 0x00000000 :: statusWord s :: s.replies, freeCount := s.freeCount + 1 } := by
  have hread := run_status_reads (l := .reset :: .poll :: rest) 1
    (s := { s with arrivals := pollRounds s (.reset :: rest), freeCount := s.freeCount + 1 }) rfl
  have hreset := step_reset (rest := .poll :: rest)
    (s := { s with
      arrivals := .reset :: .poll :: rest, replies := statusWord s :: s.replies, freeCount := s.freeCount + 1 }) rfl
  have hlast := step_poll_zero (rest := rest)
    (s := { State.resetFor s.cfg with
      arrivals := .poll :: rest, replies := statusWord s :: s.replies, freeCount := s.freeCount + 1 })
    (statusWord_eq_zero rfl rfl rfl rfl) rfl rfl
  exact run_cons (step_poll_busy hb h) ((run_add (n := 2) hread).trans (run_two hreset hlast))

/-- Settles O23: an idle poll; a command's write and its poll, with the engine's turn free, before the poll and after its
first read; and a poll that a reset ends. -/
theorem pollSeesTheCompletedCommand : Obligations.PollSeesTheCompletedCommand := by
  refine ⟨fun s rest hb h => ⟨step_poll_idle hb h, ?_⟩, ?free, ?before, ?after, fun s rest hb h => run_poll_reset hb h⟩
  · exact (statusFieldsReadTheirState s).1.trans (congrArg BitVec.ofBool hb)
  case free =>
    intro s w rest hb h hrest
    exact run_command _ hb h (pollRounds_free (fun r => (hrest r).1) (fun r => (hrest r).2))
  case before =>
    intro s w rest hb h
    obtain ⟨t, hrun, hexec⟩ := run_engine_poll (s := accepted s w (.engine :: .poll :: rest)) rfl rfl
    exact ⟨t, run_cons (step_accept hb h) hrun, hexec⟩
  case after =>
    intro s w rest hb h
    exact run_command 1 hb h rfl

end Sys2Proof.Machine
end

section
/-! The block primitive is a permutation for every key (40_primitive_and_key.md R91). -/

namespace Sys2Proof

/-! ## Rounds -/

namespace Aes

theorem invRound_round (s rk : Block) : invRound (round s rk) rk = s := by
  rw [invRound, round, bxor_bxor_cancel, invMixColumns_mixColumns, invShiftRows_shiftRows, invSubBytes_subBytes]

theorem round_invRound (s rk : Block) : round (invRound s rk) rk = s := by
  rw [round, invRound, subBytes_invSubBytes, shiftRows_invShiftRows, mixColumns_invMixColumns, bxor_bxor_cancel]

theorem invLastRound_lastRound (s rk : Block) : invLastRound (lastRound s rk) rk = s := by
  rw [invLastRound, lastRound, bxor_bxor_cancel, invShiftRows_shiftRows, invSubBytes_subBytes]

theorem lastRound_invLastRound (s rk : Block) : lastRound (invLastRound s rk) rk = s := by
  rw [lastRound, invLastRound, subBytes_invSubBytes, shiftRows_invShiftRows, bxor_bxor_cancel]

theorem decRounds_encRounds (s : Block) (rks : List Block) : decRounds (encRounds s rks) rks = s := by
  induction s, rks using encRounds.induct with
  | case1 s => rfl
  | case2 s rk => exact invLastRound_lastRound s rk
  | case3 s rk rks hne ih =>
    obtain _ | ⟨rk', rks⟩ := rks
    · exact absurd rfl hne
    · rw [encRounds, decRounds, ih, invRound_round] <;> simp

theorem encRounds_decRounds (s : Block) (rks : List Block) : encRounds (decRounds s rks) rks = s := by
  induction s, rks using decRounds.induct with
  | case1 s => rfl
  | case2 s rk => exact lastRound_invLastRound s rk
  | case3 s rk rks hne ih =>
    obtain _ | ⟨rk', rks⟩ := rks
    · exact absurd rfl hne
    · rw [decRounds, encRounds, round_invRound, ih] <;> simp

theorem invCipher_cipher (k : Bytes) (p : Block) : invCipher k (cipher k p) = p := by
  unfold invCipher cipher
  cases roundKeys k with
  | nil => rfl
  | cons rk rks => exact (congrArg (bxor · rk) (decRounds_encRounds _ rks)).trans (bxor_bxor_cancel p rk)

theorem cipher_invCipher (k : Bytes) (c : Block) : cipher k (invCipher k c) = c := by
  unfold invCipher cipher
  cases roundKeys k with
  | nil => rfl
  | cons rk rks => exact (congrArg (encRounds · rks) (bxor_bxor_cancel _ rk)).trans (encRounds_decRounds c rks)

end Aes

/-! ## The primitive -/

/-- FIPS-197 by its rounds, an uninterpreted primitive by its type. -/
theorem aesDec_aesEnc (prim : Primitive) (k : Bytes) (x : Block) : aesDec prim k (aesEnc prim k x) = x := by
  cases prim with
  | fips197 => exact Aes.invCipher_cipher k x
  | uninterpreted n => exact (Config.primitive n k).symm_apply_apply x

theorem aesEnc_aesDec (prim : Primitive) (k : Bytes) (x : Block) : aesEnc prim k (aesDec prim k x) = x := by
  cases prim with
  | fips197 => exact Aes.cipher_invCipher k x
  | uninterpreted n => exact (Config.primitive n k).apply_symm_apply x

/-- Settles O26: both laws, which need no length of the key. -/
theorem primitiveIsASymmetricInverse : Obligations.PrimitiveIsASymmetricInverse := fun prim k x _ =>
  ⟨aesDec_aesEnc prim k x, aesEnc_aesDec prim k x⟩

end Sys2Proof
end

section
/-! The session commands one at a time: what INIT and FIN leave, and the first error each command reports (41_mode_init.md,
42_mode_update.md and 43_mode_final.md; 60_exceptions.md R221, R230). -/

namespace Sys2Proof.Machine

open Sys2Proof Host

/-! ## Success completion -/

/-- A command that succeeds with an output that fits OUT (46_control.md R203). -/
theorem completed_success (s : State) (x : Session) (w : KeyWrapTemps) {out : Bytes} (hlen : out.length ≤ s.cfg.obufSize)
    (hfit : out.length < 2 ^ 32) : completed s (complete out { beginCommand s with sess := x, kw := w }) .ok out :=
  completed_complete s { beginCommand s with sess := x, kw := w } out rfl
    ⟨rfl, rfl, rfl, rfl, rfl, rfl, rfl, rfl, rfl⟩ hlen hfit

/-- OUT is never smaller than one block (00_scope.md R8). -/
theorem completed_success_of_le_block (s : State) (x : Session) (w : KeyWrapTemps) {out : Bytes} (hlen : out.length ≤ 16) :
    completed s (complete out { beginCommand s with sess := x, kw := w }) .ok out :=
  completed_success s x w (hlen.trans (Nat.le_add_left 16 _)) (by omega)

/-! ## INIT -/

/-- INIT with ECB in an Idle block with a valid key (41_mode_init.md R110, R111). -/
theorem initSession_ecb_binds (dir : Dir) {s : State} (hidle : s.sess.st = .idle) (hkey : s.keyOk) :
    ∃ t, runCommand .modeEngine (initSession dir .ecb) s = .next t ∧ completed s t .ok [] ∧ t.kw = s.kw ∧
      t.sess = { st := .ready, dir := dir, mode := .ecb, key := s.keyOf, cb := zeros 16, pend := [] } := by
  have h := run_initSession_ecb dir s
  rw [if_neg (not_not.2 hidle), if_neg (not_not.2 hkey)] at h
  exact ⟨_, h, completed_success_of_le_block s _ s.kw (Nat.zero_le 16), rfl, rfl⟩

/-- INIT with CBC in an Idle block with a valid key and a 16-byte IV. -/
theorem initSession_cbc_binds (dir : Dir) {s : State} (hidle : s.sess.st = .idle) (hkey : s.keyOk) (hiv : ivBytes s = 16) :
    ∃ t, runCommand .modeEngine (initSession dir .cbc) s = .next t ∧ completed s t .ok [] ∧ t.kw = s.kw ∧
      t.sess = { st := .ready, dir := dir, mode := .cbc, key := s.keyOf, cb := ivWindow s, pend := [] } := by
  have h := run_initSession_cbc dir s
  rw [if_neg (not_not.2 hidle), if_neg (not_not.2 hkey), if_neg (not_not.2 hiv)] at h
  exact ⟨_, h, completed_success_of_le_block s _ s.kw (Nat.zero_le 16), rfl, rfl⟩

/-- Settles O29: the two modes, each in both directions. -/
theorem initBindsKeyModeAndIv : Obligations.InitBindsKeyModeAndIv := fun _ hidle hkey =>
  ⟨initSession_ecb_binds .encrypt hidle hkey, initSession_ecb_binds .decrypt hidle hkey, fun hiv =>
    ⟨initSession_cbc_binds .encrypt hidle hkey hiv, initSession_cbc_binds .decrypt hidle hkey hiv⟩⟩

/-- An error that finds no Ready session of its class leaves session and temporaries alone. -/
theorem initBadMode_fails {s : State} (hidle : s.sess.st = .idle) :
    ∃ t, runCommand .modeEngine initBadMode s = .next t ∧ completed s t .invalidMode [] ∧ t.sess = s.sess ∧ t.kw = s.kw := by
  have h := run_initBadMode s
  rw [if_neg (not_not.2 hidle)] at h
  exact ⟨_, h, completed_failCommand .modeEngine .invalidMode s, failCommand_sess_of_ne_ready _ _ (by simp [hidle]),
    failCommand_kw _ _ s⟩

/-- Settles O30: both commands have the one body of the bad selectors. -/
theorem initWithBadSelectorReportsInvalidMode : Obligations.InitWithBadSelectorReportsInvalidMode := fun _ _ hidle =>
  ⟨initBadMode_fails hidle, initBadMode_fails hidle⟩

theorem initSession_ecb_err {dir : Dir} {s t : State} (h : runCommand .modeEngine (initSession dir .ecb) s = .next t) :
    t.err = if s.sess.st ≠ .idle then .invalidState else if ¬ s.keyOk then .invalidKeyLength else .ok := by
  obtain rfl := Outcome.next.inj ((run_initSession_ecb dir s).symm.trans h)
  split_ifs <;> rfl

theorem initSession_cbc_err {dir : Dir} {s t : State} (h : runCommand .modeEngine (initSession dir .cbc) s = .next t) :
    t.err = if s.sess.st ≠ .idle then .invalidState else if ¬ s.keyOk then .invalidKeyLength
      else if ivBytes s ≠ 16 then .invalidIVLength else .ok := by
  obtain rfl := Outcome.next.inj ((run_initSession_cbc dir s).symm.trans h)
  split_ifs <;> rfl

theorem initBadMode_err {s t : State} (h : runCommand .modeEngine initBadMode s = .next t) :
    t.err = if s.sess.st ≠ .idle then .invalidState else .invalidMode := by
  obtain rfl := Outcome.next.inj ((run_initBadMode s).symm.trans h)
  split_ifs <;> rfl

/-- Settles O31: the chain of checks of each body. -/
theorem initReportsItsFirstError : Obligations.InitReportsItsFirstError := by
  refine fun s t i h => ⟨?ecb, ?cbc, ?bad⟩
  case ecb => rintro (rfl | rfl) <;> exact initSession_ecb_err h
  case cbc => rintro (rfl | rfl) <;> exact initSession_cbc_err h
  case bad => rintro alg (rfl | rfl) <;> exact initBadMode_err h

/-! ## Updates -/

theorem updateBody_err {dir : Dir} {stream : Primitive → Session → Bytes → Bytes × Session} {s t : State}
    (h : runCommand .modeEngine (updateBody dir stream) s = .next t) :
    t.err = if ¬ s.inSession dir then .invalidState else if ¬ s.inputFits then .inputTooLong else .ok := by
  obtain rfl := Outcome.next.inj ((run_updateBody dir stream s).symm.trans h)
  split_ifs <;> rfl

/-- Settles O36: the chain of checks both updates share. -/
theorem updateReportsItsFirstError : Obligations.UpdateReportsItsFirstError := fun _ _ =>
  ⟨fun h => updateBody_err h, fun h => updateBody_err h⟩

/-! ## FIN -/

theorem exec_encfin_of_inSession {s : State} (hs : s.inSession .encrypt) :
    exec .encfin s = .next (complete (encBlock s.cfg.prim s.sess (pad s.sess.pend)).1.1 (endSession (beginCommand s))) :=
  (run_encFinalBody s).trans (by rw [if_neg (not_not.2 hs)])

/-- Settles O37: the success completion, with the block of each mode. -/
theorem encfinPadsAndEndsTheSession : Obligations.EncfinPadsAndEndsTheSession := by
  intro s hs hpend
  refine ⟨_, _, exec_encfin_of_inSession hs, completed_success_of_le_block s _ s.kw (encBlock _ _ (pad _)).1.2.le, rfl, rfl,
    pad s.sess.pend, pad_val hpend, fun hmode => ?_, fun hmode => ?_⟩
  · rw [encBlock, hmode]
  · rw [encBlock, hmode]

/-- A withheld block with good padding (43_mode_final.md R141). -/
theorem exec_decfin_of_unpad_ok {s : State} {out : Bytes} (hs : s.inSession .decrypt) (hpend : s.sess.pend.length = 16)
    (hunpad : unpad (lastPlain s) = .ok out) :
    exec .decfin s = .next (complete out (endSession (beginCommand s))) :=
  (run_decFinalBody s).trans (by rw [if_neg (not_not.2 hs), if_neg (by omega), if_neg (by omega), hunpad])

/-- A withheld block without (43_mode_final.md R141). -/
theorem exec_decfin_of_unpad_error {s : State} {e : ErrCode} (hs : s.inSession .decrypt) (hpend : s.sess.pend.length = 16)
    (hunpad : unpad (lastPlain s) = .error e) : exec .decfin s = .next (failCommand .modeEngine e s) :=
  (run_decFinalBody s).trans (by rw [if_neg (not_not.2 hs), if_neg (by omega), if_neg (by omega), hunpad])

/-- Settles O38: the two outcomes of the padding check. -/
theorem decfinStripsPaddingAndEndsTheSession : Obligations.DecfinStripsPaddingAndEndsTheSession := by
  intro s c x hs hpend hx
  have hlast : lastPlain s = x := by
    rw [lastPlain, hpend, fitBytes_self, hx, decBlock]
    cases s.sess.mode <;> rfl
  have hlen : s.sess.pend.length = 16 := by rw [hpend, c.2]
  cases hunpad : unpad x with
  | ok out =>
    obtain ⟨hout, hpadded⟩ := (unpad_eq_ok_iff_padded x out).1 hunpad
    refine ⟨_, exec_decfin_of_unpad_ok hs hlen (hlast ▸ hunpad), rfl, rfl, fun b hb hxb => ?_,
      fun hno => absurd ⟨out, hout, hpadded⟩ hno⟩
    obtain rfl := Except.ok.inj (hunpad.symm.trans ((unpad_eq_ok_iff_padded x b).2 ⟨hb, hxb⟩))
    exact completed_success_of_le_block s _ s.kw (by omega)
  | error e =>
    obtain rfl := unpad_error hunpad
    refine ⟨_, exec_decfin_of_unpad_error hs hlen (hlast ▸ hunpad), failCommand_sess_of_ready _ hs.1, failCommand_kw _ _ s,
      fun b hb hxb => ?_, fun _ => completed_failCommand _ _ s⟩
    cases hunpad.symm.trans ((unpad_eq_ok_iff_padded x b).2 ⟨hb, hxb⟩)

/-- Settles O39: the chains of checks of both final commands. -/
theorem finalReportsItsFirstError : Obligations.FinalReportsItsFirstError := by
  refine fun s t => ⟨fun h => ?enc, fun h => ?dec⟩
  case enc =>
    obtain rfl := Outcome.next.inj ((run_encFinalBody s).symm.trans h)
    split_ifs <;> rfl
  case dec =>
    obtain rfl := Outcome.next.inj ((run_decFinalBody s).symm.trans h)
    refine ⟨fun hno => ?_, fun hs hlen => ?_, fun hs hpend => ?_, fun hs hlen hpend => ?_⟩
    · rw [if_pos hno]
      rfl
    · rw [if_neg (not_not.2 hs), if_pos hlen]
      exact ⟨completed_failCommand _ _ s, failCommand_sess_of_ready _ hs.1⟩
    · rw [if_neg (not_not.2 hs), if_neg (by simp [hpend]), if_pos (by simp [hpend])]
      exact ⟨completed_failCommand _ _ s, failCommand_sess_of_ready _ hs.1⟩
    · rw [if_neg (not_not.2 hs), if_neg (not_not.2 hlen), if_neg (by simpa using hpend)]
      cases hunpad : unpad (lastPlain s) with
      | ok out => exact .inl rfl
      | error e => exact .inr (unpad_error hunpad)

/-! ## What UPD and FIN do not read -/

/-- Two states show the same end of a command: session, ERR and output. -/
def endAlike (t t' : State) : Prop := t'.sess = t.sess ∧ t'.err = t.err ∧ t'.outlen = t.outlen ∧ outBytes t' = outBytes t

/-- Two checks that agree, with ends that are alike either way. -/
theorem endAlike_ite {c c' : Prop} [Decidable c] [Decidable c'] {x y x' y' : State} (hc : c ↔ c') (hx : endAlike x x')
    (hy : endAlike y y') : endAlike (if c then x else y) (if c' then x' else y') := by
  by_cases h : c
  · rwa [if_pos h, if_pos (hc.1 h)]
  · rwa [if_neg h, if_neg (fun h' => h (hc.2 h'))]

theorem endAlike_failCommand {s s' : State} (hsess : s'.sess = s.sess) (cls : CmdClass) (e : ErrCode) :
    endAlike (failCommand cls e s) (failCommand cls e s') := by
  have houtlen := (failCommand_outlen cls e s').trans (failCommand_outlen cls e s).symm
  refine ⟨by rw [failCommand_sess, failCommand_sess, hsess], rfl, houtlen, ?_⟩
  rw [outBytes, outBytes, failCommand_outlen, failCommand_outlen]
  rfl

/-- An output overwrites whatever OUT held under it. -/
theorem endAlike_complete {t t' : State} (hsess : t'.sess = t.sess) (out : Bytes) :
    endAlike (complete out t) (complete out t') := by
  refine ⟨hsess, rfl, rfl, readRange_congr _ _ _ _ (fun k hk => ?_)⟩
  have hlt : k < out.length := lt_of_lt_of_le hk (by rw [complete_outlen, BitVec.toNat_ofNat]; exact Nat.mod_le _ _)
  rw [complete_mem, complete_mem, read_write, read_write, if_pos (by omega), if_pos (by omega)]

/-- A command sees of the windows from IN on what they hold below and beyond OUT. -/
theorem seenInput_congr {s s' : State} (hcfg : s'.cfg = s.cfg) (hinlen : s'.inlen = s.inlen)
    (hmem : ∀ a, inBase ≤ a → Memory.read s'.mem a = Memory.read s.mem a) : seenInput s' = seenInput s := by
  rw [seenInput, seenInput, hinlen]
  refine readRange_congr _ _ _ _ (fun k hk => ?_)
  rw [beginCommand_mem, beginCommand_mem, read_erase, read_erase, hcfg, hmem _ (Nat.le_add_right _ _)]

/-- DECFIN reads the session and the primitive only. -/
theorem exec_decfin_endAlike {s s' : State} (hsess : s'.sess = s.sess) (hcfg : s'.cfg = s.cfg) :
    ∃ t t', exec .decfin s = .next t ∧ exec .decfin s' = .next t' ∧ endAlike t t' := by
  have hfail := fun e => endAlike_failCommand hsess .modeEngine e
  have hlast : lastPlain s' = lastPlain s := by rw [lastPlain, lastPlain, hsess, hcfg]
  refine ⟨_, _, run_decFinalBody s, run_decFinalBody s', ?_⟩
  rw [hlast]
  refine endAlike_ite (by rw [State.inSession, State.inSession, hsess]) (hfail _)
    (endAlike_ite (by rw [hsess]) (hfail _) (endAlike_ite (by rw [hsess]) (hfail _) ?_))
  cases unpad (lastPlain s) with
  | ok out => exact endAlike_complete (by rfl) out
  | error e => exact hfail e

/-- Settles O33: the four bodies, check by check. -/
theorem sessionIgnoresLaterKeyAndIvWrites : Obligations.SessionIgnoresLaterKeyAndIvWrites := by
  intro s keycfg ivcfg mem i hi _ hmem
  have hin : seenInput { s with keycfg := keycfg, ivcfg := ivcfg, mem := mem } = seenInput s :=
    seenInput_congr rfl rfl hmem
  have hfail := fun e => endAlike_failCommand (s := s) (s' := { s with keycfg := keycfg, ivcfg := ivcfg, mem := mem }) rfl
    .modeEngine e
  have hupd := fun d f => run_updateBody d f { s with keycfg := keycfg, ivcfg := ivcfg, mem := mem }
  simp only [hin] at hupd
  obtain rfl | rfl | rfl | rfl := hi
  · refine ⟨_, _, run_updateBody _ _ s, hupd _ _, endAlike_ite .rfl (hfail _) (endAlike_ite .rfl (hfail _) ?_)⟩
    exact endAlike_complete (by rfl) _
  · refine ⟨_, _, run_updateBody _ _ s, hupd _ _, endAlike_ite .rfl (hfail _) (endAlike_ite .rfl (hfail _) ?_)⟩
    exact endAlike_complete (by rfl) _
  · refine ⟨_, _, run_encFinalBody s, run_encFinalBody _, endAlike_ite .rfl (hfail _) ?_⟩
    exact endAlike_complete (by rfl) _
  · exact exec_decfin_endAlike rfl rfl

/-! ## Key wrap with a bad selector -/

/-- Settles O52: a body that fails at once, in the key-wrap class. -/
theorem keyWrapWithBadSelectorReportsInvalidMode : Obligations.KeyWrapWithBadSelectorReportsInvalidMode := by
  have fails : ∀ s, ∃ t, runCommand .keyWrap (raiseBody .invalidMode) s = .next t ∧ completed s t .invalidMode [] ∧
      t.sess = s.sess ∧ t.kw = KeyWrapTemps.zero := fun s =>
    ⟨_, run_raiseBody .keyWrap .invalidMode s, completed_failCommand _ _ s, failCommand_sess _ _ s, failCommand_kw _ _ s⟩
  exact fun s _ => ⟨fails s, fails s⟩

end Sys2Proof.Machine
end

section
/-! The updates: every block of their output, the session they leave, and the completion (42_mode_update.md R120 to R122;
40_primitive_and_key.md R94, R95). -/

namespace Sys2Proof.Machine

open Sys2Proof Host

/-! ## Blocks of a stream -/

/-- The session a stream's loop is in before block `k`. -/
def sessionBefore (f : Session → Block → Block × Session) (x : Session) (buf : Bytes) (k : Nat) : Session :=
  (overBlocks f x (pieces 16 k buf)).2

@[simp] theorem sessionBefore_zero (f : Session → Block → Block × Session) (x : Session) (buf : Bytes) :
    sessionBefore f x buf 0 = x := rfl

theorem pieces_succ_last (k : Nat) (buf : Bytes) : pieces 16 (k + 1) buf = pieces 16 k buf ++ [blockAt buf k] :=
  pieces_add 16 k 1 buf

theorem sessionBefore_succ (f : Session → Block → Block × Session) (x : Session) (buf : Bytes) (k : Nat) :
    sessionBefore f x buf (k + 1) = (f (sessionBefore f x buf k) (blockAt buf k)).2 := by
  rw [sessionBefore, pieces_succ_last, overBlocks_append]
  rfl

/-- Block `k` of a loop's output. -/
theorem blockAt_overBlocks (f : Session → Block → Block × Session) (x : Session) (buf : Bytes) {n k : Nat} (hk : k < n) :
    blockAt (overBlocks f x (pieces 16 n buf)).1 k = (f (sessionBefore f x buf k) (blockAt buf k)).1 := by
  obtain ⟨m, rfl⟩ := Nat.exists_eq_add_of_lt hk
  have hlen : (overBlocks f x (pieces 16 k buf)).1.length = 16 * k := by rw [overBlocks_length, pieces_length]
  rw [Nat.add_assoc, Nat.add_comm m, pieces_add, overBlocks_append, blockAt, List.drop_left' hlen, pieces_add]
  exact fitBytes_append _ _

/-- A step that keeps the session where the mode is ECB. -/
theorem sessionBefore_ecb {f : Session → Block → Block × Session} (hf : blockStepFrame f) {x : Session}
    (hmode : x.mode = .ecb) (buf : Bytes) (k : Nat) : sessionBefore f x buf k = x :=
  (overBlocks_frame hf x (pieces 16 k buf)).2 hmode

/-- The chaining block of CBC after block `k` is `chain`'s choice of that block's output and input. -/
theorem sessionBefore_cbc {f : Session → Block → Block × Session} (hf : blockStepFrame f) {chain : Block → Block → Block}
    (hchain : ∀ y b, y.mode = .cbc → (f y b).2.cb = chain (f y b).1 b) {x : Session} (hmode : x.mode = .cbc) (buf : Bytes)
    {n k : Nat} (hk : k ≤ n) :
    sessionBefore f x buf k =
      { x with
        cb := if k = 0 then x.cb
          else chain (blockAt (overBlocks f x (pieces 16 n buf)).1 (k - 1)) (blockAt buf (k - 1)) } := by
  cases k with
  | zero => rfl
  | succ k =>
    have hframe : ∀ j, sessionBefore f x buf j = { x with cb := (sessionBefore f x buf j).cb } := fun j =>
      (overBlocks_frame hf x (pieces 16 j buf)).1
    have hmode' : (sessionBefore f x buf k).mode = .cbc := by rw [hframe k]; exact hmode
    rw [hframe (k + 1), sessionBefore_succ, hchain _ _ hmode', if_neg (Nat.succ_ne_zero k), Nat.add_sub_cancel,
      blockAt_overBlocks f x buf hk]

theorem streamOver_snd (f : Session → Block → Block × Session) (n : Nat) (x : Session) (buf : Bytes) :
    (streamOver f n x buf).2 = { sessionBefore f x buf n with pend := buf.drop (16 * n) } := rfl

/-! ## The single-block steps -/

theorem encBlock_ecb (prim : Primitive) {x : Session} (h : x.mode = .ecb) (b : Block) :
    (encBlock prim x b).1 = aesEnc prim x.key b := by
  rw [encBlock, h]

theorem encBlock_cbc (prim : Primitive) {x : Session} (h : x.mode = .cbc) (b : Block) :
    (encBlock prim x b).1 = aesEnc prim x.key (bxor b x.cb) := by
  rw [encBlock, h]

theorem decBlock_ecb (prim : Primitive) {x : Session} (h : x.mode = .ecb) (b : Block) :
    (decBlock prim x b).1 = aesDec prim x.key b := by
  rw [decBlock, h]

theorem decBlock_cbc (prim : Primitive) {x : Session} (h : x.mode = .cbc) (b : Block) :
    (decBlock prim x b).1 = bxor (aesDec prim x.key b) x.cb := by
  rw [decBlock, h]

theorem encBlock_cbc_with (prim : Primitive) {x : Session} (h : x.mode = .cbc) (cb b : Block) :
    (encBlock prim { x with cb := cb } b).1 = aesEnc prim x.key (bxor b cb) := encBlock_cbc prim (x := { x with cb := cb }) h b

theorem decBlock_cbc_with (prim : Primitive) {x : Session} (h : x.mode = .cbc) (cb b : Block) :
    (decBlock prim { x with cb := cb } b).1 = bxor (aesDec prim x.key b) cb := decBlock_cbc prim (x := { x with cb := cb }) h b

/-- Encryption chains with its output. -/
theorem encBlock_cb (prim : Primitive) (x : Session) (b : Block) (h : x.mode = .cbc) :
    (encBlock prim x b).2.cb = (encBlock prim x b).1 := by
  rw [encBlock, h]

/-- Decryption chains with its input. -/
theorem decBlock_cb (prim : Primitive) (x : Session) (b : Block) (h : x.mode = .cbc) : (decBlock prim x b).2.cb = b := by
  rw [decBlock, h]

/-! ## The commands -/

/-- An update of a Ready session whose input fits completes with its stream's output (42_mode_update.md R120, R121). -/
theorem exec_update {dir : Dir} {stream : Primitive → Session → Bytes → Bytes × Session} {s : State} (hcfg : s.cfg.ok)
    (hs : s.inSession dir) (hfits : s.inputFits)
    (hlen : (stream s.cfg.prim s.sess s.inputOf).1.length ≤ s.cfg.obufSize) :
    ∃ t, runCommand .modeEngine (updateBody dir stream) s = .next t ∧
      completed s t .ok (stream s.cfg.prim s.sess s.inputOf).1 ∧ t.kw = s.kw ∧
      t.sess = (stream s.cfg.prim s.sess s.inputOf).2 := by
  have hrun := run_updateBody dir stream s
  obtain ⟨-, -, -, hmax⟩ := hcfg
  rw [if_neg (not_not.2 hs), if_neg (not_not.2 hfits), seenInput_eq s (by omega) hfits] at hrun
  refine ⟨_, hrun, completed_success s _ s.kw hlen ?_, rfl, rfl⟩
  simp only [Params.obufSize] at hlen
  omega

/-- What ENCUPD releases fits OUT, because IBUF_SIZE is a multiple of 16 (46_control.md R203). -/
theorem encStream_fits {s : State} (hinv : s.Inv) (hs : s.inSession .encrypt) (hfits : s.inputFits) :
    (encStream s.cfg.prim s.sess s.inputOf).1.length ≤ s.cfg.obufSize := by
  obtain ⟨⟨-, hmod, -⟩, -, -, ⟨-, -, hpend, -⟩, -⟩ := hinv
  exact (encStream_length_le _ _ _ _ (hpend hs.1 hs.2) hmod ((inputOf_length s).trans_le hfits)).trans
    (Nat.le_add_right _ _)

/-- What DECUPD releases fits OUT, which has room for the block withheld before (46_control.md R203). -/
theorem decStream_fits {s : State} (hinv : s.Inv) (hs : s.inSession .decrypt) (hfits : s.inputFits) :
    (decStream s.cfg.prim s.sess s.inputOf).1.length ≤ s.cfg.obufSize := by
  obtain ⟨-, -, -, ⟨-, -, -, hpend, -⟩, -⟩ := hinv
  exact decStream_length_le _ _ _ _ (hpend hs.1 hs.2).1 ((inputOf_length s).trans_le hfits)

theorem exec_encupd {s : State} (hinv : s.Inv) (hs : s.inSession .encrypt) (hfits : s.inputFits) :
    ∃ t, exec .encupd s = .next t ∧ completed s t .ok (encStream s.cfg.prim s.sess s.inputOf).1 ∧ t.kw = s.kw ∧
      t.sess = (encStream s.cfg.prim s.sess s.inputOf).2 :=
  exec_update hinv.1 hs hfits (encStream_fits hinv hs hfits)

theorem exec_decupd {s : State} (hinv : s.Inv) (hs : s.inSession .decrypt) (hfits : s.inputFits) :
    ∃ t, exec .decupd s = .next t ∧ completed s t .ok (decStream s.cfg.prim s.sess s.inputOf).1 ∧ t.kw = s.kw ∧
      t.sess = (decStream s.cfg.prim s.sess s.inputOf).2 :=
  exec_update hinv.1 hs hfits (decStream_fits hinv hs hfits)

/-- Settles O34: the stream's completion, its blocks in each mode, and its session. -/
theorem encupdEncryptsEveryCompleteBlock : Obligations.EncupdEncryptsEveryCompleteBlock := by
  intro s hinv hs hfits buf n
  obtain ⟨t, hexec, hdone, hkw, hsess⟩ := exec_encupd hinv hs hfits
  refine ⟨t, _, hexec, hdone, hkw, streamOver_length _ n s.sess buf, fun hmode => ⟨fun k hk => ?_, ?_⟩,
    fun hmode => ⟨fun k hk => ?_, ?_⟩⟩
  · rw [encStream_eq, streamOver, blockAt_overBlocks _ _ _ hk, sessionBefore_ecb (encBlock_frame _) hmode,
      encBlock_ecb _ hmode]
  · rw [hsess, encStream_eq, streamOver_snd, sessionBefore_ecb (encBlock_frame _) hmode]
  · have hbefore := sessionBefore_cbc (encBlock_frame s.cfg.prim) (chain := fun o _ => o) (encBlock_cb s.cfg.prim) hmode buf
      hk.le
    rw [encStream_eq, streamOver, blockAt_overBlocks _ _ _ hk, hbefore]
    exact encBlock_cbc_with _ hmode _ _
  · have hbefore := sessionBefore_cbc (encBlock_frame s.cfg.prim) (chain := fun o _ => o) (encBlock_cb s.cfg.prim) hmode buf
      (le_refl n)
    rw [hsess, encStream_eq, streamOver_snd, hbefore]
    rfl

/-- Settles O35: the stream's completion, its blocks in each mode, and its session. -/
theorem decupdWithholdsTheLastCompleteBlock : Obligations.DecupdWithholdsTheLastCompleteBlock := by
  intro s hinv hs hfits buf n
  obtain ⟨t, hexec, hdone, hkw, hsess⟩ := exec_decupd hinv hs hfits
  refine ⟨t, _, hexec, hdone, hkw, streamOver_length _ n s.sess buf, fun hmode => ⟨fun k hk => ?_, ?_⟩,
    fun hmode => ⟨fun k hk => ?_, ?_⟩⟩
  · rw [decStream_eq, streamOver, blockAt_overBlocks _ _ _ hk, sessionBefore_ecb (decBlock_frame _) hmode,
      decBlock_ecb _ hmode]
  · rw [hsess, decStream_eq, streamOver_snd, sessionBefore_ecb (decBlock_frame _) hmode]
  · have hbefore := sessionBefore_cbc (decBlock_frame s.cfg.prim) (chain := fun _ b => b) (decBlock_cb s.cfg.prim) hmode buf
      hk.le
    rw [decStream_eq, streamOver, blockAt_overBlocks _ _ _ hk, hbefore]
    exact decBlock_cbc_with _ hmode _ _
  · have hbefore := sessionBefore_cbc (decBlock_frame s.cfg.prim) (chain := fun _ b => b) (decBlock_cb s.cfg.prim) hmode buf
      (le_refl n)
    rw [hsess, decStream_eq, streamOver_snd, hbefore]

end Sys2Proof.Machine
end

section
/-! Streams of commands: a session's output does not depend on how its input is cut, and decryption inverts encryption
(42_mode_update.md R123, R124; 43_mode_final.md R143). -/

namespace Sys2Proof.Machine

open Sys2Proof Host

/-! ## Placing an input -/

theorem withInput_inv {s : State} (hinv : s.Inv) {b : Bytes} (hb : b.length ≤ s.cfg.ibufSize) : (s.withInput b).Inv := by
  obtain ⟨hcfg, ⟨hwf, hin, hout⟩, hrest⟩ := hinv
  have hstored : ∀ c : Cell, inBase ≤ c.1 → c.1 < inBase + b.length → c.1 < outBase ∧ regionOf s.cfg c.1 = .input := by
    intro c hge hlt
    have hreg := regionOf_in hcfg hge (by omega)
    exact ⟨lt_outBase_of_writable hcfg (by rw [hreg]; rfl), hreg⟩
  refine ⟨hcfg, ⟨write_wf _ _ _ hwf, fun c hc => ?_, fun c hc hge => ?_⟩, hrest⟩
  · obtain ⟨hge, hlt, -⟩ | ⟨hold, -⟩ := mem_write _ _ _ c hc
    · refine ⟨le_trans (by decide) hge, ?_⟩
      rw [withInput_cfg, (hstored c hge hlt).2]
      decide
    · exact hin c hold
  · obtain ⟨hge', hlt, -⟩ | ⟨hold, -⟩ := mem_write _ _ _ c hc
    · exact absurd (hstored c hge' hlt).1 (not_lt.2 hge)
    · exact hout c hold hge

theorem withInput_inlen_toNat {s : State} (hcfg : s.cfg.ok) {b : Bytes} (hb : b.length ≤ s.cfg.ibufSize) :
    (s.withInput b).inlen.toNat = b.length := by
  obtain ⟨-, -, -, hmax⟩ := hcfg
  rw [withInput_inlen, BitVec.toNat_ofNat]
  omega

theorem withInput_inputOf {s : State} (hcfg : s.cfg.ok) {b : Bytes} (hb : b.length ≤ s.cfg.ibufSize) :
    (s.withInput b).inputOf = b := by
  rw [State.inputOf, withInput_inlen_toNat hcfg hb]
  exact readRange_write s.mem inBase b

/-! ## Feeding chunks -/

/-- What one update command does with its stream, whatever its direction. -/
structure UpdateLaws (i : Instr) (d : Dir) (stream : Primitive → Session → Bytes → Bytes × Session) : Prop where
  exec_next : ∀ s : State, s.Inv → s.inSession d → s.inputFits →
    ∃ t, exec i s = .next t ∧ completed s t .ok (stream s.cfg.prim s.sess s.inputOf).1 ∧ t.kw = s.kw ∧
      t.sess = (stream s.cfg.prim s.sess s.inputOf).2
  output_fits : ∀ s : State, s.Inv → s.inSession d → s.inputFits →
    (stream s.cfg.prim s.sess s.inputOf).1.length ≤ s.cfg.obufSize
  stays : ∀ prim x b, (stream prim x b).2.st = x.st ∧ (stream prim x b).2.dir = x.dir
  nil : ∀ prim x, x.inv → x.st = .ready → x.dir = d → stream prim x [] = ([], x)
  append : ∀ prim x a b, stream prim x (a ++ b)
    = ((stream prim x a).1 ++ (stream prim (stream prim x a).2 b).1, (stream prim (stream prim x a).2 b).2)

/-- Feeding chunks to an update is one stream over the joined input (42_mode_update.md R123). -/
theorem feed_eq {i : Instr} {d : Dir} {stream : Primitive → Session → Bytes → Bytes × Session} (laws : UpdateLaws i d stream)
    {s : State} {xs : List Bytes} (hinv : s.Inv) (hs : s.inSession d) (hfit : chunksFit s xs) :
    ∃ t, feed i s xs = some (t, (stream s.cfg.prim s.sess xs.flatten).1) ∧
      t.sess = (stream s.cfg.prim s.sess xs.flatten).2 ∧ t.Inv ∧ t.cfg = s.cfg := by
  induction xs generalizing s with
  | nil =>
    have ⟨_, _, _, hsess, _⟩ := hinv
    rw [List.flatten_nil, laws.nil _ _ hsess hs.1 hs.2]
    exact ⟨s, rfl, rfl, hinv, rfl⟩
  | cons c cs ih =>
    have hc : c.length ≤ s.cfg.ibufSize := hfit c List.mem_cons_self
    have hcfg : s.cfg.ok := hinv.1
    have hinv' := withInput_inv hinv hc
    have hfits : (s.withInput c).inputFits := (withInput_inlen_toNat hcfg hc).trans_le hc
    obtain ⟨t, hexec, hdone, -, hsess⟩ := laws.exec_next _ hinv' hs hfits
    have hout := outBytes_of_completed hdone (laws.output_fits _ hinv' hs hfits)
    obtain ⟨herr, -, -, ⟨hcfg', -⟩, -⟩ := hdone
    rw [withInput_inputOf hcfg hc] at hsess hout
    have hst := laws.stays s.cfg.prim s.sess c
    obtain ⟨u, hfeed, husess, huinv, hucfg⟩ := ih (exec_keeps_inv hinv' hexec)
      (by rw [State.inSession, hsess]; exact ⟨hst.1.trans hs.1, hst.2.trans hs.2⟩)
      (fun b hb => by rw [hcfg']; exact hfit b (List.mem_cons_of_mem c hb))
    rw [hcfg', withInput_cfg, hsess] at hfeed husess
    refine ⟨u, ?_, ?_, huinv, hucfg.trans hcfg'⟩
    · simp only [feed, hexec, herr, if_true, hfeed, Option.map_some, hout, List.flatten_cons, laws.append]
      rfl
    · rw [husess, List.flatten_cons, laws.append]
      rfl

theorem streamOver_zero (f : Session → Block → Block × Session) (x : Session) : streamOver f 0 x (x.pend ++ []) = ([], x) := by
  simp [streamOver, pieces, overBlocks]

theorem streamOver_stays {f : Session → Block → Block × Session} (hf : blockStepFrame f) (n : Nat) (x : Session)
    (buf : Bytes) : (streamOver f n x buf).2.st = x.st ∧ (streamOver f n x buf).2.dir = x.dir := by
  rw [(streamOver_frame hf n x buf).1]
  exact ⟨rfl, rfl⟩

theorem encupdLaws : UpdateLaws .encupd .encrypt encStream where
  exec_next _ := exec_encupd
  output_fits _ := encStream_fits
  stays prim x b := streamOver_stays (encBlock_frame prim) _ x _
  nil prim x hx hst hdir := by
    obtain ⟨-, -, hpend, -⟩ := hx
    have hzero : (x.pend ++ []).length / 16 = 0 := by
      rw [List.append_nil]
      exact Nat.div_eq_of_lt (Nat.lt_succ_of_le (hpend hst hdir))
    rw [encStream_eq, hzero, streamOver_zero]
  append := encStream_append

theorem decupdLaws : UpdateLaws .decupd .decrypt decStream where
  exec_next _ := exec_decupd
  output_fits _ := decStream_fits
  stays prim x b := streamOver_stays (decBlock_frame prim) _ x _
  nil prim x hx hst hdir := by
    obtain ⟨-, -, -, hpend, -⟩ := hx
    have hzero : (x.pend ++ []).length / 16 - 1 = 0 := by
      rw [List.append_nil]
      exact Nat.sub_eq_zero_of_le (hpend hst hdir).2
    rw [decStream_eq, hzero, streamOver_zero]
  append := decStream_append

/-! ## Whole sessions -/

/-- The bytes an encryption session puts out for an input (42_mode_update.md R120, 43_mode_final.md R140). -/
def encryptAll (prim : Primitive) (x : Session) (m : Bytes) : Bytes :=
  (encStream prim x m).1 ++ (encBlock prim (encStream prim x m).2 (pad (encStream prim x m).2.pend)).1.1

theorem inSession_of_update {i : Instr} {d : Dir} {stream : Primitive → Session → Bytes → Bytes × Session}
    (laws : UpdateLaws i d stream) {s t : State} {prim : Primitive} {m : Bytes} (hs : s.inSession d)
    (ht : t.sess = (stream prim s.sess m).2) : t.inSession d := by
  obtain ⟨hst, hdir⟩ := laws.stays prim s.sess m
  rw [State.inSession, ht]
  exact ⟨hst.trans hs.1, hdir.trans hs.2⟩

theorem runSession_eq {upd fin : Instr} {s t u : State} {xs : List Bytes} {out : Bytes}
    (hfeed : feed upd s xs = some (t, out)) (hexec : exec fin t = .next u) (herr : u.err = .ok) :
    runSession upd fin s xs = some (u, out ++ outBytes u) := by
  simp only [runSession, hfeed, hexec, herr, if_true]

/-- A FIN's success, with an output of at most one block. -/
theorem outBytes_endSession (s : State) {out : Bytes} (hlen : out.length ≤ 16) :
    outBytes (complete out (endSession (beginCommand s))) = out :=
  outBytes_of_completed (completed_success_of_le_block s Session.finalized s.kw hlen)
    (hlen.trans (Nat.le_add_left 16 _))

/-- An encryption session, fed in any chunks. -/
theorem runSession_encrypt {s : State} {xs : List Bytes} (hinv : s.Inv) (hs : s.inSession .encrypt)
    (hfit : chunksFit s xs) :
    ∃ t, runSession .encupd .encfin s xs = some (t, encryptAll s.cfg.prim s.sess xs.flatten) ∧
      t.sess = Session.finalized := by
  obtain ⟨t, hfeed, hsess, -, hcfg⟩ := feed_eq encupdLaws hinv hs hfit
  have hfin := exec_encfin_of_inSession (inSession_of_update encupdLaws hs hsess)
  have hrun := runSession_eq hfeed hfin rfl
  rw [outBytes_endSession t (encBlock _ _ _).1.2.le, hcfg, hsess] at hrun
  exact ⟨_, hrun, rfl⟩

/-- Settles O41: both runs are the one stream and the one final block. -/
theorem encryptionIsIndependentOfChunking : Obligations.EncryptionIsIndependentOfChunking := by
  intro s xs ys hinv hs hxs hys heq
  obtain ⟨t, ht, htsess⟩ := runSession_encrypt hinv hs hxs
  obtain ⟨u, hu, husess⟩ := runSession_encrypt hinv hs hys
  exact ⟨t, u, _, ht, heq ▸ hu, htsess.trans husess.symm⟩

/-- Settles O42: both runs are the one stream, and DECFIN sees only the session it leaves. -/
theorem decryptionIsIndependentOfChunking : Obligations.DecryptionIsIndependentOfChunking := by
  intro s xs ys hinv hs hxs hys heq
  obtain ⟨t, ht, htsess, -, htcfg⟩ := feed_eq decupdLaws hinv hs hxs
  obtain ⟨u, hu, husess, -, hucfg⟩ := feed_eq decupdLaws hinv hs hys
  rw [← heq] at hu husess
  have hsess := htsess.trans husess.symm
  obtain ⟨t', u', ht', hu', hsess', herr, -, hout⟩ := exec_decfin_endAlike hsess.symm (hucfg.trans htcfg.symm)
  exact ⟨t, u, _, ht, hu, hsess, t', u', ht', hu', herr.symm, hout.symm, hsess'.symm⟩

/-! ## Round trip -/

/-- Two sessions agree on what the block steps use. -/
def sameCipher (x y : Session) : Prop := y.mode = x.mode ∧ y.key = x.key ∧ y.cb = x.cb

/-- Decrypting an encrypted block gives it back, and both sessions chain alike (40_primitive_and_key.md R91, R94, R95). -/
theorem decBlock_encBlock (prim : Primitive) {x y : Session} (h : sameCipher x y) (b : Block) :
    (decBlock prim y (encBlock prim x b).1).1 = b ∧
      sameCipher (encBlock prim x b).2 (decBlock prim y (encBlock prim x b).1).2 := by
  obtain ⟨hmode, hkey, hcb⟩ := h
  cases hx : x.mode with
  | ecb =>
    rw [hx] at hmode
    simp only [encBlock, decBlock, hx, hmode, hkey, aesDec_aesEnc, true_and]
    exact ⟨hmode.trans hx.symm, hkey, hcb⟩
  | cbc =>
    rw [hx] at hmode
    simp only [encBlock, decBlock, hx, hmode, hkey, hcb, aesDec_aesEnc, bxor_bxor_cancel, true_and]
    exact ⟨rfl, rfl, rfl⟩

/-- Decrypting the output of an encryption loop gives its blocks back. -/
theorem overBlocks_dec_enc (prim : Primitive) {x y : Session} (h : sameCipher x y) (l : List Block) :
    (overBlocks (decBlock prim) y (pieces 16 l.length (overBlocks (encBlock prim) x l).1)).1 = joinPieces l := by
  induction l generalizing x y with
  | nil => rfl
  | cons b l ih =>
    obtain ⟨hblock, hsame⟩ := decBlock_encBlock prim h b
    simp only [List.length_cons, overBlocks, pieces, fitBytes_append, hblock, joinPieces_cons]
    rw [List.drop_left' (encBlock prim x b).1.2, ih hsame]

/-- With nothing pending, a session's output is the loop over the input's blocks with the padded rest as the last one. -/
theorem encryptAll_eq (prim : Primitive) {x : Session} (hpend : x.pend = []) (m : Bytes) :
    encryptAll prim x m = (overBlocks (encBlock prim) x
      (pieces 16 (m.length / 16) m ++ [pad (m.drop (16 * (m.length / 16)))])).1 := by
  rw [encryptAll, encStream_eq, hpend, List.nil_append, streamOver, overBlocks_append]
  simp only [encBlock_pend, overBlocks, List.append_nil]

/-- What DECUPD and DECFIN recover of an encryption session's output, before the padding is stripped. -/
theorem decStream_encryptAll (prim : Primitive) {x y : Session} (h : sameCipher x y) (hx : x.pend = []) (hy : y.pend = [])
    (m : Bytes) :
    let c := encryptAll prim x m
    let z := (decStream prim y c).2
    (decStream prim y c).1 = m.take (16 * (m.length / 16)) ∧ z.pend.length = 16 ∧
      (decBlock prim z (fitBytes 16 z.pend)).1 = pad (m.drop (16 * (m.length / 16))) := by
  intro c z
  have hc : c = _ := encryptAll_eq prim hx m
  have hn : 16 * (m.length / 16) ≤ m.length := Nat.mul_div_le _ _
  generalize m.length / 16 = n at hc hn ⊢
  have hclen : c.length = 16 * (n + 1) := by rw [hc, overBlocks_length, List.length_append, pieces_length]; rfl
  have hstream : decStream prim y c = streamOver (decBlock prim) n y c := by
    rw [decStream_eq, hy, List.nil_append, hclen, Nat.mul_div_cancel_left _ (by decide), Nat.add_sub_cancel]
  have hback := overBlocks_dec_enc prim h (pieces 16 n m ++ [pad (m.drop (16 * n))])
  rw [← hc, List.length_append, pieces_length, List.length_singleton, pieces_succ_last, overBlocks_append,
    joinPieces_append] at hback
  obtain ⟨hfirst, hlast⟩ := List.append_inj hback (by
    rw [overBlocks_length, joinPieces_length, pieces_length, pieces_length])
  have hz : z = { sessionBefore (decBlock prim) y c n with pend := c.drop (16 * n) } := by
    rw [← streamOver_snd, ← hstream]
  refine ⟨?_, ?_, ?_⟩
  · rw [hstream, ← joinPieces_pieces 16 n m hn]
    exact hfirst
  · rw [hz, List.length_drop, hclen]
    omega
  · rw [hz, decBlock_pend]
    simp only [overBlocks, List.append_nil, joinPieces_cons, joinPieces_nil] at hlast
    exact Subtype.ext hlast

/-- Settles O43: the recovered blocks are the plaintext's and its padded rest, whose padding DECFIN strips. -/
theorem decryptionInvertsEncryption : Obligations.DecryptionInvertsEncryption := by
  intro s d ps hsinv hdinv hs hd hspend hdpend hprim hkey hmode hcb hps
  obtain ⟨t, hrun, -⟩ := runSession_encrypt hsinv hs hps
  refine ⟨t, _, hrun, fun cs hcs hc => ?_⟩
  obtain ⟨u, hfeed, hsess, -, hcfg⟩ := feed_eq decupdLaws hdinv hd hcs
  obtain ⟨hout, hpend, hlast⟩ := decStream_encryptAll s.cfg.prim ⟨hmode, hkey, hcb⟩ hspend hdpend ps.flatten
  rw [← hc, ← hprim] at hout hpend hlast
  rw [← hsess] at hpend hlast
  have hrest : (ps.flatten.drop (16 * (ps.flatten.length / 16))).length ≤ 15 := by
    rw [List.length_drop]; omega
  have hunpad : unpad (lastPlain u) = .ok (ps.flatten.drop (16 * (ps.flatten.length / 16))) := by
    rw [lastPlain, hcfg, hlast, unpad_eq_ok_iff_padded]
    exact ⟨hrest, pad_val hrest⟩
  have hrun' := runSession_eq hfeed (exec_decfin_of_unpad_ok (inSession_of_update decupdLaws hd hsess) hpend hunpad) rfl
  rw [outBytes_endSession u (by omega), hout, List.take_append_drop] at hrun'
  exact ⟨_, hrun'⟩

end Sys2Proof.Machine
end

section
/-! The register loops of the key wrap: the model's passes are the spec's nested loops over registers updated in place, and the
unwrap loop undoes the wrap loop (44_keywrap_rfc3394.md R160, R162). -/

namespace Sys2Proof.Machine

open Sys2Proof

/-! ## One pass -/

/-- One round of `W3394` in place, over the registers that follow the ones `done` already. -/
theorem foldl_wrapStep (prim : Primitive) (key : Bytes) (n j : Nat) (done todo : List Semi) (a : Semi) (b : Block) :
    (List.range' done.length todo.length).foldl (fun x k => wrapStep prim key n j k x) (a, done ++ todo) =
      let w := wrapPass prim key (n * j + done.length + 1) a b todo
      (w.a, done ++ w.r) := by
  induction todo generalizing done a b with
  | nil => simp [wrapPass]
  | cons r rs ih =>
    have hstep : wrapStep prim key n j done.length (a, done ++ r :: rs)
        = (bxor (high8 (aesEnc prim key (joinSemis a r))) (be64 (n * j + done.length + 1)),
           (done ++ [low8 (aesEnc prim key (joinSemis a r))]) ++ rs) := by
      simp [wrapStep, Nat.add_assoc]
    have hrest := ih (done ++ [low8 (aesEnc prim key (joinSemis a r))])
      (bxor (high8 (aesEnc prim key (joinSemis a r))) (be64 (n * j + done.length + 1))) (aesEnc prim key (joinSemis a r))
    rw [List.length_append, List.length_singleton] at hrest
    rw [List.length_cons, List.range'_succ, List.foldl_cons, hstep, hrest]
    simp [wrapPass, Nat.add_assoc]

/-- One round of `U3394` in place, over the registers that follow the ones left alone, the last one first. -/
theorem foldl_unwrapStep (prim : Primitive) (key : Bytes) (n j : Nat) (before todo : List Semi) (a : Semi) (b : Block) :
    (List.range' before.length todo.length).reverse.foldl (fun x k => unwrapStep prim key n j k x) (a, before ++ todo) =
      let w := unwrapPass prim key (n * j + before.length + 1) a b todo
      (w.a, before ++ w.r) := by
  induction todo generalizing before with
  | nil => simp [unwrapPass]
  | cons r rs ih =>
    have hrest := ih (before ++ [r])
    rw [List.length_append, List.length_singleton, List.append_assoc, List.singleton_append] at hrest
    rw [List.length_cons, List.range'_succ, List.reverse_cons, List.foldl_append, hrest]
    simp [unwrapStep, unwrapPass, Nat.add_assoc]

theorem foldl_wrapStep_range (prim : Primitive) (key : Bytes) (j : Nat) (a : Semi) (b : Block) (r : List Semi) :
    (List.range r.length).foldl (fun x k => wrapStep prim key r.length j k x) (a, r) =
      ((wrapPass prim key (r.length * j + 1) a b r).a, (wrapPass prim key (r.length * j + 1) a b r).r) := by
  rw [List.range_eq_range']
  exact foldl_wrapStep prim key r.length j [] r a b

theorem foldl_unwrapStep_range (prim : Primitive) (key : Bytes) (j : Nat) (a : Semi) (b : Block) (r : List Semi) :
    (List.range r.length).reverse.foldl (fun x k => unwrapStep prim key r.length j k x) (a, r) =
      ((unwrapPass prim key (r.length * j + 1) a b r).a, (unwrapPass prim key (r.length * j + 1) a b r).r) := by
  rw [List.range_eq_range']
  exact foldl_unwrapStep prim key r.length j [] r a b

/-! ## All rounds -/

/-- Passes over the temporaries and rounds over the registers go together, round by round, as long as the passes keep the
number of registers. -/
theorem foldl_pass_eq {pass : KeyWrapTemps → Nat → KeyWrapTemps} {round : Nat → Semi × List Semi → Nat → Semi × List Semi}
    (hlen : ∀ w j, (pass w j).r.length = w.r.length)
    (hround : ∀ w j, round w.r.length (w.a, w.r) j = ((pass w j).a, (pass w j).r)) (l : List Nat) (w : KeyWrapTemps) :
    ((l.foldl pass w).a, (l.foldl pass w).r) = l.foldl (round w.r.length) (w.a, w.r) := by
  induction l generalizing w with
  | nil => rfl
  | cons j l ih => rw [List.foldl_cons, List.foldl_cons, ih, hround, hlen]

theorem w3394_eq_rfc3394Wrap (prim : Primitive) (key : Bytes) (w : KeyWrapTemps) :
    ((w3394 prim key w).a, (w3394 prim key w).r) = rfc3394Wrap prim key w.a w.r :=
  foldl_pass_eq (round := fun n x j => (List.range n).foldl (fun x k => wrapStep prim key n j k x) x)
    (fun w _ => wrapPass_length prim key _ w.a w.b w.r) (fun w j => foldl_wrapStep_range prim key j w.a w.b w.r) _ w

theorem u3394_eq_rfc3394Unwrap (prim : Primitive) (key : Bytes) (w : KeyWrapTemps) :
    ((u3394 prim key w).a, (u3394 prim key w).r) = rfc3394Unwrap prim key w.a w.r :=
  foldl_pass_eq (round := fun n x j => (List.range n).reverse.foldl (fun x k => unwrapStep prim key n j k x) x)
    (fun w _ => unwrapPass_length prim key _ w.a w.b w.r) (fun w j => foldl_unwrapStep_range prim key j w.a w.b w.r) _ w

/-- Settles O44: both loops, pass by pass. -/
theorem registerLoopsAreAsWritten : Obligations.RegisterLoopsAreAsWritten := fun prim key w =>
  ⟨w3394_eq_rfc3394Wrap prim key w, u3394_eq_rfc3394Unwrap prim key w⟩

/-! ## The inverse loop -/

/-- Undoing the steps of a loop in the opposite order undoes the loop, where a step keeps what its inverse needs. -/
theorem foldl_reverse_cancel {α β : Type} {p : β → Prop} {f g : β → α → β} {l : List α}
    (hkeep : ∀ x, ∀ i ∈ l, p x → p (f x i)) (hcancel : ∀ x, ∀ i ∈ l, p x → g (f x i) i = x) {x : β} (hx : p x) :
    l.reverse.foldl g (l.foldl f x) = x := by
  induction l generalizing x with
  | nil => rfl
  | cons i l ih =>
    have hrest := ih (fun y k hk => hkeep y k (List.mem_cons_of_mem i hk))
      (fun y k hk => hcancel y k (List.mem_cons_of_mem i hk)) (hkeep x i List.mem_cons_self hx)
    rw [List.reverse_cons, List.foldl_append]
    exact (congrArg (g · i) hrest).trans (hcancel x i List.mem_cons_self hx)

theorem wrapStep_length (prim : Primitive) (key : Bytes) (n j k : Nat) (x : Semi × List Semi) :
    (wrapStep prim key n j k x).2.length = x.2.length :=
  List.length_set

/-- The primitive's inverse undoes one iteration (40_primitive_and_key.md R91). -/
theorem unwrapStep_wrapStep (prim : Primitive) (key : Bytes) (n j : Nat) {k : Nat} {x : Semi × List Semi}
    (hk : k < x.2.length) : unwrapStep prim key n j k (wrapStep prim key n j k x) = x := by
  simp [unwrapStep, wrapStep, hk, aesDec_aesEnc]

theorem foldl_wrapStep_length (prim : Primitive) (key : Bytes) (n j : Nat) (l : List Nat) (x : Semi × List Semi) :
    (l.foldl (fun x k => wrapStep prim key n j k x) x).2.length = x.2.length := by
  induction l generalizing x with
  | nil => rfl
  | cons k l ih => rw [List.foldl_cons, ih, wrapStep_length]

theorem rfc3394Wrap_length (prim : Primitive) (key : Bytes) (a : Semi) (r : List Semi) :
    (rfc3394Wrap prim key a r).2.length = r.length := by
  rw [← w3394_eq_rfc3394Wrap prim key { a := a, b := zeros 16, r := r }]
  exact w3394_length prim key _

theorem rfc3394Unwrap_length (prim : Primitive) (key : Bytes) (a : Semi) (r : List Semi) :
    (rfc3394Unwrap prim key a r).2.length = r.length := by
  rw [← u3394_eq_rfc3394Unwrap prim key { a := a, b := zeros 16, r := r }]
  exact u3394_length prim key _

theorem rfc3394Unwrap_rfc3394Wrap (prim : Primitive) (key : Bytes) (a : Semi) (r : List Semi) :
    rfc3394Unwrap prim key (rfc3394Wrap prim key a r).1 (rfc3394Wrap prim key a r).2 = (a, r) := by
  rw [rfc3394Unwrap, rfc3394Wrap_length]
  refine foldl_reverse_cancel (p := fun x => x.2.length = r.length)
    (fun x j _ hx => (foldl_wrapStep_length prim key _ j _ x).trans hx) (fun x j _ hx => ?_) rfl
  exact foldl_reverse_cancel (p := fun x => x.2.length = r.length)
    (fun y k _ hy => (wrapStep_length prim key _ j k y).trans hy)
    (fun y k hk hy => unwrapStep_wrapStep prim key _ j (by rw [hy]; exact List.mem_range.1 hk)) hx

/-- Settles O45: the loops' steps undone in the opposite order, for a key of any length. -/
theorem unwrapLoopInvertsWrapLoop : Obligations.UnwrapLoopInvertsWrapLoop := fun prim key a r _ =>
  rfc3394Unwrap_rfc3394Wrap prim key a r

end Sys2Proof.Machine
end

section
/-! The key-wrap commands: what each computes from its key and input, how it completes, which error it reports first, and the
round trips (44_keywrap_rfc3394.md, 45_keywrap_rfc5649.md). -/

namespace Sys2Proof.Machine

open Sys2Proof Host

/-! ## Results

What each command computes from the primitive, the key and the input, past the checks that all four share. -/

/-- WRAP.KW (44_keywrap_rfc3394.md R161). -/
def wrapKwResult (prim : Primitive) (key input : Bytes) : Except ErrCode Bytes :=
  if ¬ (input.length % 8 = 0 ∧ 16 ≤ input.length) then .error .invalidKeyDataLength
  else .ok (wrapOutput (rfc3394Wrap prim key kwIV (registersOf input)))

/-- UNWRAP.KW (44_keywrap_rfc3394.md R163). -/
def unwrapKwResult (prim : Primitive) (key input : Bytes) : Except ErrCode Bytes :=
  if ¬ (input.length % 8 = 0 ∧ 24 ≤ input.length) then .error .invalidWrappedLength
  else if (recovered prim key input).1 ≠ kwIV then .error .integrityCheckFailed
  else .ok (recovered prim key input).2

/-- The wrap of padded key data: one block for one register, the loop for more (45_keywrap_rfc5649.md R181). -/
def wrapPaddedOutput (prim : Primitive) (key : Bytes) (v : Semi) (pd : Bytes) : Bytes :=
  if pd.length = 8 then (aesEnc prim key (joinSemis v (fitBytes 8 pd))).1
  else wrapOutput (rfc3394Wrap prim key v (registersOf pd))

/-- WRAP.KWP (45_keywrap_rfc5649.md R181). -/
def wrapKwpResult (prim : Primitive) (key input : Bytes) : Except ErrCode Bytes :=
  if input.length = 0 then .error .invalidKeyDataLength
  else .ok (wrapPaddedOutput prim key (aiv input.length) (padKeyData input))

/-- UNWRAP.KWP (45_keywrap_rfc5649.md R183). -/
def unwrapKwpResult (prim : Primitive) (key input : Bytes) : Except ErrCode Bytes :=
  if ¬ (input.length % 8 = 0 ∧ 16 ≤ input.length) then .error .invalidWrappedLength
  else if high32 (recoveredPadded prim key input).1 ≠ 0xA65959A6 then .error .integrityCheckFailed
  else (mliCheck (low32 (recoveredPadded prim key input).1) (recoveredPadded prim key input).2).map
    (fun _ => (recoveredPadded prim key input).2.take (low32 (recoveredPadded prim key input).1))

/-- The checks the four commands share: the key, then the input's bound (60_exceptions.md R230). -/
def keyWrapChecked (s : State) (f : Bytes → Bytes → Except ErrCode Bytes) : Except ErrCode Bytes :=
  if ¬ s.keyOk then .error .invalidKeyLength else if ¬ s.inputFits then .error .inputTooLong
  else f s.keyOf (seenInput s)

/-- What a command of the key-wrap class computes; one with a bad selector fails before it looks at anything. -/
def keyWrapResult (s : State) : Instr → Except ErrCode Bytes
  | .wrapKw => keyWrapChecked s (wrapKwResult s.cfg.prim)
  | .unwrapKw => keyWrapChecked s (unwrapKwResult s.cfg.prim)
  | .wrapKwp => keyWrapChecked s (wrapKwpResult s.cfg.prim)
  | .unwrapKwp => keyWrapChecked s (unwrapKwpResult s.cfg.prim)
  | _ => .error .invalidMode

theorem keyWrapChecked_of_passed {s : State} (f : Bytes → Bytes → Except ErrCode Bytes) (hkey : s.keyOk)
    (hfits : s.inputFits) : keyWrapChecked s f = f s.keyOf (seenInput s) := by
  rw [keyWrapChecked, if_neg (not_not.2 hkey), if_neg (not_not.2 hfits)]

theorem keyWrapChecked_of_ok {s : State} (f : Bytes → Bytes → Except ErrCode Bytes) (hcfg : s.cfg.ok) (hkey : s.keyOk)
    (hfits : s.inputFits) : keyWrapChecked s f = f s.keyOf s.inputOf := by
  obtain ⟨-, -, -, hmax⟩ := hcfg
  rw [keyWrapChecked_of_passed f hkey hfits, seenInput_eq s (by omega) hfits]

/-- A command of the class has a bad selector or passes the shared checks first. -/
theorem keyWrapResult_cases {i : Instr} (hc : classOf i = .keyWrap) :
    (∃ alg, i = .wrapBadalg alg ∨ i = .unwrapBadalg alg) ∨
    ∃ f : Primitive → Bytes → Bytes → Except ErrCode Bytes, ∀ s, keyWrapResult s i = keyWrapChecked s (f s.cfg.prim) := by
  cases i with
  | wrapKw => exact .inr ⟨wrapKwResult, fun _ => rfl⟩
  | unwrapKw => exact .inr ⟨unwrapKwResult, fun _ => rfl⟩
  | wrapKwp => exact .inr ⟨wrapKwpResult, fun _ => rfl⟩
  | unwrapKwp => exact .inr ⟨unwrapKwpResult, fun _ => rfl⟩
  | wrapBadalg alg => exact .inl ⟨alg, .inl rfl⟩
  | unwrapBadalg alg => exact .inl ⟨alg, .inr rfl⟩
  | encinitEcb | encinitCbc | decinitEcb | decinitCbc | encupd | decupd | encfin | decfin | clear | encinitBadalg
  | decinitBadalg | illegal => exact nomatch hc

theorem keyWrapResult_of_bad_selector {i : Instr} (h : ∃ alg, i = .wrapBadalg alg ∨ i = .unwrapBadalg alg)
    (s : State) : keyWrapResult s i = .error .invalidMode := by
  obtain ⟨alg, rfl | rfl⟩ := h <;> rfl

/-! ## Completion -/

/-- How a command of the key-wrap class completes with its result. -/
def finishWrap (s : State) : Except ErrCode Bytes → State
  | .ok out => complete out (wipeWrap (beginCommand s))
  | .error e => failCommand .keyWrap e s

/-- The code a result reports. -/
def errOf : Except ErrCode Bytes → ErrCode
  | .ok _ => .ok
  | .error e => e

/-- The output of a result; an error has none. -/
def outOf : Except ErrCode Bytes → Bytes
  | .ok out => out
  | .error _ => []

theorem finishWrap_err (s : State) (r : Except ErrCode Bytes) : (finishWrap s r).err = errOf r := by
  cases r <;> rfl

theorem finishWrap_sess (s : State) (r : Except ErrCode Bytes) : (finishWrap s r).sess = s.sess := by
  cases r with
  | ok out => rfl
  | error e => exact failCommand_sess .keyWrap e s

theorem finishWrap_kw (s : State) (r : Except ErrCode Bytes) : (finishWrap s r).kw = KeyWrapTemps.zero := by
  cases r with
  | ok out => rfl
  | error e => exact failCommand_kw .keyWrap e s

theorem completed_finishWrap {s : State} (hcfg : s.cfg.ok) {r : Except ErrCode Bytes}
    (hlen : (outOf r).length ≤ s.cfg.obufSize) : completed s (finishWrap s r) (errOf r) (outOf r) := by
  cases r with
  | ok out =>
    obtain ⟨-, -, -, hmax⟩ := hcfg
    refine completed_success s s.sess KeyWrapTemps.zero hlen ?_
    simp only [outOf, Params.obufSize] at hlen
    omega
  | error e => exact completed_failCommand .keyWrap e s

/-! ## The commands compute their results -/

theorem output_w3394 (prim : Primitive) (key : Bytes) (a : Semi) (r : List Semi) (w : KeyWrapTemps) :
    (w3394 prim key (loaded a r w)).output = wrapOutput (rfc3394Wrap prim key a r) :=
  congrArg wrapOutput (w3394_eq_rfc3394Wrap prim key (loaded a r w))

theorem recovered_eq_u3394 (prim : Primitive) (key input : Bytes) (w : KeyWrapTemps) :
    recovered prim key input =
      let v := u3394 prim key (loaded (fitBytes 8 input) (pieces 8 (input.length / 8 - 1) (input.drop 8)) w)
      (v.a, joinPieces v.r) := by
  have hcount : (input.drop 8).length / 8 = input.length / 8 - 1 := by rw [List.length_drop]; omega
  rw [recovered, registersOf, hcount]
  exact congrArg (fun x : Semi × List Semi => (x.1, joinPieces x.2))
    (u3394_eq_rfc3394Unwrap prim key
      (loaded (fitBytes 8 input) (pieces 8 (input.length / 8 - 1) (input.drop 8)) w)).symm

theorem wrapPadded_output (key : Bytes) (mli : Nat) (pd : Bytes) (s : State) :
    (wrapPadded key mli pd s).2 = wrapPaddedOutput s.cfg.prim key (aiv mli) pd := by
  unfold wrapPadded wrapPaddedOutput
  split
  · rfl
  · exact output_w3394 s.cfg.prim key (aiv mli) (registersOf pd) s.kw

theorem unwrapPadded_eq_recovered (key input : Bytes) (s : State) :
    ((unwrapPadded key input s).kw.a, joinPieces (unwrapPadded key input s).kw.r)
      = recoveredPadded s.cfg.prim key input := by
  unfold unwrapPadded recoveredPadded
  split
  · exact congrArg (Prod.mk _) (List.append_nil _)
  · exact (recovered_eq_u3394 s.cfg.prim key input s.kw).symm

theorem unwrapped_eq_recovered (s : State) :
    ((unwrapped s).a, joinPieces (unwrapped s).r) = recovered s.cfg.prim s.keyOf (seenInput s) := by
  rw [recovered_eq_u3394 s.cfg.prim s.keyOf (seenInput s) s.kw, seenInput_length]
  rfl

/-- Every command of the class completes with its result (46_control.md R202). -/
theorem exec_keyWrap {i : Instr} (hc : classOf i = .keyWrap) (s : State) :
    exec i s = .next (finishWrap s (keyWrapResult s i)) := by
  cases i with
  | wrapKw =>
    refine (run_wrapKwBody s).trans (congrArg Outcome.next ?_)
    rw [keyWrapResult, keyWrapChecked, wrapKwResult, seenInput_length, output_w3394, registersOf, seenInput_length]
    split_ifs <;> rfl
  | unwrapKw =>
    refine (run_unwrapKwBody s).trans (congrArg Outcome.next ?_)
    rw [keyWrapResult, keyWrapChecked, unwrapKwResult, seenInput_length, ← unwrapped_eq_recovered]
    split_ifs <;> rfl
  | wrapKwp =>
    refine (run_wrapKwpBody s).trans (congrArg Outcome.next ?_)
    rw [keyWrapResult, keyWrapChecked, wrapKwpResult, seenInput_length, wrapPadded_output]
    split_ifs <;> rfl
  | unwrapKwp =>
    refine (run_unwrapKwpBody s).trans (congrArg Outcome.next ?_)
    rw [keyWrapResult, keyWrapChecked, unwrapKwpResult, seenInput_length, ← unwrapPadded_eq_recovered]
    split_ifs with h1 h2 h3 h4
    · exact if_pos h4
    · refine (if_neg h4).trans ?_
      cases mliCheck _ _ <;> rfl
    all_goals rfl
  | wrapBadalg | unwrapBadalg => exact run_raiseBody .keyWrap .invalidMode s
  | encinitEcb | encinitCbc | decinitEcb | decinitCbc | encupd | decupd | encfin | decfin | clear | encinitBadalg
  | decinitBadalg | illegal => exact nomatch hc

/-! ## Lengths -/

theorem wrapOutput_length (x : Semi × List Semi) : (wrapOutput x).length = 8 + 8 * x.2.length := by
  rw [wrapOutput, List.length_append, x.1.2, joinPieces_length]

theorem length_wrapOutput_registersOf (prim : Primitive) (key : Bytes) (a : Semi) (b : Bytes) :
    (wrapOutput (rfc3394Wrap prim key a (registersOf b))).length = 8 + 8 * (b.length / 8) := by
  rw [wrapOutput_length, rfc3394Wrap_length, registersOf, pieces_length]

theorem recovered_length (prim : Primitive) (key c : Bytes) :
    (recovered prim key c).2.length = 8 * ((c.length - 8) / 8) := by
  rw [recovered, joinPieces_length, rfc3394Unwrap_length, registersOf, pieces_length, List.length_drop]

theorem wrapPaddedOutput_length (prim : Primitive) (key : Bytes) (v : Semi) (pd : Bytes) :
    (wrapPaddedOutput prim key v pd).length = 8 + 8 * (pd.length / 8) := by
  unfold wrapPaddedOutput
  split
  case isTrue h => rw [(aesEnc prim key _).2, h]
  case isFalse h => exact length_wrapOutput_registersOf prim key v pd

theorem recoveredPadded_length (prim : Primitive) (key c : Bytes) :
    (recoveredPadded prim key c).2.length = 8 * ((c.length - 8) / 8) := by
  unfold recoveredPadded
  split
  case isTrue h => rw [(low8 _).2, h]
  case isFalse h => exact recovered_length prim key c

/-- No command's output is more than 16 bytes longer than its input, which is what OUT exceeds IN by. -/
theorem length_outOf_keyWrapResult_le (s : State) (i : Instr) : (outOf (keyWrapResult s i)).length ≤ s.cfg.obufSize := by
  have hchecked : ∀ f : Bytes → Bytes → Except ErrCode Bytes,
      (∀ key input, (outOf (f key input)).length ≤ input.length + 16) →
      (outOf (keyWrapChecked s f)).length ≤ s.cfg.obufSize := by
    intro f hf
    unfold keyWrapChecked
    split_ifs with hkey hfits
    · exact le_trans (hf _ _) (by rw [seenInput_length, Params.obufSize]; exact Nat.add_le_add_right hfits 16)
    · exact Nat.zero_le _
    · exact Nat.zero_le _
  cases i with
  | wrapKw =>
    refine hchecked _ fun key input => ?_
    unfold wrapKwResult
    split_ifs
    · rw [outOf, length_wrapOutput_registersOf]; omega
    · exact Nat.zero_le _
  | unwrapKw =>
    refine hchecked _ fun key input => ?_
    unfold unwrapKwResult
    split_ifs
    · exact Nat.zero_le _
    · rw [outOf, recovered_length]; omega
    · exact Nat.zero_le _
  | wrapKwp =>
    refine hchecked _ fun key input => ?_
    unfold wrapKwpResult
    split_ifs
    · exact Nat.zero_le _
    · rw [outOf, wrapPaddedOutput_length, padKeyData_length]; omega
  | unwrapKwp =>
    refine hchecked _ fun key input => ?_
    unfold unwrapKwpResult
    split_ifs
    · exact Nat.zero_le _
    · cases mliCheck _ _ with
      | error e => exact Nat.zero_le _
      | ok =>
        refine (List.length_take_le' _ _).trans ?_
        rw [recoveredPadded_length]
        omega
    · exact Nat.zero_le _
  | wrapBadalg | unwrapBadalg | encinitEcb | encinitCbc | decinitEcb | decinitCbc | encupd | decupd | encfin | decfin | clear
  | encinitBadalg | decinitBadalg | illegal => exact Nat.zero_le _

/-- A command of the class completes with its result, keeps the session and leaves no temporaries
(44_keywrap_rfc3394.md R164). -/
theorem keyWrap_completes {i : Instr} (hc : classOf i = .keyWrap) {s : State} (hcfg : s.cfg.ok)
    {r : Except ErrCode Bytes} (hr : keyWrapResult s i = r) :
    ∃ t, exec i s = .next t ∧ completed s t (errOf r) (outOf r) ∧ t.sess = s.sess ∧ t.kw = KeyWrapTemps.zero := by
  subst hr
  exact ⟨_, exec_keyWrap hc s, completed_finishWrap hcfg (length_outOf_keyWrapResult_le s i), finishWrap_sess s _,
    finishWrap_kw s _⟩

/-! ## What each command does -/

theorem keyWrapResult_wrapKw {s : State} (hcfg : s.cfg.ok) (hkey : s.keyOk) (hfits : s.inputFits)
    (hmod : s.inlen.toNat % 8 = 0) (h16 : 16 ≤ s.inlen.toNat) :
    keyWrapResult s .wrapKw = .ok (wrapOutput (rfc3394Wrap s.cfg.prim s.keyOf kwIV (registersOf s.inputOf))) := by
  rw [keyWrapResult, keyWrapChecked_of_ok _ hcfg hkey hfits, wrapKwResult, inputOf_length, if_neg (not_not.2 ⟨hmod, h16⟩)]

theorem keyWrapResult_wrapKwp {s : State} (hcfg : s.cfg.ok) (hkey : s.keyOk) (hfits : s.inputFits)
    (h1 : 1 ≤ s.inlen.toNat) : keyWrapResult s .wrapKwp
      = .ok (wrapPaddedOutput s.cfg.prim s.keyOf (aiv s.inlen.toNat) (padKeyData s.inputOf)) := by
  rw [keyWrapResult, keyWrapChecked_of_ok _ hcfg hkey hfits, wrapKwpResult, inputOf_length, if_neg (by omega)]

/-- Settles O46: the checks pass, and the result is the loop's output. -/
theorem wrapKwOutputsTheWrappedKey : Obligations.WrapKwOutputsTheWrappedKey := by
  intro s hcfg hkey hfits hmod h16
  obtain ⟨t, hexec, hdone, hsess, hkw⟩ := keyWrap_completes rfl hcfg (keyWrapResult_wrapKw hcfg hkey hfits hmod h16)
  refine ⟨t, _, hexec, hdone, hsess, hkw, ?_, rfl⟩
  rw [outOf, length_wrapOutput_registersOf, inputOf_length]
  omega

/-- Settles O47: the comparison of A with eight bytes A6 decides which of the two ends is taken. -/
theorem unwrapKwChecksIntegrity : Obligations.UnwrapKwChecksIntegrity := by
  intro s hcfg hkey hfits hmod h24
  have hr : keyWrapResult s .unwrapKw
      = if (recovered s.cfg.prim s.keyOf s.inputOf).1 ≠ kwIV then .error .integrityCheckFailed
        else .ok (recovered s.cfg.prim s.keyOf s.inputOf).2 := by
    rw [keyWrapResult, keyWrapChecked_of_ok _ hcfg hkey hfits, unwrapKwResult, inputOf_length, if_neg (not_not.2 ⟨hmod, h24⟩)]
  obtain ⟨t, hexec, hdone, hsess, hkw⟩ := keyWrap_completes rfl hcfg hr
  refine ⟨t, (recovered s.cfg.prim s.keyOf s.inputOf).1, (recovered s.cfg.prim s.keyOf s.inputOf).2, rfl, ?_, hexec, hsess,
    hkw, fun ha => ?_, fun ha => ?_⟩
  · rw [recovered_length, inputOf_length]; omega
  · rwa [if_neg (not_not.2 (Subtype.ext ha))] at hdone
  · rwa [if_pos (fun h => ha (congrArg Subtype.val h))] at hdone

theorem fitBytes_semi_append (v : Semi) {pd : Bytes} (hpd : pd.length = 8) :
    fitBytes 16 (v.1 ++ pd) = joinSemis v (fitBytes 8 pd) := by
  have hval := fitBytes_val_eq 8 pd hpd
  exact (congrArg (fun b => fitBytes 16 (v.1 ++ b)) hval).symm.trans (fitBytes_self (joinSemis v (fitBytes 8 pd)))

/-- Settles O48: up to 8 bytes pad to one register, 9 and more to at least two. -/
theorem wrapKwpOutputsTheWrappedKey : Obligations.WrapKwpOutputsTheWrappedKey := by
  intro s hcfg hkey hfits h1
  have hpd : (padKeyData s.inputOf).length = 8 * ((s.inlen.toNat + 7) / 8) := by rw [padKeyData_length, inputOf_length]
  obtain ⟨t, hexec, hdone, hsess, hkw⟩ := keyWrap_completes rfl hcfg (keyWrapResult_wrapKwp hcfg hkey hfits h1)
  refine ⟨t, _, padKeyData s.inputOf, aiv s.inlen.toNat, hexec, hdone, hsess, hkw, ?_, rfl, ?_, fun hmli => ?_, fun hmli => ?_⟩
  · rw [outOf, wrapPaddedOutput_length, hpd]; omega
  · rw [padKeyData, inputOf_length]
  · have h8 : (padKeyData s.inputOf).length = 8 := by omega
    rw [fitBytes_semi_append _ h8, outOf, wrapPaddedOutput, if_pos h8]
  · rw [outOf, wrapPaddedOutput, if_neg (by omega)]

/-- Settles O49: the high half of A first, then the MLI check. -/
theorem unwrapKwpChecksIntegrityAndPadding : Obligations.UnwrapKwpChecksIntegrityAndPadding := by
  intro s hcfg hkey hfits hmod h16
  have hr : keyWrapResult s .unwrapKwp = unwrapKwpResult s.cfg.prim s.keyOf s.inputOf :=
    keyWrapChecked_of_ok _ hcfg hkey hfits
  rw [unwrapKwpResult, inputOf_length, if_neg (not_not.2 ⟨hmod, h16⟩)] at hr
  obtain ⟨t, hexec, hdone, hsess, hkw⟩ := keyWrap_completes rfl hcfg hr
  refine ⟨t, (recoveredPadded s.cfg.prim s.keyOf s.inputOf).1, (recoveredPadded s.cfg.prim s.keyOf s.inputOf).2, rfl, ?_,
    hexec, hsess, hkw, fun hicv => ?_, fun hicv hmli => ?_, fun hicv hmli => ?_⟩
  · rw [recoveredPadded_length, inputOf_length]; omega
  · rwa [if_pos hicv] at hdone
  · rwa [if_neg (not_not.2 hicv), mliCheck_of_ne_ok (mt (mliCheck_eq_ok_iff _ _).1 hmli)] at hdone
  · rwa [if_neg (not_not.2 hicv), (mliCheck_eq_ok_iff _ _).2 hmli] at hdone

/-! ## The first error -/

/-- Past the length check UNWRAP.KW reports something else. -/
theorem errOf_unwrapKwResult_iff (prim : Primitive) (key input : Bytes) :
    errOf (unwrapKwResult prim key input) = .invalidWrappedLength ↔ input.length % 8 ≠ 0 ∨ input.length < 24 := by
  rw [← not_le, ← not_and_or, unwrapKwResult]
  split_ifs with hlen ha
  · exact iff_of_false nofun (not_not.2 hlen)
  · exact iff_of_false nofun (not_not.2 hlen)
  · exact iff_of_true rfl hlen

/-- Past the length check UNWRAP.KWP reports something else. -/
theorem errOf_unwrapKwpResult_iff (prim : Primitive) (key input : Bytes) :
    errOf (unwrapKwpResult prim key input) = .invalidWrappedLength ↔ input.length % 8 ≠ 0 ∨ input.length < 16 := by
  rw [← not_le, ← not_and_or, unwrapKwpResult]
  split_ifs with hlen ha
  · exact iff_of_false nofun (not_not.2 hlen)
  · refine iff_of_false ?_ (not_not.2 hlen)
    by_cases hmli : mliCheck (low32 (recoveredPadded prim key input).1) (recoveredPadded prim key input).2 = .ok ()
    · rw [hmli]; exact nofun
    · rw [mliCheck_of_ne_ok hmli]; exact nofun
  · exact iff_of_true rfl hlen

/-- Settles O51: ERR is the result's code, read off check by check. -/
theorem keyWrapReportsItsFirstError : Obligations.KeyWrapReportsItsFirstError := by
  intro s t i hexec hc
  rw [exec_keyWrap hc s] at hexec
  obtain rfl := Outcome.next.inj hexec
  rw [finishWrap_err]
  have hchecked : (∀ alg, i ≠ .wrapBadalg alg ∧ i ≠ .unwrapBadalg alg) → ∃ f, keyWrapResult s i = keyWrapChecked s f := by
    intro hgood
    obtain ⟨alg, hbad⟩ | ⟨f, hf⟩ := keyWrapResult_cases hc
    · exact absurd hbad (not_or.2 (hgood alg))
    · exact ⟨_, hf s⟩
  refine ⟨fun alg hbad => ?_, fun hgood hkey => ?_, fun hgood hkey hfits => ?_, fun hkey hfits => ⟨?_, ?_, ?_, ?_⟩⟩
  · rw [keyWrapResult_of_bad_selector ⟨alg, hbad⟩, errOf]
  · obtain ⟨f, hf⟩ := hchecked hgood
    rw [hf, keyWrapChecked, if_pos hkey, errOf]
  · obtain ⟨f, hf⟩ := hchecked hgood
    rw [hf, keyWrapChecked, if_neg (not_not.2 hkey), if_pos hfits, errOf]
  · rintro rfl
    rw [keyWrapResult, keyWrapChecked_of_passed _ hkey hfits, wrapKwResult, seenInput_length]
    simp only [not_and_or, not_le, ne_eq]
    split_ifs <;> rfl
  · rintro rfl
    rw [keyWrapResult, keyWrapChecked_of_passed _ hkey hfits, wrapKwpResult, seenInput_length]
    split_ifs <;> rfl
  · rintro rfl
    rw [keyWrapResult, keyWrapChecked_of_passed _ hkey hfits, errOf_unwrapKwResult_iff, seenInput_length]
  · rintro rfl
    rw [keyWrapResult, keyWrapChecked_of_passed _ hkey hfits, errOf_unwrapKwpResult_iff, seenInput_length]

/-! ## What the commands depend on -/

/-- The result is a function of the parameters, KEYCFG, INLEN and the bytes of KEY and IN. -/
theorem keyWrapResult_congr {i : Instr} (hc : classOf i = .keyWrap) {s s' : State} (hok : s.cfg.ok) (hcfg : s'.cfg = s.cfg)
    (hkeycfg : s'.keycfg = s.keycfg) (hinlen : s'.inlen = s.inlen)
    (hkey : ∀ k < 32, Memory.read s'.mem (keyBase + k) = Memory.read s.mem (keyBase + k))
    (hin : ∀ k < s.cfg.ibufSize, Memory.read s'.mem (inBase + k) = Memory.read s.mem (inBase + k)) :
    keyWrapResult s' i = keyWrapResult s i := by
  obtain hbad | ⟨f, hf⟩ := keyWrapResult_cases hc
  · rw [keyWrapResult_of_bad_selector hbad, keyWrapResult_of_bad_selector hbad]
  rw [hf, hf, hcfg]
  have hkeyBytes : keyBytes s' = keyBytes s := by rw [keyBytes, keyBytes, hkeycfg]
  have hkeyOk : s'.keyOk ↔ s.keyOk := by rw [State.keyOk, State.keyOk, bitLen, bitLen, hkeyBytes, hkeycfg]
  have hfits : s'.inputFits ↔ s.inputFits := by rw [State.inputFits, State.inputFits, hinlen, hcfg]
  by_cases hk : s.keyOk
  · by_cases hfit : s.inputFits
    · have hkeyOf : s'.keyOf = s.keyOf := by
        have hlen := keyOk_length hk
        rw [keyOf_length] at hlen
        rw [State.keyOf, hkeyBytes]
        exact readRange_congr _ _ _ _ fun k hlt => hkey k (by omega)
      have hinputOf : s'.inputOf = s.inputOf := by
        rw [State.inputOf, hinlen]
        exact readRange_congr _ _ _ _ fun k hlt => hin k (lt_of_lt_of_le hlt hfit)
      rw [keyWrapChecked_of_ok _ hok hk hfit, keyWrapChecked_of_ok _ (hcfg ▸ hok) (hkeyOk.2 hk) (hfits.2 hfit), hkeyOf,
        hinputOf]
    · rw [keyWrapChecked, keyWrapChecked, if_neg (not_not.2 hk), if_neg (not_not.2 (hkeyOk.2 hk)), if_pos hfit,
        if_pos (mt hfits.1 hfit)]
  · rw [keyWrapChecked, keyWrapChecked, if_pos hk, if_pos (mt hkeyOk.1 hk)]

/-- Settles O53: the two states have one result. -/
theorem keyWrapIsStateless : Obligations.KeyWrapIsStateless := by
  intro i s s' hc hok hcfg hkeycfg hinlen hkey hin
  obtain ⟨t, hexec, hdone, hsess, hkw⟩ := keyWrap_completes hc hok rfl
  obtain ⟨t', hexec', hdone', hsess', hkw'⟩ :=
    keyWrap_completes hc (hcfg ▸ hok) (keyWrapResult_congr hc hok hcfg hkeycfg hinlen hkey hin)
  exact ⟨t, t', _, _, hexec, hexec', hdone, hdone', hsess, hsess', hkw, hkw'⟩

/-! ## Round trips -/

/-- What the loop wraps is recovered from its output. -/
theorem recovered_wrapOutput (prim : Primitive) (key : Bytes) (a : Semi) (r : List Semi) :
    recovered prim key (wrapOutput (rfc3394Wrap prim key a r)) = (a, joinPieces r) := by
  have hregs : registersOf (joinPieces (rfc3394Wrap prim key a r).2) = (rfc3394Wrap prim key a r).2 := by
    rw [registersOf, joinPieces_length, Nat.mul_div_cancel_left _ (by decide)]
    exact (congrArg _ (List.append_nil _)).symm.trans (pieces_joinPieces _ [])
  rw [recovered, wrapOutput, fitBytes_append, List.drop_left' (rfc3394Wrap prim key a r).1.2, hregs,
    rfc3394Unwrap_rfc3394Wrap]

theorem joinPieces_registersOf {b : Bytes} (h : b.length % 8 = 0) : joinPieces (registersOf b) = b := by
  rw [registersOf, joinPieces_pieces 8 _ b (by omega), List.take_of_length_le (by omega)]

theorem unwrapKwResult_wrapOutput (prim : Primitive) (key : Bytes) {input : Bytes} (hmod : input.length % 8 = 0)
    (h16 : 16 ≤ input.length) :
    unwrapKwResult prim key (wrapOutput (rfc3394Wrap prim key kwIV (registersOf input))) = .ok input := by
  rw [unwrapKwResult, length_wrapOutput_registersOf, if_neg (by omega), recovered_wrapOutput, joinPieces_registersOf hmod]
  exact if_neg (not_not.2 rfl)

/-- What the padded wrap takes is recovered from its output: one block back for one register, the loop back for more. -/
theorem recoveredPadded_wrapPaddedOutput (prim : Primitive) (key : Bytes) (v : Semi) {pd : Bytes} (hmod : pd.length % 8 = 0) :
    recoveredPadded prim key (wrapPaddedOutput prim key v pd) = (v, pd) := by
  have hlen := wrapPaddedOutput_length prim key v pd
  by_cases hone : pd.length = 8
  · rw [recoveredPadded, if_pos (by omega), wrapPaddedOutput, if_pos hone]
    simp only [fitBytes_self, aesDec_aesEnc, high8_joinSemis, low8_joinSemis, fitBytes_val_eq 8 pd hone]
  · rw [recoveredPadded, if_neg (by omega), wrapPaddedOutput, if_neg hone, recovered_wrapOutput, joinPieces_registersOf hmod]

theorem high32_aiv (mli : Nat) : high32 (aiv mli) = 0xA65959A6 := by
  rw [high32, aiv, List.take_left' kwpICV.2]
  decide

theorem low32_aiv {mli : Nat} (h : mli < 2 ^ 32) : low32 (aiv mli) = mli := by
  rw [low32, aiv, List.drop_left' kwpICV.2, be32, beVal_bigEndian]
  exact Nat.mod_eq_of_lt h

theorem mliPasses_padKeyData (b : Bytes) : mliPasses b.length (padKeyData b) := by
  have hlen := padKeyData_length b
  refine ⟨by omega, by omega, fun k hge hlt => ?_⟩
  rw [padKeyData, List.getD_append_right _ _ _ _ hge, List.getD_replicate _ (by omega)]

theorem unwrapKwpResult_wrapPaddedOutput (prim : Primitive) (key : Bytes) {input : Bytes} (h1 : 1 ≤ input.length)
    (h32 : input.length < 2 ^ 32) :
    unwrapKwpResult prim key (wrapPaddedOutput prim key (aiv input.length) (padKeyData input)) = .ok input := by
  have hlen := padKeyData_length input
  rw [unwrapKwpResult, wrapPaddedOutput_length, if_neg (by omega),
    recoveredPadded_wrapPaddedOutput prim key _ (by omega), if_neg (not_not.2 (high32_aiv _)), low32_aiv h32,
    (mliCheck_eq_ok_iff _ _).2 (mliPasses_padKeyData input)]
  exact congrArg Except.ok (List.take_left' rfl)

/-- A command's output placed as the next input leaves the key operand as it was. -/
theorem keyWrapChecked_replayed {s t : State} {e : ErrCode} {out : Bytes} (hcfg : s.cfg.ok) (hkey : s.keyOk)
    (hdone : completed s t e out) (hout : out.length ≤ s.cfg.ibufSize) (f : Bytes → Bytes → Except ErrCode Bytes) :
    keyWrapChecked (t.withInput (outBytes t)) f = f s.keyOf out := by
  rw [outBytes_of_completed hdone (hout.trans (Nat.le_add_right _ 16))]
  obtain ⟨-, -, -, ⟨htcfg, -, -, -, hkeycfg, -⟩, hmem⟩ := hdone
  have hkeyBytes : keyBytes (t.withInput out) = keyBytes s := by rw [keyBytes, keyBytes, withInput_keycfg, hkeycfg]
  have hkeyOk : (t.withInput out).keyOk := by
    rw [State.keyOk, hkeyBytes, bitLen, withInput_keycfg, hkeycfg]
    exact hkey
  have hkeyOf : (t.withInput out).keyOf = s.keyOf := by
    have hlen : keyBytes s < 64 := (s.keycfg.extractLsb' 16 6).isLt
    rw [State.keyOf, hkeyBytes]
    refine readRange_congr _ _ _ _ fun k hk => ?_
    have hbelow : keyBase + k < inBase := by simp only [keyBase, inBase]; omega
    rw [withInput_mem, read_write, if_neg (by omega), hmem _ (.inl (hbelow.trans (by decide)))]
  have hfits : (t.withInput out).inputFits := by
    rw [State.inputFits, withInput_inlen_toNat (htcfg ▸ hcfg) (htcfg ▸ hout), withInput_cfg, htcfg]
    exact hout
  rw [keyWrapChecked_of_ok f (by rw [withInput_cfg, htcfg]; exact hcfg) hkeyOk hfits, hkeyOf,
    withInput_inputOf (htcfg ▸ hcfg) (htcfg ▸ hout)]

/-- A wrap and then the unwrap of its output, given that the unwrap's result on that output is `b`. -/
theorem exec_unwrap_of_wrap {i j : Instr} (hi : classOf i = .keyWrap) (hj : classOf j = .keyWrap) {s : State}
    (hcfg : s.cfg.ok) (hkey : s.keyOk) {out b : Bytes} (hwrap : keyWrapResult s i = .ok out)
    (hout : out.length ≤ s.cfg.ibufSize) {f : Primitive → Bytes → Bytes → Except ErrCode Bytes}
    (hf : ∀ s', keyWrapResult s' j = keyWrapChecked s' (f s'.cfg.prim)) (hunwrap : f s.cfg.prim s.keyOf out = .ok b) :
    ∃ t u, exec i s = .next t ∧ exec j (t.withInput (outBytes t)) = .next u ∧ u.err = .ok ∧ outBytes u = b := by
  obtain ⟨t, hexec, hdone, -⟩ := keyWrap_completes hi hcfg hwrap
  have hcfg' : (t.withInput (outBytes t)).cfg = s.cfg := by
    obtain ⟨-, -, -, ⟨htcfg, -⟩, -⟩ := hdone
    rw [withInput_cfg, htcfg]
  have hres : keyWrapResult (t.withInput (outBytes t)) j = .ok b := by
    rw [hf, hcfg', keyWrapChecked_replayed hcfg hkey hdone hout]
    exact hunwrap
  obtain ⟨u, hexec', hdone', -⟩ := keyWrap_completes hj (hcfg' ▸ hcfg) hres
  have hfits := length_outOf_keyWrapResult_le (t.withInput (outBytes t)) j
  rw [hres] at hfits
  exact ⟨t, u, hexec, hexec', hdone'.1, outBytes_of_completed hdone' hfits⟩

/-- Settles O54: the unwrap loop undoes the wrap loop, so A comes back as eight bytes A6. -/
theorem unwrapKwInvertsWrapKw : Obligations.UnwrapKwInvertsWrapKw := by
  intro s hcfg hkey hmod h16 hmax
  have hlen := inputOf_length s
  refine exec_unwrap_of_wrap (j := .unwrapKw) (f := unwrapKwResult) rfl rfl hcfg hkey
    (keyWrapResult_wrapKw hcfg hkey (by omega) hmod h16) ?_ (fun _ => rfl)
    (unwrapKwResult_wrapOutput _ _ (by omega) (by omega))
  rw [length_wrapOutput_registersOf]
  omega

/-- Settles O55: the recovered A is the AIV of the length, and the padding is cut off again. -/
theorem unwrapKwpInvertsWrapKwp : Obligations.UnwrapKwpInvertsWrapKwp := by
  intro s hcfg hkey h1 hmax
  have hlen := inputOf_length s
  have hlt := s.inlen.isLt
  refine exec_unwrap_of_wrap (j := .unwrapKwp) (f := unwrapKwpResult) rfl rfl hcfg hkey
    (keyWrapResult_wrapKwp hcfg hkey (by omega) h1) ?_ (fun _ => rfl) ?_
  · obtain ⟨-, hmod, -⟩ := hcfg
    rw [wrapPaddedOutput_length, padKeyData_length]
    omega
  · rw [← hlen]
    exact unwrapKwpResult_wrapPaddedOutput _ _ (by omega) (by omega)

end Sys2Proof.Machine
end
